-- ==== Sys2Proof/Word.lean ====
section
/-! DEFINITION. The two word types of the block: a 32-bit register word and a byte (00_scope.md R8). -/

namespace Sys2Proof

/-- A value of a 32-bit register, `Bits32` (00_scope.md R7 row `REG_WIDTH`, R8). -/
abbrev Word := BitVec 32

/-- A byte, `Bits8` (00_scope.md R8). -/
abbrev Byte := BitVec 8

end Sys2Proof
end

