-- ==== Sys2Proof/Syntax.lean ====
section
/-! DEFINITION. The 15 commands of the block (30_encoding.md R76). -/

namespace Sys2Proof

/-- A command with its operands as the assembler syntax writes them (30_encoding.md R79). Operands are plain numbers:
which of them a field can hold is `Instr.wf`. -/
inductive Instr where
  /-- Masked write of `value` into the `w`-bit field at position `p` of word `off` (40_register_writer.md R82). -/
  | wrf (off w p : Nat) (value : Word)
  /-- Read of the `w`-bit field at position `p` of word `off` (40_register_writer.md R83). -/
  | rdf (off w p : Nat)
  /-- Claim pin `id` into slot `slot` (41_pin.md R94). -/
  | pclm (slot id : Nat)
  /-- Release the pin in slot `slot` (41_pin.md R95). -/
  | prel (slot : Nat)
  /-- Raise the line of the pin in slot `slot` (41_pin.md R96). -/
  | pset (slot : Nat)
  /-- Lower the line of the pin in slot `slot` (41_pin.md R97). -/
  | pclr (slot : Nat)
  /-- Pulse the line of the pin in slot `slot` (41_pin.md R98). -/
  | ppls (slot : Nat)
  /-- Move a pin handle from slot `src` to slot `dst` (41_pin.md R99). -/
  | pmov (dst src : Nat)
  /-- Construct the Shift Register Handle (42_shift_register.md R105). -/
  | srinit
  /-- Shift one byte into the storage (42_shift_register.md R106). -/
  | srwr (byte : Nat)
  /-- Latch the storage to the outputs (42_shift_register.md R107). -/
  | srfl
  /-- Destroy the Shift Register Handle (42_shift_register.md R108). -/
  | srtd
  /-- Construct the Digit Set (43_digit_mux.md R113). -/
  | mxinit
  /-- Switch the display to the next digit (43_digit_mux.md R114). -/
  | mxsw
  /-- Tear down the Digit Set (43_digit_mux.md R115). -/
  | mxtd
  deriving DecidableEq, Repr

end Sys2Proof
end

