-- ==== Sys2Proof/WellFormed.lean ====
section
/-! DEFINITION. Which commands have an encoding: the operand checks of the assembler (30_encoding.md R79). -/

namespace Sys2Proof

/-- An assembler refuses an operand outside its field (30_encoding.md R79). An illegal geometry (R68) and an invalid
pin id 54..63 are well-formed: they are the block's to answer. -/
def Instr.wf : Instr → Bool
  | .wrf off w p _ => decide (off ≤ 1023 ∧ 1 ≤ w ∧ w ≤ 32 ∧ p ≤ 31)
  | .rdf off w p => decide (off ≤ 1023 ∧ 1 ≤ w ∧ w ≤ 32 ∧ p ≤ 31)
  | .pclm slot id => decide (slot ≤ 15 ∧ id ≤ 63)
  | .prel slot => decide (slot ≤ 15)
  | .pset slot => decide (slot ≤ 15)
  | .pclr slot => decide (slot ≤ 15)
  | .ppls slot => decide (slot ≤ 15)
  | .pmov dst src => decide (dst ≤ 15 ∧ src ≤ 15)
  | .srinit => true
  | .srwr byte => decide (byte ≤ 255)
  | .srfl => true
  | .srtd => true
  | .mxinit => true
  | .mxsw => true
  | .mxtd => true

end Sys2Proof
end

