-- ==== Sys2Proof/Decode.lean ====
section
/-! DEFINITION. The command encoding of 30_encoding.md section 2: the opcode table of R76, the decoder of R78, total on
any list of words, and the encoder of the formats of R71 to R75. -/

namespace Sys2Proof

/-- The field of `len` bits of `w` whose lowest bit is `lo` (00_scope.md R8), as a number. -/
def fieldOf (w : Word) (lo len : Nat) : Nat := (w.extractLsb' lo len).toNat

/-- One row of the opcode map (30_encoding.md R76): its opcode, its `match` (here `pattern`) and `mask`, and the command
whose fields are cut from `word0` and `word1` by the row's format (R71 to R75). -/
structure Row where
  op : Nat
  pattern : Word
  mask : Word
  build : Word → Word → Instr

/-- The opcode map of 30_encoding.md R76, rows in the table's order. -/
def opcodeTable : List Row := [
  ⟨0x1, 0x10000000, 0xF00000FF,
    fun w0 w1 => .wrf (fieldOf w0 18 10) (fieldOf w0 13 5 + 1) (fieldOf w0 8 5) w1⟩,
  ⟨0x2, 0x20000000, 0xF00000FF, fun w0 _ => .rdf (fieldOf w0 18 10) (fieldOf w0 13 5 + 1) (fieldOf w0 8 5)⟩,
  ⟨0x3, 0x30000000, 0xF003FFFF, fun w0 _ => .pclm (fieldOf w0 24 4) (fieldOf w0 18 6)⟩,
  ⟨0x4, 0x40000000, 0xF0FFFFFF, fun w0 _ => .prel (fieldOf w0 24 4)⟩,
  ⟨0x5, 0x50000000, 0xF0FFFFFF, fun w0 _ => .pset (fieldOf w0 24 4)⟩,
  ⟨0x6, 0x60000000, 0xF0FFFFFF, fun w0 _ => .pclr (fieldOf w0 24 4)⟩,
  ⟨0x7, 0x70000000, 0xF0FFFFFF, fun w0 _ => .ppls (fieldOf w0 24 4)⟩,
  ⟨0x8, 0x80000000, 0xF00FFFFF, fun w0 _ => .pmov (fieldOf w0 24 4) (fieldOf w0 20 4)⟩,
  ⟨0x9, 0x90000000, 0xFFFFFFFF, fun _ _ => .srinit⟩,
  ⟨0xA, 0xA0000000, 0xFFFFFF00, fun w0 _ => .srwr (fieldOf w0 0 8)⟩,
  ⟨0xB, 0xB0000000, 0xFFFFFFFF, fun _ _ => .srfl⟩,
  ⟨0xC, 0xC0000000, 0xFFFFFFFF, fun _ _ => .srtd⟩,
  ⟨0xD, 0xD0000000, 0xFFFFFFFF, fun _ _ => .mxinit⟩,
  ⟨0xE, 0xE0000000, 0xFFFFFFFF, fun _ _ => .mxsw⟩,
  ⟨0xF, 0xF0000000, 0xFFFFFFFF, fun _ _ => .mxtd⟩]

/-- Why a word is illegal (30_encoding.md R77). -/
inductive Illegal where
  /-- Its opcode is the reserved `0x0`. -/
  | reservedOpcode
  /-- One of its must-be-zero bits is 1. -/
  | mustBeZero
  deriving DecidableEq, Repr

/-- The opcode `OP`, bits 31:28 (30_encoding.md R70). -/
def opcodeOf (w0 : Word) : Nat := fieldOf w0 28 4

/-- The length in words, decided by the opcode alone (30_encoding.md R69). -/
def lengthOf (w0 : Word) : Nat := if opcodeOf w0 = 0x1 then 2 else 1

/-- `decode` of 30_encoding.md R78 on a command's words; `w1` matters for WRF only. -/
def decodeWords (w0 w1 : Word) : Except Illegal Instr :=
  match opcodeTable.find? (fun r => r.op == opcodeOf w0) with
  | none => .error .reservedOpcode
  | some r => if w0 &&& r.mask = r.pattern then .ok (r.build w0 w1) else .error .mustBeZero

/-- What stands at the front of a list of presented words. -/
inductive Decoded where
  /-- A command, and the words after it. -/
  | command (i : Instr) (rest : List Word)
  /-- An illegal `word0`, and the words after its command (30_encoding.md R77). -/
  | illegal (why : Illegal) (w0 : Word) (rest : List Word)
  /-- No word, or a first word whose operand word is not there yet (30_encoding.md R69). -/
  | incomplete
  deriving DecidableEq, Repr

/-- The decoder on a list of words, total, rejecting by name (30_encoding.md R69, R77, R78). The length comes first, from
the opcode alone, so that an illegal two-word command takes both of its words with it (log 8). -/
def decode : List Word → Decoded
  | [] => .incomplete
  | w0 :: rest =>
    if rest.length + 1 < lengthOf w0 then .incomplete
    else match decodeWords w0 (rest.headD 0) with
      | .ok i => .command i (rest.drop (lengthOf w0 - 1))
      | .error e => .illegal e w0 (rest.drop (lengthOf w0 - 1))

/-- `word0` of a command: its fields side by side, high bits first, by its format (30_encoding.md R71 to R75). -/
def encodeWord0 : Instr → Word
  | .wrf off w p _ => 0x1#4 ++ BitVec.ofNat 10 off ++ BitVec.ofNat 5 (w - 1) ++ BitVec.ofNat 5 p ++ 0#8
  | .rdf off w p => 0x2#4 ++ BitVec.ofNat 10 off ++ BitVec.ofNat 5 (w - 1) ++ BitVec.ofNat 5 p ++ 0#8
  | .pclm slot id => 0x3#4 ++ BitVec.ofNat 4 slot ++ BitVec.ofNat 6 id ++ 0#18
  | .prel slot => 0x4#4 ++ BitVec.ofNat 4 slot ++ 0#24
  | .pset slot => 0x5#4 ++ BitVec.ofNat 4 slot ++ 0#24
  | .pclr slot => 0x6#4 ++ BitVec.ofNat 4 slot ++ 0#24
  | .ppls slot => 0x7#4 ++ BitVec.ofNat 4 slot ++ 0#24
  | .pmov dst src => 0x8#4 ++ BitVec.ofNat 4 dst ++ BitVec.ofNat 4 src ++ 0#20
  | .srinit => 0x9#4 ++ 0#28
  | .srwr byte => 0xA#4 ++ 0#20 ++ BitVec.ofNat 8 byte
  | .srfl => 0xB#4 ++ 0#28
  | .srtd => 0xC#4 ++ 0#28
  | .mxinit => 0xD#4 ++ 0#28
  | .mxsw => 0xE#4 ++ 0#28
  | .mxtd => 0xF#4 ++ 0#28

/-- The operand words that follow `word0`: one for WRF, none for the others (30_encoding.md R69). -/
def operandWords : Instr → List Word
  | .wrf _ _ _ value => [value]
  | .rdf _ _ _ | .pclm _ _ | .prel _ | .pset _ | .pclr _ | .ppls _ | .pmov _ _ => []
  | .srinit | .srwr _ | .srfl | .srtd | .mxinit | .mxsw | .mxtd => []

/-- The words of a command (30_encoding.md R69, R79). -/
def encode (i : Instr) : List Word := encodeWord0 i :: operandWords i

/-- The words the host presents for an instruction whose bits are `w` (bit 0 the least significant bit of the first
word), `nbits` of them given and the rest 0: as many words as its opcode says. -/
def presentedWords (nbits w : Nat) : List Word :=
  let bits := w % 2 ^ nbits
  let w0 := BitVec.ofNat 32 bits
  if lengthOf w0 = 2 then [w0, BitVec.ofNat 32 (bits / 2 ^ 32)] else [w0]

/-- The command the decoder reads from an instruction whose bits are `w`, numbered as spec/opcode_table.json numbers
them; none where it refuses. -/
def decodeTableWord (nbits w : Nat) : Option Instr :=
  match decode (presentedWords nbits w) with
  | .command i _ => some i
  | .illegal _ _ _ => none
  | .incomplete => none

/-- What the assembler answers: it refuses an operand outside its field (30_encoding.md R79). -/
def assemble (i : Instr) : Option (List Word) := if i.wf then some (encode i) else none

end Sys2Proof
end

