-- ==== Sys2Proof/Config.lean ====
section
/-! DEFINITION. The parameters a run of the block is configured with (00_scope.md R7), the defaults the spec names for
them, and the free values: constants without a body that stand for `Draw()` and for the state the block's reset does
not touch. -/

namespace Sys2Proof

/-- `RESERVED_FSEL_READ` (00_scope.md R7, 10_state.md R29): what a reserved bit of a function-select register reads as. -/
inductive ReservedRead where
  /-- A read returns the value last stored. -/
  | stored
  /-- A read returns `Draw()`. -/
  | draw
  deriving DecidableEq, Repr

/-- What a circuit sees on a line that no pin drives (10_state.md R33; the second value DEDUCED, log 32). -/
inductive UndrivenLine where
  /-- `Draw()`, a fresh bit at each sample: 10_state.md R33, R35 and 93_implementation_defined.md I6. -/
  | drawn
  /-- The level of the pin's latch, as on a line that keeps its level: the case of `Draw()` in which the end states of
  42_shift_register.md R108 and 70_reset_and_hazards.md R151 always hold. -/
  | held
  deriving DecidableEq, Repr

/-- The OPEN parameters of 00_scope.md R7 and 20_memory.md R42. They are fixed for a run (10_state.md R14). Offsets and
pin ids are plain numbers, so that an ill-formed configuration can be written down and refused (`configWf`). -/
structure Config where
  /-- `WINDOW_BYTES`, the size of the register window. -/
  windowBytes : Nat
  /-- `OFF_FSEL[0..5]`, word offsets. -/
  offFsel : Vector Nat 6
  /-- `OFF_SET[0..1]`, word offsets of set A and set B. -/
  offSet : Vector Nat 2
  /-- `OFF_CLR[0..1]`, word offsets of clear A and clear B. -/
  offClr : Vector Nat 2
  /-- `SER_ID`, the pin of the serial-in line. -/
  serId : Nat
  /-- `SRCLK_ID`, the pin of the shift-clock line. -/
  srclkId : Nat
  /-- `RCLK_ID`, the pin of the latch-clock line. -/
  rclkId : Nat
  /-- `DIG_ID[0..3]`, the pins of the digit enables. -/
  digId : Vector Nat 4
  /-- `OTHER_MASTERS`: does another bus master exist (20_memory.md R52). -/
  otherMasters : Bool
  /-- `RESERVED_FSEL_READ`. -/
  reservedRead : ReservedRead
  /-- `QMAP`: the storage bit that drives segment output `j` (10_state.md R36). -/
  qmap : Vector (Fin 8) 8
  /-- `SEG_TABLE[0..15]` (44_host_side.md R125). -/
  segTable : Vector Byte 16
  /-- `POINT_BIT` (44_host_side.md R126). -/
  pointBit : Fin 8
  /-- `POINT_POS` (44_host_side.md R123). -/
  pointPos : Fin 4
  /-- The model's own: what a circuit sees on an undriven line (log 32). -/
  undrivenLine : UndrivenLine
  deriving DecidableEq, Repr

/-- `N_PINS`: the pin ids 0..53 are valid, an id of 54 or more is invalid (00_scope.md R7, 30_encoding.md R59, R64). -/
def nPins : Nat := 54

/-- `N_SLOTS` (00_scope.md R7). -/
def nSlots : Nat := 16

/-- `BLOCK_WORDS` (00_scope.md R7, 20_memory.md R39). -/
def Config.blockWords (c : Config) : Nat := c.windowBytes / 4

/-- The configuration `State.reset` starts with: the defaults of 00_scope.md R7, 20_memory.md R42 (PRESUMED, log 3) and
44_host_side.md R128 (PRESUMED, log 4), the wiring of the spec's examples, for which the spec gives no default (DESIGN
CHOICE, log 2), the identity for `QMAP` (DESIGN CHOICE, log 4), and `Draw()` on undriven lines (10_state.md R33). No
statement rests on these values. -/
def Config.default : Config where
  windowBytes := 4096
  offFsel := #v[0, 1, 2, 3, 4, 5]
  offSet := #v[7, 8]
  offClr := #v[10, 11]
  serId := 17
  srclkId := 27
  rclkId := 22
  digId := #v[5, 6, 13, 19]
  otherMasters := false
  reservedRead := .stored
  qmap := #v[0, 1, 2, 3, 4, 5, 6, 7]
  segTable := #v[0xC0, 0xF9, 0xA4, 0xB0, 0x99, 0x92, 0x82, 0xF8, 0x80, 0x90, 0x88, 0x83, 0xC6, 0xA1, 0x86, 0x8E]
  pointBit := 7
  pointPos := 2
  undrivenLine := .drawn

/-- `Draw()` (00_scope.md R11): the `n`-th drawn value of a run, under no law. A narrower draw takes its low bits
(DESIGN CHOICE, log 5). -/
opaque Config.draw : Nat → Word

/-- The function-select registers the block finds after its reset: `Draw()` (10_state.md R37, 70_reset_and_hazards.md
R149; log 6). -/
opaque Config.resetFsel : Vector Word 6

/-- The output latches the block finds after its reset: `Draw()` (10_state.md R37; log 6). -/
opaque Config.resetOut : BitVec 54

/-- The shift register's storage the block finds after its reset: `Draw()` (10_state.md R37; log 6). -/
opaque Config.resetStor : Byte

/-- The shift register's output latch the block finds after its reset: `Draw()` (10_state.md R37; log 6). -/
opaque Config.resetLat : Byte

/-- The remembered shift-clock level at reset: `Draw()` (10_state.md R37; log 6). -/
opaque Config.resetSrclkPrev : Bool

/-- The remembered latch-clock level at reset: `Draw()` (10_state.md R37; log 6). -/
opaque Config.resetRclkPrev : Bool

end Sys2Proof
end

