-- ==== Sys2Proof/Machine/State.lean ====
section
/-! DEFINITION. The state of the system of 60_exceptions.md R146: the block `S`, the GPIO peripheral `P`, the external
circuit `E`, the host's side, and the model's own bookkeeping; and the state after reset (10_state.md R37). -/

namespace Sys2Proof.Machine

open Sys2Proof

/-- One entry of the pin-handle table (10_state.md R15). -/
inductive Slot where
  /-- `Empty`: no handle. -/
  | empty
  /-- `Pin(id)`, `id` a 6-bit natural; effective when `id ≤ 53`, inert otherwise (10_state.md R16). -/
  | pin (id : Fin 64)
  deriving DecidableEq, Repr

/-- `S.rsp_status` (10_state.md R23); its 2-bit encoding is `RspStatus.code`. -/
inductive RspStatus where
  | none
  | ok
  | fault
  | refused
  deriving DecidableEq, Repr

/-- The block's own state `S` (10_state.md R14). -/
structure Block where
  /-- `S.slot[0..15]` (R15). -/
  slots : Vector Slot 16
  /-- `S.sr_live` (R19). -/
  srLive : Bool
  /-- `S.mx_live` (R19). -/
  mxLive : Bool
  /-- `S.cursor` (R20). -/
  cursor : Fin 4
  /-- `S.fault`, 0x00 for no fault (R21). -/
  fault : BitVec 8
  /-- `S.busy` (R22). -/
  busy : Bool
  /-- `S.rsp_status` (R23). -/
  rspStatus : RspStatus
  /-- `S.rsp_data` (R23). -/
  rspData : Word
  deriving DecidableEq, Repr

/-- The GPIO peripheral's state `P` (10_state.md R28). -/
structure Gpio where
  /-- `P.fsel[0..5]` (R29). -/
  fsel : Vector Word 6
  /-- `P.out[0..53]`, bit `id` the level of pin `id` (R30). -/
  out : BitVec 54
  deriving DecidableEq, Repr

/-- The external shift register's state `E` (10_state.md R34). -/
structure Ext where
  /-- `E.stor`, the internal storage. -/
  stor : Byte
  /-- `E.lat`, the output latch. -/
  lat : Byte
  /-- `E.srclk_prev`, the last level seen on the shift clock. -/
  srclkPrev : Bool
  /-- `E.rclk_prev`, the last level seen on the latch clock. -/
  rclkPrev : Bool
  deriving DecidableEq, Repr

/-- One event of a trace (00_scope.md R12): `R(off, v)` or `W(off, v)`. -/
inductive BusEvent where
  | read (off : Nat) (v : Word)
  | write (off : Nat) (v : Word)
  deriving DecidableEq, Repr

/-- One access of the other bus master (20_memory.md R52): any word, any value. -/
inductive OtherAccess where
  | read (off : Nat)
  | write (off : Nat) (v : Word)
  deriving DecidableEq, Repr

/-- The Display Value (44_host_side.md R119). -/
structure DisplayValue where
  packed : BitVec 16
  blink : Bool
  deriving DecidableEq, Repr

/-- Where the host program stands (44_host_side.md R130 to R134, 70_reset_and_hazards.md R150 to R152; log 9). -/
inductive HostPhase where
  /-- The host runs no program of its own: commands come only from `port` and `inputs`, and it ignores a fatal error (DESIGN
  CHOICE, log 40). -/
  | scripted
  /-- Boot: the window is to be mapped and SRINIT issued (70_reset_and_hazards.md R150 steps 1 and 2). -/
  | boot
  /-- Boot: MXINIT is next (R150 step 3). -/
  | bootMux
  /-- The refresh loop runs (R150 step 4, 44_host_side.md R130). -/
  | refresh
  /-- Shutdown: MXTD has been issued, SRTD is next (70_reset_and_hazards.md R151). -/
  | shutdown
  /-- A fatal error: MXTD if MXINIT completed is next (R152). -/
  | fatalMux
  /-- A fatal error: SRTD if SRINIT completed is next (R152). -/
  | fatalShift
  /-- The last teardown command has been issued; the process exits with `code` next. -/
  | leaving (code : Nat)
  /-- The process has exited with `code` (44_host_side.md R134). -/
  | exited (code : Nat)
  deriving DecidableEq, Repr

/-- What happens to the host from outside, one entry for each of its turns (log 10). -/
inductive HostInput where
  /-- The refresh thread runs. -/
  | turn
  /-- The main loop samples the time (44_host_side.md R120, R121, R132): any numbers (log 38), in any phase (log 39). -/
  | sample (hours minutes seconds : Nat)
  /-- A termination signal sets the stop flag (44_host_side.md R133, 60_exceptions.md R144), in any phase (log 39). -/
  | stopSignal
  /-- A fatal error of the host (70_reset_and_hazards.md R152). -/
  | fatalError
  /-- The reset input of the block is asserted (70_reset_and_hazards.md R148). -/
  | reset
  /-- Words are presented to the block from outside the host program, by a host that runs none (44_host_side.md R131; log
  25). -/
  | present (words : List Word)
  deriving DecidableEq, Repr

/-- The host's side of the interface. -/
structure HostSide where
  /-- The input `mapped` (60_exceptions.md R142). -/
  mapped : Bool
  /-- Command words presented and not accepted yet, oldest first (60_exceptions.md R135). -/
  port : List Word
  /-- Answers ready on the pattern port, oldest first (43_digit_mux.md R112; log 12). -/
  answers : List Byte
  /-- The Display Value (44_host_side.md R119). -/
  display : DisplayValue
  /-- The stop flag (44_host_side.md R133). -/
  stop : Bool
  /-- Where the host program stands. -/
  phase : HostPhase
  /-- What happens to the host from outside, oldest first. -/
  inputs : List HostInput
  deriving DecidableEq, Repr

/-- The whole system. -/
structure State where
  /-- The configuration of the run, written by no step (10_state.md R14; log 1). -/
  cfg : Config
  /-- The block `S`. -/
  blk : Block
  /-- The peripheral `P`. -/
  gpio : Gpio
  /-- The external circuit `E`. -/
  ext : Ext
  /-- The host's side. -/
  host : HostSide
  /-- The model's own: what `Other` does at each of its opportunities (20_memory.md R52; log 13). -/
  other : List (List OtherAccess)
  /-- The model's own: how many `Draw()` values have been read (log 5). -/
  draws : Nat
  /-- The model's own: the event trace of the last command, in issue order (00_scope.md R12; log 19). -/
  trace : List BusEvent
  deriving DecidableEq, Repr

/-- Why a step stops with a fault: for no reason. Every fault of the block is a response, after which it takes the next
command (60_exceptions.md R139), and no bus access faults (60_exceptions.md R137); so this type has no constructor, and
it raises nothing, safely (log 27). -/
inductive Fault where
  deriving DecidableEq, Repr

/-- Why a step is refused. -/
inductive Refusal where
  /-- Raised by `exec` for an instruction that has no meaning yet. Safe: nothing is claimed of it. -/
  | notModelled (mnemonic : String)
  /-- Raised by `step` when the configuration is ill-formed (00_scope.md R7, 20_memory.md R42, 44_host_side.md R127): "a
  configuration that breaks their range or distinctness constraint is ill-formed and the model refuses it rather than
  running it". Safe: the spec asks for it. -/
  | illFormedConfiguration
  deriving DecidableEq, Repr

/-- The block right after its reset (10_state.md R37, 70_reset_and_hazards.md R148). -/
def Block.reset : Block where
  slots := Vector.replicate 16 .empty
  srLive := false
  mxLive := false
  cursor := 3
  fault := 0x00
  busy := false
  rspStatus := .none
  rspData := 0

/-- The peripheral as the block finds it after its reset: `Draw()` values (10_state.md R37, 70_reset_and_hazards.md
R149; DESIGN CHOICE log 6). -/
def Gpio.atReset : Gpio where
  fsel := Config.resetFsel
  out := Config.resetOut

/-- The external circuit as the block finds it after its reset: `Draw()` values (10_state.md R37; DESIGN CHOICE log 6). -/
def Ext.atReset : Ext where
  stor := Config.resetStor
  lat := Config.resetLat
  srclkPrev := Config.resetSrclkPrev
  rclkPrev := Config.resetRclkPrev

/-- The host at reset: the window is mapped (DESIGN CHOICE log 7), nothing is presented (log 11), the Display Value and
the stop flag are clear (DESIGN CHOICE log 30). -/
def HostSide.atReset : HostSide where
  mapped := true
  port := []
  answers := []
  display := { packed := 0, blink := false }
  stop := false
  phase := .scripted
  inputs := []

/-- The system right after the block's reset (10_state.md R37). -/
def State.reset : State where
  cfg := Config.default
  blk := Block.reset
  gpio := Gpio.atReset
  ext := Ext.atReset
  host := HostSide.atReset
  other := []
  draws := 0
  trace := []

end Sys2Proof.Machine
end

