-- ==== Sys2Proof/Machine/Operands.lean ====
section
/-! DEFINITION. Operand arithmetic: the masked field of 40_register_writer.md R81 and the resolution of a pin id to its
function-select field and its set and clear bit (30_encoding.md R59 to R68). -/

namespace Sys2Proof.Machine

open Sys2Proof

/-! ### The field of a masked write -/

/-- A width and position are legal when the field lies inside the register (30_encoding.md R68). -/
abbrev legalGeometry (w p : Nat) : Prop := 1 ≤ w ∧ w ≤ 32 ∧ p * w + w ≤ 32

/-- `shift(w, p)` (40_register_writer.md R81). -/
def shiftOf (w p : Nat) : Nat := p * w

/-- `mask(w, p)`, computed on naturals and taken as a `Bits32` (30_encoding.md R67, 40_register_writer.md R81). -/
def maskOf (w p : Nat) : Word := BitVec.ofNat 32 ((2 ^ w - 1) * 2 ^ (p * w))

/-- `merge(r, value, w, p)` (40_register_writer.md R81). -/
def merge (r value : Word) (w p : Nat) : Word :=
  ((value <<< shiftOf w p) &&& maskOf w p) ||| (r &&& ~~~ maskOf w p)

/-- `extract(r, w, p)`, zero-extended (40_register_writer.md R81, R83). -/
def extract (r : Word) (w p : Nat) : Word := (r &&& maskOf w p) >>> shiftOf w p

/-! ### Function-select resolution -/

/-- `FSEL_FIELD_W` (00_scope.md R7). -/
def fselFieldW : Nat := 3

/-- `FN_INPUT` (30_encoding.md R63). -/
def fnInput : BitVec 3 := 0b000

/-- `FN_OUTPUT` (30_encoding.md R63). -/
def fnOutput : BitVec 3 := 0b001

/-- The function-select register of a valid id and its position there, in units of 3 bits; none, "no address", for an
invalid one (30_encoding.md R59, R60, R61). -/
def resolveFsel (id : Nat) : Option (Fin 6 × Nat) :=
  if id ≤ 53 then some (Fin.ofNat 6 (id / 10), id % 10) else none

/-- The function field of a valid id, `P.fsel[id / 10][3*(id % 10)+2 : 3*(id % 10)]` (30_encoding.md R62). -/
def Gpio.function (g : Gpio) (id : Nat) : BitVec 3 :=
  g.fsel[Fin.ofNat 6 (id / 10)].extractLsb' (fselFieldW * (id % 10)) fselFieldW

/-- The bits of function-select register `n` that are function fields; the others are reserved (10_state.md R29). -/
def functionMask (n : Fin 6) : Word := if n = 5 then 0x00000FFF else 0x3FFFFFFF

/-! ### Set and clear resolution -/

/-- The set and clear register of a valid id (0 is A, 1 is B) and the word written to it, one bit set; none for an
invalid id (30_encoding.md R64, R65, R66). -/
def resolveLevel (id : Nat) : Option (Fin 2 × Word) :=
  if id ≤ 53 then some (Fin.ofNat 2 (id / 32), BitVec.ofNat 32 (2 ^ (id % 32))) else none

/-- The pins named by a word `v` written to set or clear register `k`: pin `32k + j` for every set bit `j` of `v` with
`32k + j ≤ 53` (10_state.md R31). -/
def levelPins (k : Fin 2) (v : Word) : BitVec 54 := v.setWidth 54 <<< (32 * k.val)

/-! ### Slots -/

/-- `Pin(id)` for an id 0..63. An id outside the field, which no decoded command has, wraps (log 26). -/
def pinOf (id : Nat) : Slot := .pin (Fin.ofNat 64 id)

/-- A slot is effective when it holds a valid id (10_state.md R16). -/
def Slot.effective : Slot → Bool
  | .empty => false
  | .pin id => decide (id.val ≤ 53)

/-- The slots of the Shift Register Driver and the Digit Multiplexer (10_state.md R18). -/
def slotSer : Nat := 0
/-- `SLOT_SRCLK` (10_state.md R18). -/
def slotSrclk : Nat := 1
/-- `SLOT_RCLK` (10_state.md R18). -/
def slotRclk : Nat := 2
/-- `SLOT_DIG(k)` (10_state.md R18). -/
def slotDig (k : Fin 4) : Nat := 3 + k.val

/-- `MUX_INIT_CURSOR` (00_scope.md R7). -/
def muxInitCursor : Fin 4 := 3

/-- `BLANK_PATTERN` (00_scope.md R7). -/
def blankPattern : Byte := 0xFF

/-- The digit positions in increasing order (`for k in 0..3`). -/
def digitsUp : List (Fin 4) := [0, 1, 2, 3]

/-- The digit positions in decreasing order (`for k in 3 downto 0`). -/
def digitsDown : List (Fin 4) := [3, 2, 1, 0]

end Sys2Proof.Machine
end

