-- ==== Sys2Proof/Machine/Peripheral.lean ====
section
/-! DEFINITION. The register window as the GPIO peripheral answers it (10_state.md section 2, 20_memory.md sections 1 to
3), and the constraints a configuration must meet. -/

namespace Sys2Proof.Machine

open Sys2Proof

/-- What a word of the window is (10_state.md R28, 20_memory.md R42). -/
inductive Reg where
  /-- Function-select register `n`. -/
  | fsel (n : Fin 6)
  /-- Set register `k` (0 is A, 1 is B). -/
  | set (k : Fin 2)
  /-- Clear register `k`. -/
  | clr (k : Fin 2)
  /-- None of the ten registers: opaque to the model (10_state.md R32). -/
  | untracked
  deriving DecidableEq, Repr

/-- The address map: word offset and register (20_memory.md R42). -/
def regMap (c : Config) : List (Nat × Reg) := [
  (c.offFsel[0], .fsel 0), (c.offFsel[1], .fsel 1), (c.offFsel[2], .fsel 2),
  (c.offFsel[3], .fsel 3), (c.offFsel[4], .fsel 4), (c.offFsel[5], .fsel 5),
  (c.offSet[0], .set 0), (c.offSet[1], .set 1), (c.offClr[0], .clr 0), (c.offClr[1], .clr 1)]

/-- The register at word `off`. -/
def regAt (c : Config) (off : Nat) : Reg :=
  match (regMap c).find? (fun e => e.1 == off) with
  | some e => e.2
  | none => .untracked

/-- The seven wired pins: serial-in, shift clock, latch clock and the four digit enables (00_scope.md R7). -/
def wiredIds (c : Config) : List Nat := [c.serId, c.srclkId, c.rclkId] ++ c.digId.toList

/-- A well-formed configuration: seven wired pins in 0..53, all distinct (00_scope.md R7); ten distinct register
offsets, each below `BLOCK_WORDS` (20_memory.md R42); `QMAP` a bijection (10_state.md R36); the point bit 1 in every
entry of `SEG_TABLE` (44_host_side.md R127). -/
def configWf (c : Config) : Bool :=
  (wiredIds c).all (fun id => decide (id ≤ 53)) && decide (wiredIds c).Nodup &&
  decide ((regMap c).map Prod.fst).Nodup && (regMap c).all (fun e => decide (e.1 < c.blockWords)) &&
  decide c.qmap.toList.Nodup && c.segTable.toList.all (fun b => b.getLsbD c.pointBit.val)

/-- The effect of a bus write of `v` to word `off` on the peripheral: a function-select register stores the word
(10_state.md R29), a set register raises and a clear register lowers the named lines (R31), and a write to any other word
changes nothing the model tracks (R32). -/
def Gpio.write (c : Config) (off : Nat) (v : Word) (g : Gpio) : Gpio :=
  match regAt c off with
  | .fsel n => { g with fsel := g.fsel.set n v }
  | .set k => { g with out := g.out ||| levelPins k v }
  | .clr k => { g with out := g.out &&& ~~~ levelPins k v }
  | .untracked => g

/-- The value a bus read of word `off` returns, when the `Draw()` it may use is `drawn`: a function-select register
returns what it stores, but for reserved bits under `draw` (10_state.md R29); a set, clear or opaque word returns
`Draw()` (R31, R32). -/
def Gpio.read (c : Config) (off : Nat) (drawn : Word) (g : Gpio) : Word :=
  match regAt c off with
  | .fsel n =>
    match c.reservedRead with
    | .stored => g.fsel[n]
    | .draw => (g.fsel[n] &&& functionMask n) ||| (drawn &&& ~~~ functionMask n)
  | .set _ => drawn
  | .clr _ => drawn
  | .untracked => drawn

/-- Does a bus read of word `off` use a `Draw()`. -/
def readDraws (c : Config) (off : Nat) : Bool :=
  match regAt c off with
  | .fsel _ => decide (c.reservedRead = .draw)
  | .set _ => true
  | .clr _ => true
  | .untracked => true

/-- The level of line `id` seen from outside (10_state.md R33): the latched level when the pin's function is output, and
none, `Z`, otherwise. -/
def Gpio.line (g : Gpio) (id : Nat) : Option Bool :=
  if g.function id = fnOutput then some (g.out.getLsbD id) else none

/-- The byte at byte address `a` of the window that the peripheral stores, little-endian (20_memory.md R44); none where
the window stores nothing (10_state.md R28, R32). -/
def Gpio.storedByte (c : Config) (g : Gpio) (a : Nat) : Option Byte :=
  if a / 4 < c.blockWords then
    match regAt c (a / 4) with
    | .fsel n => some (g.fsel[n].extractLsb' (8 * (a % 4)) 8)
    | .set _ => none
    | .clr _ => none
    | .untracked => none
  else none

end Sys2Proof.Machine
end

