-- ==== Sys2Proof/Machine/Circuit.lean ====
section
/-! DEFINITION. The external circuit (10_state.md section 3): the shift register's reaction to one sample of its inputs,
and what the display shows. -/

namespace Sys2Proof.Machine

open Sys2Proof

/-- One shift of the storage: the bit enters at bit 7 and the others move toward bit 0 (10_state.md R35). -/
def shiftIn (stor : Byte) (d : Bool) : Byte := (stor >>> 1) ||| ((BitVec.ofBool d).setWidth 8 <<< 7)

/-- The device's reaction to the sampled levels `sck`, `rck` and `d`: it shifts on a rising shift clock, latches the
storage as it was on a rising latch clock, and remembers both levels (10_state.md R35). -/
def Ext.clock (sck rck d : Bool) (e : Ext) : Ext where
  stor := if !e.srclkPrev && sck then shiftIn e.stor d else e.stor
  lat := if !e.rclkPrev && rck then e.stor else e.lat
  srclkPrev := sck
  rclkPrev := rck

/-- Position `k` is enabled when its line is 1; an undriven line is not 1 (10_state.md R36; DEDUCED log 16). -/
def enabled (c : Config) (g : Gpio) (k : Fin 4) : Bool := decide (g.line c.digId[k] = some true)

/-- The segment output `j`, `Q[j]` with `Q = QMAP(E.lat)` (10_state.md R36). -/
def segmentOut (c : Config) (e : Ext) (j : Fin 8) : Bool := e.lat.getLsbD c.qmap[j].val

/-- Segment `j` of position `k` is lit when the position is enabled and `Q[j] = 0` (10_state.md R36). -/
def lit (c : Config) (g : Gpio) (e : Ext) (k : Fin 4) (j : Fin 8) : Bool := enabled c g k && !segmentOut c e j

end Sys2Proof.Machine
end

