-- ==== Sys2Proof/Machine/Flags.lean ====
section
/-! DEFINITION. The block has no flags (10_state.md R26): the only status it reports is the response. This file holds the
status encoding (10_state.md R23), the fault codes (60_exceptions.md R137) and the order in which faults are reported
(60_exceptions.md R138). -/

namespace Sys2Proof.Machine

open Sys2Proof

/-- The 2-bit encoding of `S.rsp_status` (10_state.md R23). -/
def RspStatus.code : RspStatus → BitVec 2
  | .none => 0
  | .ok => 1
  | .fault => 2
  | .refused => 3

/-- The faults of the block (60_exceptions.md R137). -/
inductive FaultCode where
  | illegalCmd
  | unmapped
  | slotRange
  | badGeometry
  | notInit
  | alreadyInit
  | slotBusy
  | doubleClaim
  deriving DecidableEq, Repr

/-- The code written to `S.fault` (60_exceptions.md R137). -/
def FaultCode.code : FaultCode → BitVec 8
  | .illegalCmd => 0x01
  | .unmapped => 0x02
  | .slotRange => 0x03
  | .badGeometry => 0x04
  | .notInit => 0x05
  | .alreadyInit => 0x06
  | .slotBusy => 0x07
  | .doubleClaim => 0x08

/-- The first fault that applies, of a list of checks in the order of 60_exceptions.md R138. -/
def firstFault : List (Bool × FaultCode) → Option FaultCode
  | [] => none
  | (applies, c) :: rest => if applies then some c else firstFault rest

/-- The commands a faulted block still executes: those that return pins to the safe state (60_exceptions.md R136,
R140). -/
def admittedWhileFaulted : Instr → Bool
  | .prel _ | .srtd | .mxtd => true
  | .wrf _ _ _ _ | .rdf _ _ _ | .pclm _ _ | .pset _ | .pclr _ | .ppls _ | .pmov _ _ => false
  | .srinit | .srwr _ | .srfl | .mxinit | .mxsw => false

end Sys2Proof.Machine
end

