-- ==== Sys2Proof/Machine/Ops.lean ====
section
/-! DEFINITION. The shared operations: updates of one component of the state, `Draw()`, the bus primitives with the other
master and the external circuit around them, the slot-level pin procedures, and the command frame with its faults. -/

namespace Sys2Proof.Machine

open Sys2Proof

/-! ### One component at a time -/

/-- Update the block. -/
def State.onBlk (s : State) (f : Block → Block) : State := { s with blk := f s.blk }

/-- Update the host's side. -/
def State.onHost (s : State) (f : HostSide → HostSide) : State := { s with host := f s.host }

/-- The words of the port are now `words`. -/
def State.withPort (s : State) (words : List Word) : State := s.onHost (fun h => { h with port := words })

/-- `S.slot[i]`, `Empty` for an index outside the table (no command reads one: 60_exceptions.md R137 `SLOT_RANGE`). -/
def Block.slot (b : Block) (i : Nat) : Slot := b.slots[i]?.getD .empty

/-- `S.slot[i] <- v`. -/
def Block.setSlot (i : Nat) (v : Slot) (b : Block) : Block := { b with slots := b.slots.setIfInBounds i v }

/-- `S.sr_live <- v`. -/
def Block.setSrLive (v : Bool) (b : Block) : Block := { b with srLive := v }

/-- `S.mx_live <- v`. -/
def Block.setMxLive (v : Bool) (b : Block) : Block := { b with mxLive := v }

/-- `S.cursor <- v`. -/
def Block.setCursor (v : Fin 4) (b : Block) : Block := { b with cursor := v }

/-- `S.rsp_data <- v`. -/
def Block.setRspData (v : Word) (b : Block) : Block := { b with rspData := v }

/-- `S.slot[i] <- v`, on the state. -/
def State.setSlot (s : State) (i : Nat) (v : Slot) : State := s.onBlk (Block.setSlot i v)

/-- `S.rsp_data <- v`, on the state. -/
def State.setRspData (s : State) (v : Word) : State := s.onBlk (Block.setRspData v)

/-- Does a slot hold `Pin(id)` with `id` valid: is `id` held by an effective slot (10_state.md R16, R17). -/
def Block.holds (b : Block) (id : Nat) : Bool := decide (id ≤ 53) && decide (pinOf id ∈ b.slots.toList)

/-! ### Draw() -/

/-- The next `Draw()` (00_scope.md R11; log 5). -/
def State.drawn (s : State) : Word := Config.draw s.draws

/-- The next `Draw()` has been read. -/
def State.tick (s : State) : State := { s with draws := s.draws + 1 }

/-! ### The external circuit's sampling -/

/-- What a circuit sees on line `id`: its level, or `Draw()` at `Z` (10_state.md R33); with `undrivenLine = held` the level of
the pin's latch at `Z` (log 32). -/
def State.sampleBit (s : State) (id : Nat) : Bool :=
  (s.gpio.line id).getD (match s.cfg.undrivenLine with
    | .drawn => s.drawn.getLsbD 0
    | .held => s.gpio.out.getLsbD id)

/-- The state after that sample: a `Z` line seen as `Draw()` used a fresh one. -/
def State.sampled (s : State) (id : Nat) : State :=
  if (s.gpio.line id).isSome || decide (s.cfg.undrivenLine = .held) then s else s.tick

/-- The external device samples shift clock, latch clock and serial-in, in this order, and acts (10_state.md R35; the
order of the draws DEDUCED, log 15). -/
def sampleExt (s : State) : State :=
  let sck := s.sampleBit s.cfg.srclkId
  let s1 := s.sampled s.cfg.srclkId
  let rck := s1.sampleBit s.cfg.rclkId
  let s2 := s1.sampled s.cfg.rclkId
  let d := s2.sampleBit s.cfg.serId
  let s3 := s2.sampled s.cfg.serId
  { s3 with ext := s3.ext.clock sck rck d }

/-- The effect of one bus write: the peripheral's, then the external circuit's sampling (20_memory.md R40). -/
def writeEffect (off : Nat) (v : Word) (s : State) : State :=
  sampleExt { s with gpio := s.gpio.write s.cfg off v }

/-- The device's storage and output latch are any values: the treatment of 93_implementation_defined.md I26 of the two
after SRINIT (42_shift_register.md R105; log 35). The remembered clock levels stay. -/
def leaveUnspecified (s : State) : State :=
  { s with
    ext := { s.ext with stor := s.drawn.setWidth 8, lat := s.tick.drawn.setWidth 8 }
    draws := s.draws + 2 }

/-! ### The other bus master -/

/-- One access of `Other`, under the same peripheral rules (20_memory.md R52): a read has no side effect on `P` or `E`
(R47), a write acts as a write of the block does, and an access outside the window does not exist (R41; log 14). -/
def otherAccess (s : State) : OtherAccess → State
  | .read _ => s
  | .write off v => if off < s.cfg.blockWords then writeEffect off v s else s

/-- An opportunity of `Other` to act: when it exists, it performs the accesses its schedule holds for this opportunity
(20_memory.md R52; log 13). When `OTHER_MASTERS = false`, it has no step. -/
def otherActs (s : State) : State :=
  if s.cfg.otherMasters then
    match s.other with
    | [] => s
    | acts :: rest => acts.foldl otherAccess { s with other := rest }
  else s

/-! ### The bus primitives -/

/-- Append an event to the command's trace (20_memory.md R40). -/
def State.record (s : State) (e : BusEvent) : State := { s with trace := s.trace ++ [e] }

/-- The value the bus read of word `off` returns. -/
def State.readValue (s : State) (off : Nat) : Word := s.gpio.read s.cfg off s.drawn

/-- `MemRead` on a word inside the window (20_memory.md R40): the value and the state after it. `Other` may act before
it (R52). -/
def memRead (off : Nat) (s : State) : Word × State :=
  let s1 := otherActs s
  let v := s1.readValue off
  let s2 := if readDraws s1.cfg off then s1.tick else s1
  (v, s2.record (.read off v))

/-- `MemWrite` on a word inside the window (20_memory.md R40). `Other` may act before it (R52). -/
def memWrite (off : Nat) (v : Word) (s : State) : State :=
  let s1 := otherActs s
  (writeEffect off v s1).record (.write off v)

/-- `RegWrite(off, v)`; a word index of `BLOCK_WORDS` or more makes no access and no event (00_scope.md R11,
20_memory.md R41). -/
def regWrite (off : Nat) (v : Word) (s : State) : State :=
  if off < s.cfg.blockWords then memWrite off v s else s

/-- The masked write: a read of the live register and then a write of the merged word, two accesses
(40_register_writer.md R82, 20_memory.md R51); nothing at an offset outside the window (20_memory.md R41). -/
def maskedWrite (off w p : Nat) (value : Word) (s : State) : State :=
  if off < s.cfg.blockWords then
    let r := memRead off s
    memWrite off (merge r.1 value w p) r.2
  else s

/-! ### Pin-level bus procedures (41_pin.md section 1) -/

/-- Program the function field of pin `id`; nothing for an invalid id (41_pin.md R88, R89). -/
def programFunction (id : Nat) (fn : BitVec 3) (s : State) : State :=
  match resolveFsel id with
  | some (n, p) => maskedWrite s.cfg.offFsel[n] fselFieldW p (fn.setWidth 32) s
  | none => s

/-- `ClaimIO(id)` (41_pin.md R88). -/
def claimIO (id : Nat) (s : State) : State := programFunction id fnOutput s

/-- `ReleaseIO(id)` (41_pin.md R89). -/
def releaseIO (id : Nat) (s : State) : State := programFunction id fnInput s

/-- `SetIO(id)`: one write, no read; nothing for an invalid id (41_pin.md R90). -/
def setIO (id : Nat) (s : State) : State :=
  match resolveLevel id with
  | some (k, bit) => regWrite s.cfg.offSet[k] bit s
  | none => s

/-- `ClearIO(id)` (41_pin.md R91). -/
def clearIO (id : Nat) (s : State) : State :=
  match resolveLevel id with
  | some (k, bit) => regWrite s.cfg.offClr[k] bit s
  | none => s

/-- `PulseIO(id)`: set, then clear, nothing between (41_pin.md R92). -/
def pulseIO (id : Nat) (s : State) : State := clearIO id (setIO id s)

/-- A slot-level form: nothing on an `Empty` slot, otherwise the procedure on the id it holds (41_pin.md R93). -/
def onSlot (i : Nat) (io : Nat → State → State) (s : State) : State :=
  match s.blk.slot i with
  | .empty => s
  | .pin id => io id.val s

/-- `SlotSet(s)` (41_pin.md R93). -/
def slotSet (i : Nat) (s : State) : State := onSlot i setIO s

/-- `SlotClear(s)` (41_pin.md R93). -/
def slotClear (i : Nat) (s : State) : State := onSlot i clearIO s

/-- `SlotPulse(s)` (41_pin.md R93). -/
def slotPulse (i : Nat) (s : State) : State := onSlot i pulseIO s

/-- `SlotClaim(s)` (41_pin.md R93). -/
def slotClaim (i : Nat) (s : State) : State := onSlot i claimIO s

/-- `SlotRelease(s)` (41_pin.md R93). -/
def slotRelease (i : Nat) (s : State) : State := onSlot i releaseIO s

/-- Release the pin of a slot and empty it, as the teardowns do (42_shift_register.md R108, 43_digit_mux.md R115). -/
def releaseSlot (i : Nat) (s : State) : State := (slotRelease i s).setSlot i .empty

/-! ### The command frame (60_exceptions.md section 1) -/

/-- Acceptance: `S.busy <- 1` (60_exceptions.md R135, R136); the trace of the command starts empty (00_scope.md R12). -/
def State.accept (s : State) : State :=
  { s with blk := { s.blk with busy := true }, trace := [] }

/-- The response: the status, and `S.busy <- 0` (60_exceptions.md R135, R136). -/
def State.respond (s : State) (status : RspStatus) : State :=
  s.onBlk (fun b => { b with rspStatus := status, busy := false })

/-- `raise Fault(code)` for the command word `word0`: the first fault is kept, the response is FAULT with the command
word, and nothing else changes (60_exceptions.md R139). -/
def State.raise (s : State) (c : FaultCode) (word0 : Word) : State :=
  ((s.onBlk (fun b => { b with fault := if b.fault = 0 then c.code else b.fault })).setRspData word0).respond .fault

/-- A legal command turned away by a faulted block (60_exceptions.md R136, R140). -/
def State.refuse (s : State) (word0 : Word) : State := (s.setRspData word0).respond .refused

/-- The frame of a legal command (60_exceptions.md R136): admission, `mapped`, the command's own checks in order, then
its body, then the response. -/
def frame (i : Instr) (s : State) (checks : List (Bool × FaultCode)) (body : State → State) : State :=
  let s1 := s.accept
  if s1.blk.fault ≠ 0 ∧ admittedWhileFaulted i = false then s1.refuse (encodeWord0 i)
  else
    match firstFault ((!s1.host.mapped, .unmapped) :: checks) with
    | some c => s1.raise c (encodeWord0 i)
    | none => (body s1).respond .ok

/-- The frame of an illegal word: it faults before admission and before `mapped` is looked at (60_exceptions.md R136,
30_encoding.md R77). -/
def illegalCommand (word0 : Word) (s : State) : State := s.accept.raise .illegalCmd word0

/-- `SLOT_RANGE` applies to a slot operand outside the table (60_exceptions.md R137). -/
def outOfRange (i : Nat) : Bool := decide (nSlots ≤ i)

/-- Reset of the block: every item of `S` takes its reset value; `P` and `E` keep theirs (70_reset_and_hazards.md R148,
R149). -/
def resetBlock (s : State) : State := { s with blk := Block.reset, trace := [] }

end Sys2Proof.Machine
end

