-- ==== Sys2Proof/Machine/HostSide.lean ====
section
/-! DEFINITION. The host's side (44_host_side.md, 70_reset_and_hazards.md R150 to R152): the display value, the segment
lookup, the pattern port, and the host program's turns. -/

namespace Sys2Proof.Machine

open Sys2Proof

/-! ### Display value and segment lookup -/

/-- `bcd(x) = ((x / 10) << 4) | (x % 10)`, as a byte (44_host_side.md R120). A number of 160 or more, no valid time, is cut to
the low 8 bits of that formula (DESIGN CHOICE, log 38). -/
def bcd (x : Nat) : Byte := BitVec.ofNat 8 (((x / 10) <<< 4) ||| (x % 10))

/-- `packed`: hours in the high byte, minutes in the low byte (44_host_side.md R120). -/
def packTime (hours minutes : Nat) : BitVec 16 := bcd hours ++ bcd minutes

/-- `nibble(k) = packed[15 - 4k : 12 - 4k]` (44_host_side.md R122). -/
def nibble (packed : BitVec 16) (k : Fin 4) : BitVec 4 := packed.extractLsb' (12 - 4 * k.val) 4

/-- `SEG(v)`: the table's entry in 0..15, all segments off otherwise (44_host_side.md R125). -/
def seg (c : Config) (v : Int) : Byte :=
  if 0 ≤ v ∧ v ≤ 15 then c.segTable[v.toNat]?.getD blankPattern else blankPattern

/-- `SEGP(v, pt)`: the point bit cleared as well when `pt` (44_host_side.md R126). -/
def segp (c : Config) (v : Int) (pt : Bool) : Byte :=
  seg c v &&& ~~~ ((BitVec.ofBool pt).setWidth 8 <<< c.pointBit.val)

/-- The answer of the refresh loop for digit `next`, from one snapshot of the Display Value (44_host_side.md R123, R124,
R130). -/
def refreshAnswer (c : Config) (d : DisplayValue) (next : Fin 4) : Byte :=
  segp c (nibble d.packed next).toNat (d.blink && decide (next = c.pointPos))

/-! ### The pattern port -/

/-- `HostPattern(next)` (43_digit_mux.md R112): the answer the host has ready, else the refresh loop's when that loop
runs (44_host_side.md R130), else any byte, `Draw()` (93_implementation_defined.md I14; log 12). -/
def hostPattern (next : Fin 4) (s : State) : Byte :=
  match s.host.answers with
  | b :: _ => b
  | [] => if s.host.phase = .refresh then refreshAnswer s.cfg s.host.display next else s.drawn.setWidth 8

/-- The state after the host has answered. -/
def patternAnswered (s : State) : State :=
  match s.host.answers with
  | _ :: rest => s.onHost (fun h => { h with answers := rest })
  | [] => if s.host.phase = .refresh then s else s.tick

/-! ### The host program -/

/-- The host presents a command: its words go to the end of the port (60_exceptions.md R135). -/
def HostSide.present (words : List Word) (h : HostSide) : HostSide := { h with port := h.port ++ words }

/-- The host presents `i` and goes on in phase `ph`. -/
def HostSide.issue (i : Instr) (ph : HostPhase) (h : HostSide) : HostSide := { h.present (encode i) with phase := ph }

/-- One turn of the host program (log 9), which does not look at the block's responses: after a FAULT or a REFUSED it goes
on with its next command unless a fatal error is among the inputs (DESIGN CHOICE, log 36). It goes through boot
(70_reset_and_hazards.md R150), refresh loop (44_host_side.md R130, R133), shutdown (70_reset_and_hazards.md R151), fatal
path (R152) and exit (44_host_side.md R134). `b` is the block as the host knows it: which of its components exist. -/
def HostSide.turn (b : Block) (h : HostSide) : HostSide :=
  match h.phase with
  | .scripted => h
  | .boot => if h.mapped then h.issue .srinit .bootMux else { h with phase := .exited 1 }
  | .bootMux => h.issue .mxinit .refresh
  | .refresh => if h.stop then h.issue .mxtd .shutdown else h.issue .mxsw .refresh
  | .shutdown => h.issue .srtd (.leaving 0)
  | .fatalMux => if b.mxLive then h.issue .mxtd .fatalShift else { h with phase := .fatalShift }
  | .fatalShift => if b.srLive then h.issue .srtd (.leaving 1) else { h with phase := .leaving 1 }
  | .leaving code => { h with phase := .exited code }
  | .exited _ => h

/-- The phase a fatal error leads to: exit code 1, after the teardown of what was built (70_reset_and_hazards.md R152,
44_host_side.md R134; log 28). A host that runs no program of its own ignores the error, whatever it has constructed: no
MXTD, no SRTD and no exit code (DESIGN CHOICE, log 40). -/
def HostPhase.onFatal : HostPhase → HostPhase
  | .scripted => .scripted
  | .boot => .exited 1
  | .bootMux => .fatalMux
  | .refresh => .fatalMux
  | .shutdown => .fatalMux
  | .fatalMux => .fatalMux
  | .fatalShift => .fatalShift
  | .leaving _ => .leaving 1
  | .exited code => .exited code

/-- A turn of the host program on the system. While words wait in the port, such as the first word of a WRF, the program
presents nothing, so that the two words of a WRF stand together (30_encoding.md R69; DESIGN CHOICE, log 25). -/
def programTurn (s : State) : State :=
  if s.host.port.isEmpty then s.onHost (HostSide.turn s.blk) else s

/-- Words presented from outside the host program. A host that runs its program has no other agent that issues commands
(44_host_side.md R131), so that they reach the port only of a host without one (log 25). -/
def HostSide.presentFromOutside (words : List Word) (h : HostSide) : HostSide :=
  if h.phase = .scripted then h.present words else h

/-- What one outside input does (log 10). A sample takes any numbers, which the spec would have validated upstream
(44_host_side.md R129): the model validates none (DESIGN CHOICE, log 38). A sample and the stop signal are taken in every
phase of the host program, also before step 4 of 70_reset_and_hazards.md R150, during the teardown and after the exit, on
which 44_host_side.md R132 is silent (DESIGN CHOICE, log 39). -/
def hostInput (s : State) : HostInput → State
  | .turn => programTurn s
  | .sample hours minutes seconds =>
    s.onHost (fun h => { h with display := { packed := packTime hours minutes, blink := decide (seconds % 2 = 1) } })
  | .stopSignal => s.onHost (fun h => { h with stop := true })
  | .fatalError => s.onHost (fun h => { h with phase := h.phase.onFatal })
  | .reset => resetBlock s
  | .present words => s.onHost (HostSide.presentFromOutside words)

/-- The host's turn when the block has no whole command to take: the next outside input if there is one, else its
program's next action (log 10). -/
def hostTurn (s : State) : State :=
  match s.host.inputs with
  | e :: rest => hostInput (s.onHost (fun h => { h with inputs := rest })) e
  | [] => programTurn s

end Sys2Proof.Machine
end

