-- ==== Sys2Proof/Machine/ShiftRegister.lean ====
section
/-! DEFINITION. The Shift Register Driver: SRINIT, SRWR, SRFL and SRTD (42_shift_register.md). -/

namespace Sys2Proof.Machine

open Sys2Proof

/-- One turn of `ShiftOut`: drive serial-in to the bit, then pulse the shift clock (42_shift_register.md R103). -/
def shiftBit (bit : Bool) (s : State) : State :=
  slotPulse slotSrclk (if bit then slotSet slotSer s else slotClear slotSer s)

/-- `n` turns of `ShiftOut`, least significant bit of `v` first (42_shift_register.md R103). -/
def shiftBits : Nat → Byte → State → State
  | 0, _, s => s
  | n + 1, v, s => shiftBits n (v >>> 1) (shiftBit (v.getLsbD 0) s)

/-- `ShiftOut(b)`: `SR_BITS = 8` turns (42_shift_register.md R103). -/
def shiftOut (b : Byte) (s : State) : State := shiftBits 8 b s

/-- `Latch()` (42_shift_register.md R104). -/
def latch (s : State) : State := slotPulse slotRclk s

/-- The checks of SRINIT, in order (42_shift_register.md R105, 60_exceptions.md R138). -/
def srinitChecks (s : State) : List (Bool × FaultCode) := [
  (s.blk.srLive, .alreadyInit),
  ([slotSer, slotSrclk, slotRclk].any (fun i => decide (s.blk.slot i ≠ .empty)), .slotBusy),
  ([s.cfg.serId, s.cfg.srclkId, s.cfg.rclkId].any s.blk.holds, .doubleClaim)]

/-- The body of SRINIT: slots, then the latches low, then output; the storage and the output latch of the device are
unspecified after it (42_shift_register.md R105, 93_implementation_defined.md I26; log 35). -/
def srinitBody (s : State) : State :=
  let s1 := ((s.setSlot slotSer (pinOf s.cfg.serId)).setSlot slotSrclk (pinOf s.cfg.srclkId)).setSlot slotRclk
    (pinOf s.cfg.rclkId)
  let s2 := clearIO s.cfg.rclkId (clearIO s.cfg.srclkId (clearIO s.cfg.serId s1))
  let s3 := claimIO s.cfg.rclkId (claimIO s.cfg.srclkId (claimIO s.cfg.serId s2))
  ((leaveUnspecified s3).onBlk (Block.setSrLive true)).setRspData 0

/-- SRINIT: construct the Shift Register Handle (42_shift_register.md R105). -/
def execSrinit (s : State) : Host.Outcome State Fault Refusal :=
  .next (frame .srinit s (srinitChecks s) srinitBody)

/-- `NOT_INIT` applies when there is no Shift Register Handle (60_exceptions.md R137). -/
def srLiveCheck (s : State) : List (Bool × FaultCode) := [(!s.blk.srLive, .notInit)]

/-- SRWR: shift one byte into the storage (42_shift_register.md R106). -/
def execSrwr (byte : Nat) (s : State) : Host.Outcome State Fault Refusal :=
  .next (frame (.srwr byte) s (srLiveCheck s) (fun s => (shiftOut (BitVec.ofNat 8 byte) s).setRspData 0))

/-- SRFL: latch the storage to the outputs (42_shift_register.md R107). -/
def execSrfl (s : State) : Host.Outcome State Fault Refusal :=
  .next (frame .srfl s (srLiveCheck s) (fun s => (latch s).setRspData 0))

/-- The body of SRTD: the blank pattern without a latch, then the releases in reverse order (42_shift_register.md R108). The
device samples the releases' writes as every other (10_state.md R35); on what it sees there see log 32. -/
def srtdBody (s : State) : State :=
  let s1 := shiftOut blankPattern s
  let s2 := releaseSlot slotSer (releaseSlot slotSrclk (releaseSlot slotRclk s1))
  (s2.onBlk (Block.setSrLive false)).setRspData 0

/-- SRTD: destroy the Shift Register Handle (42_shift_register.md R108). -/
def execSrtd (s : State) : Host.Outcome State Fault Refusal :=
  .next (frame .srtd s (srLiveCheck s) srtdBody)

end Sys2Proof.Machine
end

