-- ==== Sys2Proof/Machine/DigitMux.lean ====
section
/-! DEFINITION. The Digit Multiplexer: MXINIT, MXSW and MXTD (43_digit_mux.md). -/

namespace Sys2Proof.Machine

open Sys2Proof

/-- The checks of MXINIT, in order (43_digit_mux.md R113, 60_exceptions.md R138). -/
def mxinitChecks (s : State) : List (Bool × FaultCode) := [
  (s.blk.mxLive, .alreadyInit),
  (digitsUp.any (fun k => decide (s.blk.slot (slotDig k) ≠ .empty)), .slotBusy),
  (digitsUp.any (fun k => s.blk.holds s.cfg.digId[k]), .doubleClaim)]

/-- The body of MXINIT: slots, then every digit dark, then output (43_digit_mux.md R113). -/
def mxinitBody (s : State) : State :=
  let s1 := digitsUp.foldl (fun t k => t.setSlot (slotDig k) (pinOf t.cfg.digId[k])) s
  let s2 := digitsUp.foldl (fun t k => clearIO t.cfg.digId[k] t) s1
  let s3 := digitsUp.foldl (fun t k => claimIO t.cfg.digId[k] t) s2
  ((s3.onBlk (Block.setCursor muxInitCursor)).onBlk (Block.setMxLive true)).setRspData 0

/-- MXINIT: construct the Digit Set (43_digit_mux.md R113). -/
def execMxinit (s : State) : Host.Outcome State Fault Refusal :=
  .next (frame .mxinit s (mxinitChecks s) mxinitBody)

/-- `NOT_INIT` applies to MXSW when either component does not exist (43_digit_mux.md R114). -/
def mxswChecks (s : State) : List (Bool × FaultCode) := [(!s.blk.mxLive || !s.blk.srLive, .notInit)]

/-- The body of MXSW, one line per step of the algorithm (43_digit_mux.md R114). -/
def mxswBody (s : State) : State :=
  let next := s.blk.cursor + 1
  let pat := hostPattern next s
  let s2 := shiftOut pat (patternAnswered s)
  let s3 := slotClear (slotDig s.blk.cursor) s2
  let s4 := latch s3
  let s5 := slotSet (slotDig next) s4
  (s5.onBlk (Block.setCursor next)).setRspData 0

/-- MXSW: switch the display to the next digit (43_digit_mux.md R114). -/
def execMxsw (s : State) : Host.Outcome State Fault Refusal :=
  .next (frame .mxsw s (mxswChecks s) mxswBody)

/-- `NOT_INIT` applies to MXTD when there is no Digit Set (43_digit_mux.md R115). -/
def mxtdChecks (s : State) : List (Bool × FaultCode) := [(!s.blk.mxLive, .notInit)]

/-- The body of MXTD: all four dark, then the releases in reverse order (43_digit_mux.md R115). -/
def mxtdBody (s : State) : State :=
  let s1 := digitsUp.foldl (fun t k => slotClear (slotDig k) t) s
  let s2 := digitsDown.foldl (fun t k => releaseSlot (slotDig k) t) s1
  ((s2.onBlk (Block.setCursor muxInitCursor)).onBlk (Block.setMxLive false)).setRspData 0

/-- MXTD: tear down the Digit Set (43_digit_mux.md R115). -/
def execMxtd (s : State) : Host.Outcome State Fault Refusal :=
  .next (frame .mxtd s (mxtdChecks s) mxtdBody)

end Sys2Proof.Machine
end

