-- ==== Sys2Proof/Machine/Pin.lean ====
section
/-! DEFINITION. Pin control: PCLM, PREL, PSET, PCLR, PPLS and PMOV (41_pin.md section 2). -/

namespace Sys2Proof.Machine

open Sys2Proof

/-- Is a valid `id` held by a slot other than `i` (41_pin.md R94). -/
def heldElsewhere (b : Block) (i id : Nat) : Bool :=
  decide (id ≤ 53) && (List.range nSlots).any (fun t => decide (t ≠ i ∧ b.slot t = pinOf id))

/-- The checks of PCLM, in order (41_pin.md R94, 60_exceptions.md R138). -/
def pclmChecks (slot id : Nat) (s : State) : List (Bool × FaultCode) := [
  (outOfRange slot, .slotRange),
  (decide (s.blk.slot slot ≠ .empty), .slotBusy),
  (heldElsewhere s.blk slot id, .doubleClaim)]

/-- The body of PCLM (41_pin.md R94). -/
def pclmBody (slot id : Nat) (s : State) : State :=
  (claimIO id (s.setSlot slot (pinOf id))).setRspData 0

/-- PCLM: claim a pin into a slot (41_pin.md R94). -/
def execPclm (slot id : Nat) (s : State) : Host.Outcome State Fault Refusal :=
  .next (frame (.pclm slot id) s (pclmChecks slot id s) (pclmBody slot id))

/-- The one check of a command on one slot (41_pin.md R95 to R98). -/
def slotCheck (slot : Nat) : List (Bool × FaultCode) := [(outOfRange slot, .slotRange)]

/-- The body of PREL: release the pin and empty the slot; nothing on an `Empty` slot (41_pin.md R95). -/
def prelBody (slot : Nat) (s : State) : State :=
  match s.blk.slot slot with
  | .empty => s.setRspData 0
  | .pin id => ((releaseIO id.val s).setSlot slot .empty).setRspData 0

/-- PREL: release the pin in a slot (41_pin.md R95). -/
def execPrel (slot : Nat) (s : State) : Host.Outcome State Fault Refusal :=
  .next (frame (.prel slot) s (slotCheck slot) (prelBody slot))

/-- PSET: raise the line of the pin in a slot (41_pin.md R96). -/
def execPset (slot : Nat) (s : State) : Host.Outcome State Fault Refusal :=
  .next (frame (.pset slot) s (slotCheck slot) (fun s => (slotSet slot s).setRspData 0))

/-- PCLR: lower the line of the pin in a slot (41_pin.md R97). -/
def execPclr (slot : Nat) (s : State) : Host.Outcome State Fault Refusal :=
  .next (frame (.pclr slot) s (slotCheck slot) (fun s => (slotClear slot s).setRspData 0))

/-- PPLS: pulse the line of the pin in a slot (41_pin.md R98). -/
def execPpls (slot : Nat) (s : State) : Host.Outcome State Fault Refusal :=
  .next (frame (.ppls slot) s (slotCheck slot) (fun s => (slotPulse slot s).setRspData 0))

/-- The checks of PMOV, in order; `dst == src` is never busy (41_pin.md R99). -/
def pmovChecks (dst src : Nat) (s : State) : List (Bool × FaultCode) := [
  (outOfRange dst || outOfRange src, .slotRange),
  (decide (dst ≠ src ∧ s.blk.slot dst ≠ .empty), .slotBusy)]

/-- The body of PMOV: no bus access (41_pin.md R99). -/
def pmovBody (dst src : Nat) (s : State) : State :=
  if dst = src then s.setRspData 0
  else ((s.setSlot dst (s.blk.slot src)).setSlot src .empty).setRspData 0

/-- PMOV: move a pin handle (41_pin.md R99). -/
def execPmov (dst src : Nat) (s : State) : Host.Outcome State Fault Refusal :=
  .next (frame (.pmov dst src) s (pmovChecks dst src s) (pmovBody dst src))

end Sys2Proof.Machine
end

