-- ==== Sys2Proof/Machine/RegisterWriter.lean ====
section
/-! DEFINITION. The Register Writer: WRF and RDF (40_register_writer.md). -/

namespace Sys2Proof.Machine

open Sys2Proof

/-- `BAD_GEOMETRY` applies when the pair is not legal (30_encoding.md R68). -/
def geometryCheck (w p : Nat) : List (Bool × FaultCode) := [(!decide (legalGeometry w p), .badGeometry)]

/-- The body of WRF (40_register_writer.md R82). -/
def wrfBody (off w p : Nat) (value : Word) (s : State) : State :=
  (maskedWrite off w p value s).setRspData 0

/-- WRF: masked write of a field (40_register_writer.md R82). -/
def execWrf (off w p : Nat) (value : Word) (s : State) : Host.Outcome State Fault Refusal :=
  .next (frame (.wrf off w p value) s (geometryCheck w p) (wrfBody off w p value))

/-- The body of RDF: one read; 0 and no access at an offset outside the window (40_register_writer.md R83). -/
def rdfBody (off w p : Nat) (s : State) : State :=
  if off < s.cfg.blockWords then
    let r := memRead off s
    r.2.setRspData (extract r.1 w p)
  else s.setRspData 0

/-- RDF: read of a field (40_register_writer.md R83). -/
def execRdf (off w p : Nat) (s : State) : Host.Outcome State Fault Refusal :=
  .next (frame (.rdf off w p) s (geometryCheck w p) (rdfBody off w p))

end Sys2Proof.Machine
end

