-- ==== Sys2Proof/Machine/Dispatch.lean ====
section
/-! DEFINITION. One arm for each command, each one call of its meaning. -/

namespace Sys2Proof.Machine

open Sys2Proof

def exec (i : Instr) (s : State) : Host.Outcome State Fault Refusal :=
  match i with
  | .wrf off w p value => Sys2Proof.Machine.execWrf off w p value s
  | .rdf off w p => Sys2Proof.Machine.execRdf off w p s
  | .pclm slot id => Sys2Proof.Machine.execPclm slot id s
  | .prel slot => Sys2Proof.Machine.execPrel slot s
  | .pset slot => Sys2Proof.Machine.execPset slot s
  | .pclr slot => Sys2Proof.Machine.execPclr slot s
  | .ppls slot => Sys2Proof.Machine.execPpls slot s
  | .pmov dst src => Sys2Proof.Machine.execPmov dst src s
  | .srinit => Sys2Proof.Machine.execSrinit s
  | .srwr byte => Sys2Proof.Machine.execSrwr byte s
  | .srfl => Sys2Proof.Machine.execSrfl s
  | .srtd => Sys2Proof.Machine.execSrtd s
  | .mxinit => Sys2Proof.Machine.execMxinit s
  | .mxsw => Sys2Proof.Machine.execMxsw s
  | .mxtd => Sys2Proof.Machine.execMxtd s

end Sys2Proof.Machine
end

