-- ==== Sys2Proof/Machine/Sequencer.lean ====
section
/-! DEFINITION. What happens in one step of a well-configured system (60_exceptions.md R135, R136, R146). -/

namespace Sys2Proof.Machine

open Sys2Proof

/-- `Other` may act first (20_memory.md R52). While the block is busy a presented command waits (60_exceptions.md R135;
log 20). Otherwise the block takes the command at the front of the port, whole, and an illegal word faults
(60_exceptions.md R136); when no whole command is presented, the host has its turn. -/
def systemStep (s : State) : Host.Outcome State Fault Refusal :=
  let s1 := otherActs s
  if s1.blk.busy then .next s1
  else
    match decode s1.host.port with
    | .command i rest => exec i (s1.withPort rest)
    | .illegal _ word0 rest => .next (illegalCommand word0 (s1.withPort rest))
    | .incomplete => .next (hostTurn s1)

/-- The host presents one instruction, whose bits are `w`, to a block that is not busy (log 11). -/
def presentInstruction (nbits w : Nat) (s : State) : State :=
  (s.withPort (presentedWords nbits w)).onBlk (fun b => { b with busy := false })

end Sys2Proof.Machine
end

