-- ==== Sys2Proof/Machine/Step.lean ====
section
/-! DEFINITION. One step of the system: a whole command of the block, or a turn of the host when no whole command is
presented. -/

namespace Sys2Proof.Machine

open Sys2Proof

/-- One step. An ill-formed configuration is refused rather than run (00_scope.md R7). -/
def step (s : State) : Host.Outcome State Fault Refusal :=
  if configWf s.cfg then systemStep s else .refused .illFormedConfiguration

/-- `s` with one instruction presented, so that the next step runs it (log 11). -/
def State.withFetchWord (s : State) (nbits w : Nat) : State := presentInstruction nbits w s

end Sys2Proof.Machine
end

