-- ==== Sys2Proof/Machine/Assembler.lean ====
section
/-! DEFINITION. The pseudo-instructions of the assembler (30_encoding.md R80). -/

namespace Sys2Proof.Machine

open Sys2Proof

/-- The three pseudo-instructions (30_encoding.md R80). -/
inductive Pseudo where
  | fselw (id : Nat) (fn : BitVec 3)
  | srshow (byte : Nat)
  | mxframe
  deriving DecidableEq, Repr

/-- Their expansions (30_encoding.md R80). R80 has FSELW for ids 0 to 63; of an id of 64 or more the model emits nothing, as
for 54 to 63 (DESIGN CHOICE, log 37). -/
def expandPseudo (c : Config) : Pseudo → List Instr
  | .fselw id fn =>
    match resolveFsel id with
    | some (n, p) => [.wrf c.offFsel[n] fselFieldW p (fn.setWidth 32)]
    | none => []
  | .srshow byte => [.srwr byte, .srfl]
  | .mxframe => [.mxsw, .mxsw, .mxsw, .mxsw]

end Sys2Proof.Machine
end

