-- ==== Sys2Proof/Safety.lean ====
section
/-! DEFINITION. The terms the claims use: what a safe run keeps, what a command leaves behind when it completes, faults or
is refused, and which events its trace holds. -/

namespace Sys2Proof.Machine

open Sys2Proof

/-! ### Conditions on a state -/

/-- The block is not faulted and the window is mapped: a legal command gets to its own checks (60_exceptions.md R136). -/
def Ready (s : State) : Prop := s.blk.fault = 0 ∧ s.host.mapped = true

/-- The command gets to its own checks: it is admitted (60_exceptions.md R140) and the window is mapped. -/
def Admitted (i : Instr) (s : State) : Prop :=
  (s.blk.fault = 0 ∨ admittedWhileFaulted i = true) ∧ s.host.mapped = true

/-- A well-formed configuration with no other master (20_memory.md R52). -/
def Alone (s : State) : Prop := configWf s.cfg = true ∧ s.cfg.otherMasters = false

/-- No two effective slots hold the same id (10_state.md R17). -/
def UniqueOwners (b : Block) : Prop :=
  ∀ i j : Nat, i < nSlots → j < nSlots → i ≠ j → ∀ id : Fin 64, id.val ≤ 53 → b.slot i = .pin id → b.slot j ≠ .pin id

/-- The fault code is one of the table's (60_exceptions.md R137): 0x09 to 0xFF are never written. -/
def LegalFault (b : Block) : Prop := b.fault.toNat ≤ 8

/-- At most one digit enable line is high (43_digit_mux.md R117). -/
def AtMostOneEnabled (c : Config) (g : Gpio) : Prop :=
  ∀ j k : Fin 4, enabled c g j = true → enabled c g k = true → j = k

/-- No digit enable line is high. -/
def AllDark (c : Config) (g : Gpio) : Prop := ∀ k : Fin 4, enabled c g k = false

/-- Slots 0, 1 and 2 hold the wired pins, with function output (the first premise of 42_shift_register.md R109). -/
def ShiftPinsReady (s : State) : Prop :=
  s.blk.slot slotSer = pinOf s.cfg.serId ∧ s.blk.slot slotSrclk = pinOf s.cfg.srclkId ∧
  s.blk.slot slotRclk = pinOf s.cfg.rclkId ∧ s.gpio.function s.cfg.serId = fnOutput ∧
  s.gpio.function s.cfg.srclkId = fnOutput ∧ s.gpio.function s.cfg.rclkId = fnOutput

/-- The shift-clock and latch-clock lines are low (42_shift_register.md R109). -/
def ClocksLow (s : State) : Prop :=
  s.gpio.line s.cfg.srclkId = some false ∧ s.gpio.line s.cfg.rclkId = some false

/-- The external device saw both clock lines low at its last sample, so that sample showed it no rising edge
(10_state.md R35). -/
def SawClocksLow (s : State) : Prop := s.ext.srclkPrev = false ∧ s.ext.rclkPrev = false

/-- Slots 3 to 6 hold the digit pins, with function output. -/
def DigitPinsReady (s : State) : Prop :=
  ∀ k : Fin 4, s.blk.slot (slotDig k) = pinOf s.cfg.digId[k] ∧ s.gpio.function s.cfg.digId[k] = fnOutput

/-- The Digit Set exists with its pins, and only the cursor's digit may be enabled (43_digit_mux.md R116, R117). -/
def MuxWorking (s : State) : Prop :=
  s.blk.mxLive = true ∧ DigitPinsReady s ∧ ∀ k : Fin 4, k ≠ s.blk.cursor → enabled s.cfg s.gpio k = false

/-! ### What a command leaves -/

/-- The block after a command that completes `OK` with `data` and no other change (60_exceptions.md R136). -/
def Block.completed (b : Block) (data : Word) : Block :=
  { b with busy := false, rspStatus := .ok, rspData := data }

/-- The state after a command that completes `OK` with response data 0 and no other effect. -/
def State.completedOnly (s : State) : State := { s with blk := s.blk.completed 0, trace := [] }

/-- The state after a fault of command word `word0` (60_exceptions.md R139): nothing else changes. -/
def State.faulted (s : State) (c : FaultCode) (word0 : Word) : State :=
  { s with
    blk := { s.blk with
      fault := if s.blk.fault = 0 then c.code else s.blk.fault
      rspStatus := .fault
      rspData := word0
      busy := false }
    trace := [] }

/-- The state after a refusal of command word `word0` (60_exceptions.md R140): nothing else changes. -/
def State.turnedAway (s : State) (word0 : Word) : State :=
  { s with blk := { s.blk with rspStatus := .refused, rspData := word0, busy := false }, trace := [] }

/-- The outcome of running commands one after the other, by `exec`. -/
def execAll : List Instr → State → Host.Outcome State Fault Refusal
  | [], s => .next s
  | i :: rest, s =>
    match exec i s with
    | .next t => execAll rest t
    | .fault f => .fault f
    | .refused r => .refused r

/-! ### Traces -/

/-- The events of `SetIO(id)` (41_pin.md R90). -/
def setEvents (c : Config) (id : Nat) : List BusEvent :=
  match resolveLevel id with
  | some (k, bit) => [.write c.offSet[k] bit]
  | none => []

/-- The events of `ClearIO(id)` (41_pin.md R91). -/
def clearEvents (c : Config) (id : Nat) : List BusEvent :=
  match resolveLevel id with
  | some (k, bit) => [.write c.offClr[k] bit]
  | none => []

/-- The events of a slot-level procedure: none on an `Empty` slot (41_pin.md R93). -/
def slotEvents (events : Nat → List BusEvent) : Slot → List BusEvent
  | .empty => []
  | .pin id => events id.val

/-- The events of `SlotSet`, `SlotClear` and `SlotPulse` on slot `i` (41_pin.md R93). -/
def setTrace (c : Config) (b : Block) (i : Nat) : List BusEvent := slotEvents (setEvents c) (b.slot i)
/-- The events of `SlotClear` on slot `i`. -/
def clearTrace (c : Config) (b : Block) (i : Nat) : List BusEvent := slotEvents (clearEvents c) (b.slot i)
/-- The events of `SlotPulse` on slot `i`. -/
def pulseTrace (c : Config) (b : Block) (i : Nat) : List BusEvent := setTrace c b i ++ clearTrace c b i

/-- The events of `ShiftOut(v)`: per bit, least significant first, serial-in and then a shift-clock pulse
(42_shift_register.md R103). -/
def shiftTrace (c : Config) (b : Block) (v : Byte) : List BusEvent :=
  (List.range 8).flatMap fun i =>
    (if v.getLsbD i then setTrace c b slotSer else clearTrace c b slotSer) ++ pulseTrace c b slotSrclk

/-- The events of releasing what `slot` holds: a read of its function-select register and a write of the word read with the
pin's field at input for an effective slot, none otherwise (41_pin.md R89, R93). The value read is any value. -/
def ReleaseEvents (c : Config) (slot : Slot) (events : List BusEvent) : Prop :=
  match slot with
  | .empty => events = []
  | .pin id =>
    match resolveFsel id.val with
    | some (n, p) => ∃ r, events = [.read c.offFsel[n] r, .write c.offFsel[n] (merge r 0 3 p)]
    | none => events = []

/-- The reads among a list of bus events. -/
def readsOf (events : List BusEvent) : List BusEvent :=
  events.filter fun e => match e with
    | .read _ _ => true
    | .write _ _ => false

/-- The peripheral after the writes of a list of bus events, in order (20_memory.md R40, R47). -/
def replay (c : Config) (g : Gpio) : List BusEvent → Gpio
  | [] => g
  | .read _ _ :: rest => replay c g rest
  | .write off v :: rest => replay c (g.write c off v) rest

end Sys2Proof.Machine
end

