-- ==== Sys2Proof/Certificates/Slice0/Obligations.lean ====
section
/-! DEFINITION. The statements about the model, from the numbered rules of spec/. A statement rests on no value the model
chose: it holds for every configuration, every `Draw()` and every schedule of the other master that meets its premises. -/

open Sys2Proof Sys2Proof.Machine

/-! ### Encoding -/

/-- Decoding an encoded well-formed command gives it back, whatever words follow (30_encoding.md R69 to R79). -/
def Obligations.DecodeInvertsEncode : Prop :=
  ∀ (i : Instr) (rest : List Word), i.wf = true → decode (encode i ++ rest) = .command i rest

/-- Encoding a decoded command gives back the words it was decoded from, and it is well-formed: the decoder drops no bit
(30_encoding.md R76 to R79). -/
def Obligations.EncodeInvertsDecode : Prop :=
  ∀ (ws rest : List Word) (i : Instr), decode ws = .command i rest → i.wf = true ∧ ws = encode i ++ rest

/-- Every word is exactly one command or illegal: at most one row matches it, the decoder answers that row, and where no
row matches it refuses (30_encoding.md R76, R77, R78). -/
def Obligations.EveryWordIsOneCommandOrIllegal : Prop :=
  ∀ w0 w1 : Word,
    (∃ r ∈ opcodeTable, w0 &&& r.mask = r.pattern ∧ decodeWords w0 w1 = .ok (r.build w0 w1) ∧
      ∀ r' ∈ opcodeTable, w0 &&& r'.mask = r'.pattern → r'.op = r.op) ∨
    ((∀ r ∈ opcodeTable, w0 &&& r.mask ≠ r.pattern) ∧ ∃ e, decodeWords w0 w1 = .error e)

/-- Words written out from the spec's encodings decode to the commands they stand for, and malformed ones are refused by
name (30_encoding.md R69, R71 to R79, 95_test_vectors.md 2.1). The last clause, that a WRF whose second word is not there
waits, is the model's choice (log 8): R69 has both words presented together. -/
def Obligations.WrittenOutWordsDecode : Prop :=
  decode [0x10044700, 0x00000001] = .command (.wrf 1 3 7 1) [] ∧
  decode [0x20156100] = .command (.rdf 5 12 1) [] ∧
  decode [0x37440000] = .command (.pclm 7 17) [] ∧
  decode [0x89700000] = .command (.pmov 9 7) [] ∧
  decode [0xA00000A5] = .command (.srwr 0xA5) [] ∧
  decode [0xE0000000, 0xF0000000] = .command .mxsw [0xF0000000] ∧
  decode [0x00000000] = .illegal .reservedOpcode 0x00000000 [] ∧
  decode [0x40040000] = .illegal .mustBeZero 0x40040000 [] ∧
  decode [0x10000000] = .incomplete

/-- The assembler encodes exactly the well-formed commands, and its three pseudo-instructions expand to well-formed
commands: one field write for a valid id, none for an invalid one (30_encoding.md R79, R80). That FSELW of an id of 64 or
more, for which R80 gives no expansion, emits nothing too is the model's choice (log 37). -/
def Obligations.PseudoInstructionsAssemble : Prop :=
  ∀ (c : Config), configWf c = true → c.blockWords ≤ 1024 →
    (∀ (id : Nat) (fn : BitVec 3), id ≤ 53 → ∃ n : Fin 6, n.val = id / 10 ∧
      expandPseudo c (.fselw id fn) = [.wrf c.offFsel[n] 3 (id % 10) (fn.setWidth 32)] ∧
      (assemble (.wrf c.offFsel[n] 3 (id % 10) (fn.setWidth 32))).isSome = true) ∧
    (∀ (id : Nat) (fn : BitVec 3), 54 ≤ id → expandPseudo c (.fselw id fn) = []) ∧
    (∀ byte : Nat, expandPseudo c (.srshow byte) = [.srwr byte, .srfl] ∧
      ((assemble (.srwr byte)).isSome = true ↔ byte ≤ 255)) ∧
    expandPseudo c .mxframe = [.mxsw, .mxsw, .mxsw, .mxsw]

/-! ### The step and the command frame -/

/-- A step runs the decoded command: when the block is not busy and a whole legal command stands at the front of the
port, the step is that command's execution with its words taken from the port, after what the other master does; without
another master nothing else happens (60_exceptions.md R135, R136). -/
def Obligations.StepRunsTheDecodedCommand : Prop :=
  ∀ (s : State) (i : Instr) (rest : List Word), configWf s.cfg = true → s.blk.busy = false →
    decode s.host.port = .command i rest →
    step s = exec i ((otherActs s).withPort rest) ∧ (s.cfg.otherMasters = false → otherActs s = s)

/-- An illegal word faults with `ILLEGAL_CMD`, even while the block is faulted or not mapped, and has no other effect than
to leave the port (30_encoding.md R77, 60_exceptions.md R136, R140). -/
def Obligations.IllegalWordFaults : Prop :=
  ∀ (s : State) (why : Illegal) (w0 : Word) (rest : List Word), configWf s.cfg = true → s.blk.busy = false →
    decode s.host.port = .illegal why w0 rest →
    step s = .next (((otherActs s).withPort rest).faulted .illegalCmd w0)

/-- A command presented while the block is busy waits: it stays in the port, and the block's state does not change
(60_exceptions.md R135; that a command's execution is one step is the model's choice, log 20). -/
def Obligations.BusyBlockLetsCommandsWait : Prop :=
  ∀ s : State, configWf s.cfg = true → s.blk.busy = true →
    ∃ t, step s = .next t ∧ t.host = s.host ∧ t.blk = s.blk

/-- An ill-formed configuration is refused and nothing else is: on a well-formed one every step answers a next state
(00_scope.md R7, 20_memory.md R42). -/
def Obligations.OnlyIllFormedConfigurationsAreRefused : Prop :=
  ∀ s : State, (configWf s.cfg = false → step s = .refused .illFormedConfiguration) ∧
    (configWf s.cfg = true → ∃ t, step s = .next t)

/-- Faults are precise: a command that answers FAULT, or an illegal word, changes the fault code (the first is kept), the
response and busy, and nothing else of the whole system (60_exceptions.md R139). -/
def Obligations.FaultsArePrecise : Prop :=
  (∀ (i : Instr) (s : State), ∃ t, exec i s = .next t ∧
    (t.blk.rspStatus = .fault → ∃ c : FaultCode, t = { s with
      blk := { s.blk with
        fault := if s.blk.fault = 0 then c.code else s.blk.fault
        rspStatus := .fault
        rspData := encodeWord0 i
        busy := false }
      trace := [] })) ∧
  (∀ (s : State) (w0 : Word), illegalCommand w0 s = { s with
      blk := { s.blk with
        fault := if s.blk.fault = 0 then FaultCode.illegalCmd.code else s.blk.fault
        rspStatus := .fault
        rspData := w0
        busy := false }
      trace := [] })

/-- While faulted, the block executes only PREL, SRTD and MXTD: every other legal command answers REFUSED with its command
word and no other effect, those three are not refused, and an illegal word still faults with the code unchanged
(60_exceptions.md R140). -/
def Obligations.FaultedBlockRefusesAllButTeardown : Prop :=
  ∀ s : State, s.blk.fault ≠ 0 →
    (∀ i : Instr, (∀ k, i ≠ .prel k) → i ≠ .srtd → i ≠ .mxtd → exec i s = .next { s with
      blk := { s.blk with rspStatus := .refused, rspData := encodeWord0 i, busy := false }
      trace := [] }) ∧
    (∀ i : Instr, ((∃ k, i = .prel k) ∨ i = .srtd ∨ i = .mxtd) → ∃ t, exec i s = .next t ∧
      (t.blk.rspStatus = .ok ∨ t.blk.rspStatus = .fault)) ∧
    (∀ w0 : Word, (illegalCommand w0 s).blk.rspStatus = .fault ∧ (illegalCommand w0 s).blk.fault = s.blk.fault)

/-- The first fault is kept: no command and no illegal word changes a fault code that is set, a code is set only together
with the status FAULT; a teardown of a component that does not exist, while faulted, reports FAULT and keeps the first
code; no step changes a code that is set, whatever the host and the other master do, unless reset is the input it takes;
and reset clears it (60_exceptions.md R141). That reset is an entry of the host's inputs, taken when no whole command waits,
is the model's choice (logs 10 and 29). -/
def Obligations.FirstFaultIsKeptUntilReset : Prop :=
  (∀ (i : Instr) (s t : State), exec i s = .next t → s.blk.fault ≠ 0 → t.blk.fault = s.blk.fault) ∧
  (∀ (i : Instr) (s t : State), exec i s = .next t → t.blk.fault ≠ s.blk.fault →
    s.blk.fault = 0 ∧ t.blk.rspStatus = .fault) ∧
  (∀ (s : State) (w0 : Word), s.blk.fault ≠ 0 →
    (illegalCommand w0 s).blk.fault = s.blk.fault ∧ (illegalCommand w0 s).blk.rspStatus = .fault) ∧
  (∀ s : State, s.blk.fault ≠ 0 →
    (s.blk.srLive = false → ∃ t, exec .srtd s = .next t ∧ t.blk.rspStatus = .fault ∧ t.blk.fault = s.blk.fault) ∧
    (s.blk.mxLive = false → ∃ t, exec .mxtd s = .next t ∧ t.blk.rspStatus = .fault ∧ t.blk.fault = s.blk.fault)) ∧
  (∀ s t : State, s.blk.fault ≠ 0 → step s = .next t → t.blk.fault = s.blk.fault ∨
    (s.blk.busy = false ∧ decode s.host.port = .incomplete ∧ (∃ rest, s.host.inputs = .reset :: rest) ∧
      t.blk.fault = 0)) ∧
  (∀ s : State, (resetBlock s).blk.fault = 0)

/-- While the window is not mapped, every admitted legal command faults `UNMAPPED`, before any of its own checks, with no
bus access (60_exceptions.md R142, R138). -/
def Obligations.UnmappedWindowFaultsEveryCommand : Prop :=
  ∀ (i : Instr) (s : State), s.host.mapped = false → (s.blk.fault = 0 ∨ admittedWhileFaulted i = true) →
    exec i s = .next (s.faulted .unmapped (encodeWord0 i))

/-- Every step keeps the fault code one of 0x00 to 0x08: the reserved codes are never written (60_exceptions.md R137). -/
def Obligations.ReservedFaultCodesAreNeverWritten : Prop :=
  ∀ s t : State, LegalFault s.blk → step s = .next t → LegalFault t.blk

/-- Every step keeps the configuration and the input `mapped`: they are fixed for a run (10_state.md R14, 60_exceptions.md
R142). -/
def Obligations.ConfigurationIsFixed : Prop :=
  ∀ s t : State, step s = .next t → t.cfg = s.cfg ∧ t.host.mapped = s.host.mapped

/-- Every step keeps single ownership: no two effective slots hold the same id (10_state.md R17). -/
def Obligations.EveryStepKeepsUniqueOwners : Prop :=
  ∀ s t : State, UniqueOwners s.blk → step s = .next t → UniqueOwners t.blk

/-- After reset no two effective slots hold the same id, and the fault code is legal. -/
def Obligations.ResetHasUniqueOwners : Prop :=
  UniqueOwners State.reset.blk ∧ LegalFault State.reset.blk

/-- Reset sets every item of `S` to its reset value and leaves the peripheral and the external circuit as they are
(70_reset_and_hazards.md R148, R149, 10_state.md R37). That it leaves the host's side as it is, the presented words among
it, is the model's choice (log 29). -/
def Obligations.ResetSetsTheBlockOnly : Prop :=
  ∀ s : State,
    (∀ i : Nat, (resetBlock s).blk.slot i = .empty) ∧ (resetBlock s).blk.srLive = false ∧
    (resetBlock s).blk.mxLive = false ∧ (resetBlock s).blk.cursor = 3 ∧ (resetBlock s).blk.fault = 0x00 ∧
    (resetBlock s).blk.busy = false ∧ (resetBlock s).blk.rspStatus = .none ∧ (resetBlock s).blk.rspData = 0 ∧
    (resetBlock s).gpio = s.gpio ∧ (resetBlock s).ext = s.ext ∧ (resetBlock s).host = s.host ∧
    State.reset.blk = (resetBlock s).blk

/-! ### The register window -/

/-- A write of `v` to a set register raises, and to a clear register lowers, exactly the lines whose bits in `v` are 1,
up to pin 53; a 0 bit has no effect, and no function-select register changes. A read of either returns `Draw()`
(10_state.md R31). -/
def Obligations.SetAndClearRegistersActPerBit : Prop :=
  ∀ (c : Config) (g : Gpio) (v drawn : Word) (k : Fin 2) (id : Nat), configWf c = true → id ≤ 53 →
    let named := decide (id / 32 = k.val) && v.getLsbD (id % 32)
    (g.write c c.offSet[k] v).out.getLsbD id = (g.out.getLsbD id || named) ∧
    (g.write c c.offClr[k] v).out.getLsbD id = (g.out.getLsbD id && !named) ∧
    (g.write c c.offSet[k] v).fsel = g.fsel ∧ (g.write c c.offClr[k] v).fsel = g.fsel ∧
    g.read c c.offSet[k] drawn = drawn ∧ g.read c c.offClr[k] drawn = drawn

/-- A read of a function field returns the value last stored, in either setting of `RESERVED_FSEL_READ`; with `stored` so
does a read of a reserved bit (10_state.md R29). -/
def Obligations.FunctionFieldsReadAsStored : Prop :=
  ∀ (c : Config) (g : Gpio) (v drawn : Word) (n : Fin 6) (i : Nat), configWf c = true → i < 32 →
    ((functionMask n).getLsbD i = true ∨ c.reservedRead = .stored) →
    ((g.write c c.offFsel[n] v).read c c.offFsel[n] drawn).getLsbD i = v.getLsbD i

/-- Every valid pin id resolves to one of the six function-select registers and to register A below 32 and B from 32 on,
with bit `id % 32`; for every id from 54 on both resolutions fail and every pin procedure does nothing (41_pin.md R100). -/
def Obligations.PinResolution : Prop :=
  (∀ id : Nat, id ≤ 53 →
    (∃ n : Fin 6, n.val = id / 10 ∧ resolveFsel id = some (n, id % 10)) ∧
    (∃ (k : Fin 2) (bit : Word), resolveLevel id = some (k, bit) ∧ k.val = (if id < 32 then 0 else 1) ∧
      ∀ j : Nat, bit.getLsbD j = decide (j = id % 32))) ∧
  (∀ id : Nat, 54 ≤ id → resolveFsel id = none ∧ resolveLevel id = none ∧
    ∀ s : State, setIO id s = s ∧ clearIO id s = s ∧ pulseIO id s = s ∧ claimIO id s = s ∧ releaseIO id s = s)

/-! ### The Register Writer -/

/-- The bits outside the mask are those of the old word, and without another master a WRF followed by an RDF of a disjoint
field of the same function-select register returns what that field held, when reserved bits read as stored or that field
has none (40_register_writer.md R84, R83). -/
def Obligations.MaskCorrectness : Prop :=
  (∀ (w p : Nat) (r v : Word), legalGeometry w p →
    merge r v w p &&& ~~~ maskOf w p = r &&& ~~~ maskOf w p) ∧
  (∀ (s : State) (n : Fin 6) (w p w' p' : Nat) (v : Word), Ready s → Alone s →
    (s.cfg.reservedRead = .stored ∨ ∀ i, p' * w' ≤ i → i < p' * w' + w' → (functionMask n).getLsbD i = true) →
    legalGeometry w p → legalGeometry w' p' → (p * w + w ≤ p' * w' ∨ p' * w' + w' ≤ p * w) →
    ∃ t, execAll [.wrf s.cfg.offFsel[n] w p v, .rdf s.cfg.offFsel[n] w' p'] s = .next t ∧
      t.blk.rspData = extract s.gpio.fsel[n] w' p')

/-- A merged word's field holds the value modulo `2^w` (40_register_writer.md R85). -/
def Obligations.FieldCorrectness : Prop :=
  ∀ (w p : Nat) (r v : Word), legalGeometry w p →
    extract (merge r v w p) w p = BitVec.ofNat 32 (v.toNat % 2 ^ w)

/-- Two WRF commands on disjoint fields of a function-select register leave the same peripheral in either order, each
field holding its own value, without another master and with reserved bits read as stored (40_register_writer.md R86). -/
def Obligations.DisjointFieldWritesCommute : Prop :=
  ∀ (s : State) (n : Fin 6) (w p w' p' : Nat) (v v' : Word), Ready s → Alone s → s.cfg.reservedRead = .stored →
    legalGeometry w p → legalGeometry w' p' → (p * w + w ≤ p' * w' ∨ p' * w' + w' ≤ p * w) →
    ∃ t t', execAll [.wrf s.cfg.offFsel[n] w p v, .wrf s.cfg.offFsel[n] w' p' v'] s = .next t ∧
      execAll [.wrf s.cfg.offFsel[n] w' p' v', .wrf s.cfg.offFsel[n] w p v] s = .next t' ∧
      t.gpio = t'.gpio ∧ extract t.gpio.fsel[n] w p = BitVec.ofNat 32 (v.toNat % 2 ^ w) ∧
      extract t.gpio.fsel[n] w' p' = BitVec.ofNat 32 (v'.toNat % 2 ^ w')

/-- WRF on a ready block completes, for every offset and legal field. Inside the window it makes one read and then one
write of the merged word, and without another master the peripheral and the circuit change by that write alone; outside
it makes no access. Nothing else of the block or of the host changes (40_register_writer.md R82). -/
def Obligations.WrfMergesOneField : Prop :=
  ∀ (off w p : Nat) (v : Word) (s : State), Ready s → legalGeometry w p →
    ∃ t, exec (.wrf off w p v) s = .next t ∧ t.blk = s.blk.completed 0 ∧ t.host = s.host ∧ t.cfg = s.cfg ∧
      (off < s.cfg.blockWords → ∃ r, t.trace = [.read off r, .write off (merge r v w p)] ∧
        (s.cfg.otherMasters = false → r = s.readValue off ∧ t.gpio = s.gpio.write s.cfg off (merge r v w p) ∧
          t.ext = (writeEffect off (merge r v w p) (if readDraws s.cfg off then s.tick else s)).ext)) ∧
      (s.cfg.blockWords ≤ off → t = s.completedOnly)

/-- WRF changes no byte of the window that the peripheral stores outside the word it names, and on a function-select
register stores the merged word and leaves every output latch alone (40_register_writer.md R82, 20_memory.md R44). -/
def Obligations.WrfStoresOnlyItsWord : Prop :=
  ∀ (off w p : Nat) (v : Word) (s t : State), Alone s → Ready s → legalGeometry w p →
    exec (.wrf off w p v) s = .next t →
    (∀ a : Nat, a / 4 ≠ off → t.gpio.storedByte t.cfg a = s.gpio.storedByte s.cfg a) ∧
    (∀ n : Fin 6, off = s.cfg.offFsel[n] →
      t.gpio.fsel[n] = merge (s.readValue off) v w p ∧ t.gpio.out = s.gpio.out ∧
      ∀ b : Nat, b < 4 → t.gpio.storedByte t.cfg (4 * off + b) =
        some ((merge (s.readValue off) v w p).extractLsb' (8 * b) 8))

/-- RDF on a ready block completes with the zero-extended field of the word it reads, 0 outside the window; it reads once
and, without another master, changes neither the peripheral nor the circuit (40_register_writer.md R83, 20_memory.md R41,
R47). -/
def Obligations.RdfReturnsOneField : Prop :=
  ∀ (off w p : Nat) (s : State), Ready s → legalGeometry w p →
    ∃ t, exec (.rdf off w p) s = .next t ∧ t.host = s.host ∧ t.cfg = s.cfg ∧
      (off < s.cfg.blockWords → ∃ r, t.trace = [.read off r] ∧ t.blk = s.blk.completed (extract r w p) ∧
        (s.cfg.otherMasters = false → r = s.readValue off ∧ t.gpio = s.gpio ∧ t.ext = s.ext)) ∧
      (s.cfg.blockWords ≤ off → t = s.completedOnly)

/-- WRF and RDF with a width and position whose field does not fit the register fault `BAD_GEOMETRY`
(30_encoding.md R68, 60_exceptions.md R137). -/
def Obligations.IllegalGeometryFaults : Prop :=
  ∀ (off w p : Nat) (v : Word) (s : State), Ready s → ¬ legalGeometry w p →
    exec (.wrf off w p v) s = .next (s.faulted .badGeometry (encodeWord0 (.wrf off w p v))) ∧
    exec (.rdf off w p) s = .next (s.faulted .badGeometry (encodeWord0 (.rdf off w p)))

/-- A write of another master to a function-select register that falls between the read and the write of a WRF is lost:
the register ends with the bits the block read outside the field (20_memory.md R51, 70_reset_and_hazards.md R159). -/
def Obligations.OtherMastersWriteIsLost : Prop :=
  ∀ (s : State) (n : Fin 6) (w p : Nat) (v x : Word) (rest : List (List OtherAccess)), Ready s →
    configWf s.cfg = true → s.cfg.otherMasters = true → legalGeometry w p →
    s.other = [] :: [.write s.cfg.offFsel[n] x] :: rest →
    ∃ t, exec (.wrf s.cfg.offFsel[n] w p v) s = .next t ∧
      t.gpio.fsel[n] = merge (s.readValue s.cfg.offFsel[n]) v w p

/-! ### Pin control -/

/-- PCLM of an empty slot with an id no other slot effectively holds completes: the slot holds the pin, and for a valid
id without another master the pin's function field is output, every other pin's field and every latch is as before, by one
read and one write; for an invalid id there is no access (41_pin.md R94). -/
def Obligations.PclmClaimsThePin : Prop :=
  ∀ (slot id : Nat) (s : State), Ready s → configWf s.cfg = true → slot < nSlots → s.blk.slot slot = .empty →
    (id ≤ 53 → ∀ j, j < nSlots → j ≠ slot → s.blk.slot j ≠ pinOf id) →
    ∃ t, exec (.pclm slot id) s = .next t ∧ t.blk = (s.blk.setSlot slot (pinOf id)).completed 0 ∧
      t.host = s.host ∧ t.cfg = s.cfg ∧
      (∀ (n : Fin 6), id ≤ 53 → n.val = id / 10 →
        ∃ r, t.trace = [.read s.cfg.offFsel[n] r, .write s.cfg.offFsel[n] (merge r 1 3 (id % 10))] ∧
        (s.cfg.otherMasters = false → r = s.readValue s.cfg.offFsel[n] ∧ t.gpio.out = s.gpio.out ∧
          (∀ j, j ≤ 53 → t.gpio.function j = if j = id then fnOutput else s.gpio.function j) ∧
          (∀ m : Fin 6, m ≠ n → t.gpio.fsel[m] = s.gpio.fsel[m]) ∧
          t.gpio.fsel[n] = merge r 1 3 (id % 10) ∧
          t.ext = (writeEffect s.cfg.offFsel[n] (merge r 1 3 (id % 10))
            (if readDraws s.cfg s.cfg.offFsel[n] then s.tick else s)).ext)) ∧
      (54 ≤ id → t.gpio = s.gpio ∧ t.ext = s.ext ∧ t.trace = [])

/-- PREL of a slot completes whenever it is admitted: a live slot becomes `Empty`, and for a valid id without another
master its function field is input, every other pin's field and every latch is as before; an inert slot is emptied with no
access, and an empty slot is left with no effect at all (41_pin.md R95). -/
def Obligations.PrelReleasesThePin : Prop :=
  ∀ (slot : Nat) (s : State), Admitted (.prel slot) s → configWf s.cfg = true → slot < nSlots →
    ∃ t, exec (.prel slot) s = .next t ∧ t.blk = (s.blk.setSlot slot .empty).completed 0 ∧ t.host = s.host ∧
      t.cfg = s.cfg ∧
      (s.blk.slot slot = .empty → t = s.completedOnly) ∧
      (∀ id : Fin 64, s.blk.slot slot = .pin id → 54 ≤ id.val → t.gpio = s.gpio ∧ t.ext = s.ext ∧ t.trace = []) ∧
      (∀ (id : Fin 64) (n : Fin 6), s.blk.slot slot = .pin id → id.val ≤ 53 → n.val = id.val / 10 →
        ∃ r, t.trace = [.read s.cfg.offFsel[n] r, .write s.cfg.offFsel[n] (merge r 0 3 (id.val % 10))] ∧
        (s.cfg.otherMasters = false → r = s.readValue s.cfg.offFsel[n] ∧ t.gpio.out = s.gpio.out ∧
          (∀ j, j ≤ 53 → t.gpio.function j = if j = id.val then fnInput else s.gpio.function j) ∧
          (∀ m : Fin 6, m ≠ n → t.gpio.fsel[m] = s.gpio.fsel[m]) ∧
          t.gpio.fsel[n] = merge r 0 3 (id.val % 10) ∧
          t.ext = (writeEffect s.cfg.offFsel[n] (merge r 0 3 (id.val % 10))
            (if readDraws s.cfg s.cfg.offFsel[n] then s.tick else s)).ext))

/-- PSET, PCLR and PPLS of a slot complete: for an effective slot without another master the pin's latch is raised,
lowered, or raised and lowered, every other latch and every function-select register is as before, and the circuit sees
those writes; an empty or inert slot has no effect at all (41_pin.md R96, R97, R98, R93). -/
def Obligations.LevelCommandsDriveThePin : Prop :=
  ∀ (slot : Nat) (s : State), Ready s → configWf s.cfg = true → slot < nSlots →
    ∃ t1 t2 t3, exec (.pset slot) s = .next t1 ∧ exec (.pclr slot) s = .next t2 ∧ exec (.ppls slot) s = .next t3 ∧
      ((s.blk.slot slot).effective = false → t1 = s.completedOnly ∧ t2 = s.completedOnly ∧ t3 = s.completedOnly) ∧
      (∀ (id : Fin 64) (k : Fin 2) (bit : Word), s.blk.slot slot = .pin id → resolveLevel id.val = some (k, bit) →
        t1.trace = [.write s.cfg.offSet[k] bit] ∧ t2.trace = [.write s.cfg.offClr[k] bit] ∧
        t3.trace = [.write s.cfg.offSet[k] bit, .write s.cfg.offClr[k] bit] ∧
        (s.cfg.otherMasters = false →
          t1.gpio.fsel = s.gpio.fsel ∧ t2.gpio.fsel = s.gpio.fsel ∧ t3.gpio.fsel = s.gpio.fsel ∧
          (∀ j, j ≤ 53 → t1.gpio.out.getLsbD j = (s.gpio.out.getLsbD j || decide (j = id.val)) ∧
            t2.gpio.out.getLsbD j = (s.gpio.out.getLsbD j && !decide (j = id.val)) ∧
            t3.gpio.out.getLsbD j = (s.gpio.out.getLsbD j && !decide (j = id.val))) ∧
          t1.ext = (writeEffect s.cfg.offSet[k] bit s).ext ∧ t2.ext = (writeEffect s.cfg.offClr[k] bit s).ext ∧
          t3.ext = (writeEffect s.cfg.offClr[k] bit (writeEffect s.cfg.offSet[k] bit s)).ext)) ∧
      (∀ t, (t = t1 ∨ t = t2 ∨ t = t3) → t.blk = s.blk.completed 0 ∧ t.host = s.host ∧ t.cfg = s.cfg)

/-- PMOV to an empty slot completes: the handle is in the destination, the source is `Empty`, and nothing else changes;
a move of a slot onto itself has no effect (41_pin.md R99). -/
def Obligations.PmovMovesTheHandle : Prop :=
  ∀ (dst src : Nat) (s : State), Ready s → dst < nSlots → src < nSlots →
    (dst = src → exec (.pmov dst src) s = .next s.completedOnly) ∧
    (dst ≠ src → s.blk.slot dst = .empty → ∃ t, exec (.pmov dst src) s = .next t ∧
      t.blk.slot dst = s.blk.slot src ∧ t.blk.slot src = .empty ∧
      (∀ j, j ≠ dst → j ≠ src → t.blk.slot j = s.blk.slot j) ∧
      t = { s with blk := { s.blk.completed 0 with slots := t.blk.slots }, trace := [] })

/-- The pin commands fault in this order: a slot outside the table `SLOT_RANGE`; a claim into a live slot, or a move onto
another live slot, `SLOT_BUSY`; a claim of a valid id another slot holds `DOUBLE_CLAIM` (41_pin.md R94 to R99,
60_exceptions.md R137, R138). -/
def Obligations.PinCommandsFaultInOrder : Prop :=
  ∀ (slot src id : Nat) (s : State), Ready s →
    (nSlots ≤ slot → ∀ i, (i = .pclm slot id ∨ i = .prel slot ∨ i = .pset slot ∨ i = .pclr slot ∨ i = .ppls slot ∨
      i = .pmov slot src ∨ i = .pmov src slot) → exec i s = .next (s.faulted .slotRange (encodeWord0 i))) ∧
    (slot < nSlots → s.blk.slot slot ≠ .empty →
      exec (.pclm slot id) s = .next (s.faulted .slotBusy (encodeWord0 (.pclm slot id))) ∧
      (src < nSlots → src ≠ slot →
        exec (.pmov slot src) s = .next (s.faulted .slotBusy (encodeWord0 (.pmov slot src))))) ∧
    (slot < nSlots → s.blk.slot slot = .empty → id ≤ 53 → (∃ j, j < nSlots ∧ s.blk.slot j = pinOf id) →
      exec (.pclm slot id) s = .next (s.faulted .doubleClaim (encodeWord0 (.pclm slot id))))

/-- A claim and then a release leave the pin's function field at input and every other bit of every function-select
register as it was, but for the reserved bits of that register where those read as `Draw()`, when no other master acts;
the slot is `Empty` again (41_pin.md R101, 10_state.md R29). -/
def Obligations.ClaimThenReleaseLeavesInput : Prop :=
  ∀ (slot id : Nat) (s : State), Ready s → Alone s → slot < nSlots → id ≤ 53 →
    s.blk.slot slot = .empty → (∀ j, j < nSlots → s.blk.slot j ≠ pinOf id) →
    ∃ t, execAll [.pclm slot id, .prel slot] s = .next t ∧ t.gpio.function id = fnInput ∧
      (∀ (m : Fin 6) (i : Nat), i < 32 → (m.val ≠ id / 10 ∨ i < 3 * (id % 10) ∨ 3 * (id % 10) + 3 ≤ i) →
        (m.val ≠ id / 10 ∨ s.cfg.reservedRead = .stored ∨ (functionMask m).getLsbD i = true) →
        t.gpio.fsel[m].getLsbD i = s.gpio.fsel[m].getLsbD i) ∧
      t.gpio.out = s.gpio.out ∧ t.blk = s.blk.completed 0

/-- A claim, a move and a release of the moved-from slot leave the pin claimed in the moved-to slot: the move and that
release make no bus access, and a later release of the moved-to slot programs input (41_pin.md R102). -/
def Obligations.MovedFromReleaseDoesNothing : Prop :=
  ∀ (a b id : Nat) (s : State), Ready s → Alone s → a < nSlots → b < nSlots → a ≠ b → id ≤ 53 →
    s.blk.slot a = .empty → s.blk.slot b = .empty → (∀ j, j < nSlots → s.blk.slot j ≠ pinOf id) →
    ∃ t1 t2 t3 t4, exec (.pclm a id) s = .next t1 ∧ exec (.pmov b a) t1 = .next t2 ∧ exec (.prel a) t2 = .next t3 ∧
      exec (.prel b) t3 = .next t4 ∧ t1.trace.length = 2 ∧ t2.trace = [] ∧ t3.trace = [] ∧ t4.trace.length = 2 ∧
      t3.gpio = t1.gpio ∧ t3.gpio.function id = fnOutput ∧ t3.blk.slot b = pinOf id ∧ t3.blk.slot a = .empty ∧
      t4.gpio.function id = fnInput ∧ t4.blk.slot b = .empty

/-! ### The Shift Register Driver -/

/-- SRINIT completes when the handle does not exist, slots 0 to 2 are empty and no effective slot holds a wired pin: the
three slots hold the wired pins and the handle exists. Without another master the three latches are low, the three
functions output, and every other latch and function is as before; the trace starts with the three clears and has nine
events (42_shift_register.md R105). -/
def Obligations.SrinitConstructsTheHandle : Prop :=
  ∀ s : State, Ready s → configWf s.cfg = true → s.blk.srLive = false →
    s.blk.slot 0 = .empty → s.blk.slot 1 = .empty → s.blk.slot 2 = .empty →
    (∀ j, j < nSlots → s.blk.slot j ≠ pinOf s.cfg.serId ∧ s.blk.slot j ≠ pinOf s.cfg.srclkId ∧
      s.blk.slot j ≠ pinOf s.cfg.rclkId) →
    ∃ t, exec .srinit s = .next t ∧ t.host = s.host ∧ t.cfg = s.cfg ∧
      t.blk = ((((s.blk.setSlot 0 (pinOf s.cfg.serId)).setSlot 1 (pinOf s.cfg.srclkId)).setSlot 2
        (pinOf s.cfg.rclkId)).setSrLive true).completed 0 ∧
      t.trace.length = 9 ∧
      t.trace.take 3 = clearEvents s.cfg s.cfg.serId ++ clearEvents s.cfg s.cfg.srclkId ++
        clearEvents s.cfg s.cfg.rclkId ∧
      (s.cfg.otherMasters = false →
        (∀ j, j ≤ 53 → t.gpio.function j =
          if j = s.cfg.serId ∨ j = s.cfg.srclkId ∨ j = s.cfg.rclkId then fnOutput else s.gpio.function j) ∧
        (∀ j, j ≤ 53 → t.gpio.out.getLsbD j = (s.gpio.out.getLsbD j &&
          !decide (j = s.cfg.serId ∨ j = s.cfg.srclkId ∨ j = s.cfg.rclkId))))

/-- SRWR completes whenever the handle exists, whatever its slots hold: 24 writes for effective slots, in the order of the
bits, fewer where a slot is empty or inert. No slot, live bit or cursor changes, and without another master no
function-select register and no latch but those of serial-in and shift clock changes (42_shift_register.md R106, R103). -/
def Obligations.SrwrShiftsTheByte : Prop :=
  ∀ (byte : Nat) (s : State), Ready s → configWf s.cfg = true → s.blk.srLive = true →
    ∃ t, exec (.srwr byte) s = .next t ∧ t.blk = s.blk.completed 0 ∧ t.host = s.host ∧ t.cfg = s.cfg ∧
      t.trace = shiftTrace s.cfg s.blk (BitVec.ofNat 8 byte) ∧
      (s.cfg.otherMasters = false → t.gpio.fsel = s.gpio.fsel ∧ t.gpio = replay s.cfg s.gpio t.trace ∧
        ∀ j : Fin 64, j.val ≤ 53 → s.blk.slot 0 ≠ .pin j → s.blk.slot 1 ≠ .pin j →
          t.gpio.out.getLsbD j.val = s.gpio.out.getLsbD j.val)

/-- SRFL completes whenever the handle exists: it pulses the latch clock, and without another master no function-select
register and no latch but that of the latch clock changes (42_shift_register.md R107). -/
def Obligations.SrflPulsesTheLatchClock : Prop :=
  ∀ s : State, Ready s → configWf s.cfg = true → s.blk.srLive = true →
    ∃ t, exec .srfl s = .next t ∧ t.blk = s.blk.completed 0 ∧ t.host = s.host ∧ t.cfg = s.cfg ∧
      t.trace = pulseTrace s.cfg s.blk slotRclk ∧
      (s.cfg.otherMasters = false → t.gpio.fsel = s.gpio.fsel ∧
        ∀ j, j ≤ 53 → t.gpio.out.getLsbD j =
          (s.gpio.out.getLsbD j && !decide (∃ id : Fin 64, s.blk.slot 2 = .pin id ∧ id.val = j)))

/-- SRTD completes whenever it is admitted and the handle exists: slots 0 to 2 are empty and the handle is gone. The trace is
the blank pattern and then the releases of slots 2, 1 and 0, each the read and the write of an effective slot's field, so
that no latch pulse follows. Without another master every valid pin the three slots held is an input, and every other
pin's function is as before. The device samples each release's write as any other (10_state.md R35, 20_memory.md R40), and
is otherwise as the blank pattern left it. From driven lines with the clocks low it ends, as 42_shift_register.md R108 has
it, with the blank pattern in its storage and its output latch as it was, whenever it saw the clocks low after each release,
and so when it sees a released line at its latch's level. Where it sees another level its storage is still the blank pattern
until serial-in is released and has at most a 0 shifted in by that, and its output latch is as it was or the blank pattern
(log 32). -/
def Obligations.SrtdDestroysTheHandle : Prop :=
  ∀ s : State, Admitted .srtd s → configWf s.cfg = true → s.blk.srLive = true →
    ∃ t, exec .srtd s = .next t ∧ t.host = s.host ∧ t.cfg = s.cfg ∧
      t.blk = ((((s.blk.setSlot 2 .empty).setSlot 1 .empty).setSlot 0 .empty).setSrLive false).completed 0 ∧
      (∃ e2 e1 e0, ReleaseEvents s.cfg (s.blk.slot 2) e2 ∧ ReleaseEvents s.cfg (s.blk.slot 1) e1 ∧
        ReleaseEvents s.cfg (s.blk.slot 0) e0 ∧ t.trace = shiftTrace s.cfg s.blk 0xFF ++ e2 ++ e1 ++ e0) ∧
      (s.cfg.otherMasters = false →
        (∀ j : Fin 64, j.val ≤ 53 → t.gpio.function j.val =
          if s.blk.slot 0 = .pin j ∨ s.blk.slot 1 = .pin j ∨ s.blk.slot 2 = .pin j then fnInput
          else s.gpio.function j.val) ∧
        t.gpio.out = (replay s.cfg s.gpio (shiftTrace s.cfg s.blk 0xFF)).out ∧
        (ShiftPinsReady s → ClocksLow s →
          let B := releaseSlot slotRclk (shiftOut 0xFF s.accept)
          let C := releaseSlot slotSrclk B
          let D := releaseSlot slotSer C
          C.ext.stor = 0xFF ∧ (t.ext.stor = 0xFF ∨ t.ext.stor = 0x7F) ∧ (t.ext.lat = s.ext.lat ∨ t.ext.lat = 0xFF) ∧
          (SawClocksLow B → SawClocksLow C → SawClocksLow D → t.ext.stor = 0xFF ∧ t.ext.lat = s.ext.lat) ∧
          (s.cfg.undrivenLine = .held → t.ext.stor = 0xFF ∧ t.ext.lat = s.ext.lat))) ∧
      t.ext = (releaseSlot slotSer (releaseSlot slotSrclk (releaseSlot slotRclk (shiftOut 0xFF s.accept)))).ext

/-- The Shift Register Driver's faults, in order: `NOT_INIT` of SRWR, SRFL and SRTD without the handle; `ALREADY_INIT`,
then `SLOT_BUSY`, then `DOUBLE_CLAIM` of SRINIT (60_exceptions.md R137, R138). -/
def Obligations.ShiftRegisterFaultsInOrder : Prop :=
  ∀ s : State, Ready s →
    (s.blk.srLive = false → ∀ i, ((∃ b, i = .srwr b) ∨ i = .srfl ∨ i = .srtd) →
      exec i s = .next (s.faulted .notInit (encodeWord0 i))) ∧
    (s.blk.srLive = true → exec .srinit s = .next (s.faulted .alreadyInit 0x90000000)) ∧
    (s.blk.srLive = false → (s.blk.slot 0 ≠ .empty ∨ s.blk.slot 1 ≠ .empty ∨ s.blk.slot 2 ≠ .empty) →
      exec .srinit s = .next (s.faulted .slotBusy 0x90000000)) ∧
    (s.blk.srLive = false → s.blk.slot 0 = .empty → s.blk.slot 1 = .empty → s.blk.slot 2 = .empty →
      configWf s.cfg = true →
      (∃ j, j < nSlots ∧ (s.blk.slot j = pinOf s.cfg.serId ∨ s.blk.slot j = pinOf s.cfg.srclkId ∨
        s.blk.slot j = pinOf s.cfg.rclkId)) →
      exec .srinit s = .next (s.faulted .doubleClaim 0x90000000))

/-- Round trip: with the three pins ready and the clock lines low, SRWR of a byte and then SRFL leave that byte in the
storage and in the output latch, for each of the 256 bytes, and both clock lines low (42_shift_register.md R109). -/
def Obligations.ByteRoundTrip : Prop :=
  ∀ (b : Nat) (s : State), b ≤ 255 → Ready s → Alone s → s.blk.srLive = true → ShiftPinsReady s → ClocksLow s →
    ∃ t, execAll [.srwr b, .srfl] s = .next t ∧ t.ext.stor = BitVec.ofNat 8 b ∧ t.ext.lat = BitVec.ofNat 8 b ∧
      ClocksLow t

/-- SRWR changes the storage and never the output latch, and SRFL never the storage (42_shift_register.md R110). -/
def Obligations.WriteAndFlushAreSeparate : Prop :=
  ∀ (b : Nat) (s : State), Ready s → Alone s → s.blk.srLive = true → ShiftPinsReady s → ClocksLow s →
    (∃ t, exec (.srwr b) s = .next t ∧ t.ext.stor = BitVec.ofNat 8 b ∧ t.ext.lat = s.ext.lat) ∧
    (∃ t, exec .srfl s = .next t ∧ t.ext.stor = s.ext.stor ∧
      (s.ext.rclkPrev = false → t.ext.lat = s.ext.stor))

/-- Every command of the Shift Register Driver leaves the shift-clock and latch-clock latches low: SRINIT clears them, and
every pulse ends with a clear (42_shift_register.md R111). -/
def Obligations.ShiftCommandsLeaveClockLatchesLow : Prop :=
  ∀ (s t : State), Alone s → UniqueOwners s.blk →
    (exec .srinit s = .next t → t.blk.rspStatus = .ok →
      t.gpio.out.getLsbD t.cfg.srclkId = false ∧ t.gpio.out.getLsbD t.cfg.rclkId = false) ∧
    (∀ i, ((∃ b, i = .srwr b) ∨ i = .srfl ∨ i = .srtd) → exec i s = .next t →
      s.blk.slot slotSer = pinOf s.cfg.serId → s.blk.slot slotSrclk = pinOf s.cfg.srclkId →
      s.blk.slot slotRclk = pinOf s.cfg.rclkId →
      s.gpio.out.getLsbD s.cfg.srclkId = false → s.gpio.out.getLsbD s.cfg.rclkId = false →
      t.gpio.out.getLsbD s.cfg.srclkId = false ∧ t.gpio.out.getLsbD s.cfg.rclkId = false)

/-! ### The Digit Multiplexer -/

/-- MXINIT completes when the Digit Set does not exist, slots 3 to 6 are empty and no effective slot holds a digit pin: the
four slots hold the digit pins, the cursor is 3 and the Digit Set exists. Without another master the four enable latches
are low, the four functions output, and every other latch and function is as before; the trace has 12 events, the four
clears first (43_digit_mux.md R113). -/
def Obligations.MxinitConstructsTheDigitSet : Prop :=
  ∀ s : State, Ready s → configWf s.cfg = true → s.blk.mxLive = false →
    (∀ k : Fin 4, s.blk.slot (slotDig k) = .empty) →
    (∀ (j : Nat) (k : Fin 4), j < nSlots → s.blk.slot j ≠ pinOf s.cfg.digId[k]) →
    ∃ t, exec .mxinit s = .next t ∧ t.host = s.host ∧ t.cfg = s.cfg ∧
      (∀ k : Fin 4, t.blk.slot (slotDig k) = pinOf s.cfg.digId[k]) ∧
      (∀ j, (∀ k : Fin 4, j ≠ slotDig k) → t.blk.slot j = s.blk.slot j) ∧
      t.blk = { s.blk.completed 0 with slots := t.blk.slots, cursor := 3, mxLive := true } ∧
      t.trace.length = 12 ∧
      t.trace.take 4 = clearEvents s.cfg s.cfg.digId[0] ++ clearEvents s.cfg s.cfg.digId[1] ++
        clearEvents s.cfg s.cfg.digId[2] ++ clearEvents s.cfg s.cfg.digId[3] ∧
      (s.cfg.otherMasters = false →
        (∀ j, j ≤ 53 → t.gpio.function j = if j ∈ s.cfg.digId.toList then fnOutput else s.gpio.function j) ∧
        (∀ j, j ≤ 53 → t.gpio.out.getLsbD j = (s.gpio.out.getLsbD j && !decide (j ∈ s.cfg.digId.toList))))

/-- MXSW completes whenever both components exist: the cursor advances round-robin and nothing else of the block changes
but the response. The writes are, in this order, the pattern the host answers for the next digit, the clear of the
previous digit's enable, the latch pulse, and the set of the next digit's enable (43_digit_mux.md R114, R112). -/
def Obligations.MxswSwitchesToTheNextDigit : Prop :=
  ∀ s : State, Ready s → configWf s.cfg = true → s.blk.mxLive = true → s.blk.srLive = true →
    ∃ t, exec .mxsw s = .next t ∧ t.cfg = s.cfg ∧ t.blk.cursor.val = (s.blk.cursor.val + 1) % 4 ∧
      t.blk = { s.blk.completed 0 with cursor := t.blk.cursor } ∧ t.host = (patternAnswered s).host ∧
      t.trace = shiftTrace s.cfg s.blk (hostPattern t.blk.cursor s) ++
        clearTrace s.cfg s.blk (slotDig s.blk.cursor) ++ pulseTrace s.cfg s.blk slotRclk ++
        setTrace s.cfg s.blk (slotDig t.blk.cursor) ∧
      (s.cfg.otherMasters = false → t.gpio.fsel = s.gpio.fsel ∧ t.gpio = replay s.cfg s.gpio t.trace)

/-- MXTD completes whenever it is admitted and the Digit Set exists: slots 3 to 6 are empty, the cursor is 3 and the Digit
Set is gone. The trace is the four clears and then the releases of slots 6, 5, 4 and 3, each the read and the write of an
effective slot's field. Without another master every valid pin those slots held is an input with a low latch, and every
other latch and function is as before (43_digit_mux.md R115). -/
def Obligations.MxtdTearsDownTheDigitSet : Prop :=
  ∀ s : State, Admitted .mxtd s → configWf s.cfg = true → s.blk.mxLive = true →
    ∃ t, exec .mxtd s = .next t ∧ t.host = s.host ∧ t.cfg = s.cfg ∧
      (∀ k : Fin 4, t.blk.slot (slotDig k) = .empty) ∧
      (∀ j, (∀ k : Fin 4, j ≠ slotDig k) → t.blk.slot j = s.blk.slot j) ∧
      t.blk = { s.blk.completed 0 with slots := t.blk.slots, cursor := 3, mxLive := false } ∧
      (∃ e3 e2 e1 e0, ReleaseEvents s.cfg (s.blk.slot (slotDig 3)) e3 ∧
        ReleaseEvents s.cfg (s.blk.slot (slotDig 2)) e2 ∧ ReleaseEvents s.cfg (s.blk.slot (slotDig 1)) e1 ∧
        ReleaseEvents s.cfg (s.blk.slot (slotDig 0)) e0 ∧
        t.trace = clearTrace s.cfg s.blk (slotDig 0) ++ clearTrace s.cfg s.blk (slotDig 1) ++
          clearTrace s.cfg s.blk (slotDig 2) ++ clearTrace s.cfg s.blk (slotDig 3) ++ e3 ++ e2 ++ e1 ++ e0) ∧
      (s.cfg.otherMasters = false → ∀ j : Fin 64, j.val ≤ 53 →
        t.gpio.function j.val =
          (if ∃ k : Fin 4, s.blk.slot (slotDig k) = .pin j then fnInput else s.gpio.function j.val) ∧
        t.gpio.out.getLsbD j.val =
          (s.gpio.out.getLsbD j.val && !decide (∃ k : Fin 4, s.blk.slot (slotDig k) = .pin j)))

/-- The Digit Multiplexer's faults, in order: `NOT_INIT` of MXSW without either component and of MXTD without the Digit
Set; `ALREADY_INIT`, then `SLOT_BUSY`, then `DOUBLE_CLAIM` of MXINIT (60_exceptions.md R137, R138). -/
def Obligations.DigitMuxFaultsInOrder : Prop :=
  ∀ s : State, Ready s →
    ((s.blk.mxLive = false ∨ s.blk.srLive = false) → exec .mxsw s = .next (s.faulted .notInit 0xE0000000)) ∧
    (s.blk.mxLive = false → exec .mxtd s = .next (s.faulted .notInit 0xF0000000)) ∧
    (s.blk.mxLive = true → exec .mxinit s = .next (s.faulted .alreadyInit 0xD0000000)) ∧
    (s.blk.mxLive = false → (∃ k : Fin 4, s.blk.slot (slotDig k) ≠ .empty) →
      exec .mxinit s = .next (s.faulted .slotBusy 0xD0000000)) ∧
    (s.blk.mxLive = false → (∀ k : Fin 4, s.blk.slot (slotDig k) = .empty) → configWf s.cfg = true →
      (∃ (j : Nat) (k : Fin 4), j < nSlots ∧ s.blk.slot j = pinOf s.cfg.digId[k]) →
      exec .mxinit s = .next (s.faulted .doubleClaim 0xD0000000))

/-- After MXINIT and `n` MXSW commands, without another master: the cursor is `(n + 3) mod 4`; for `n ≥ 1` the enable line
of digit `(n - 1) mod 4` is high and the other three are low, and for `n = 0` all four are low (43_digit_mux.md R116). -/
def Obligations.SwitchesLightTheDigitsInTurn : Prop :=
  ∀ (n : Nat) (s s' t : State), Alone s → Ready s → s.blk.srLive = true → UniqueOwners s.blk → ShiftPinsReady s →
    exec .mxinit s = .next s' → s'.blk.rspStatus = .ok → execAll (List.replicate n .mxsw) s' = .next t →
    t.blk.rspStatus = .ok ∧ t.blk.cursor.val = (n + 3) % 4 ∧
    ∀ k : Fin 4, enabled t.cfg t.gpio k = decide (1 ≤ n ∧ k.val = (n - 1) % 4)

/-- After every bus write of MXINIT, MXSW and MXTD, without another master and from a working Digit Set or from a dark
display without one, at most one enable line is high: the peripheral after any number of the command's events never has
two (43_digit_mux.md R117). MXSW needs the shift register's pins, MXINIT and MXTD do not. -/
def Obligations.NeverTwoDigitsLit : Prop :=
  ∀ s : State, Alone s → UniqueOwners s.blk → (s.blk.mxLive = true → MuxWorking s) →
    (s.blk.mxLive = false → AllDark s.cfg s.gpio) →
    ∀ i, (i = .mxinit ∨ i = .mxtd ∨ (i = .mxsw ∧ ShiftPinsReady s)) → ∃ t, exec i s = .next t ∧
      t.gpio = replay s.cfg s.gpio t.trace ∧
      ∀ n : Nat, AtMostOneEnabled s.cfg (replay s.cfg s.gpio (t.trace.take n))

/-- Inside MXSW no enable line is high from the clear of the previous digit to the set of the next one, so that the latch
pulse happens while the display is dark, and exactly the next digit is enabled after it (43_digit_mux.md R117, R153). -/
def Obligations.LatchHappensInTheDark : Prop :=
  ∀ s : State, Alone s → Ready s → s.blk.srLive = true → UniqueOwners s.blk → MuxWorking s → ShiftPinsReady s →
    ∃ t, exec .mxsw s = .next t ∧ t.trace.length = 28 ∧
      AllDark s.cfg (replay s.cfg s.gpio (t.trace.take 25)) ∧
      AllDark s.cfg (replay s.cfg s.gpio (t.trace.take 26)) ∧
      AllDark s.cfg (replay s.cfg s.gpio (t.trace.take 27)) ∧
      ∀ k : Fin 4, enabled t.cfg t.gpio k = decide (k = t.blk.cursor)

/-- After an MXSW that answered `pat`, the output latch holds `pat` and the display shows on the cursor's position the
segments whose output is 0, and nothing elsewhere (43_digit_mux.md R118). -/
def Obligations.SwitchShowsThePattern : Prop :=
  ∀ s : State, Alone s → Ready s → s.blk.srLive = true → UniqueOwners s.blk → MuxWorking s → ShiftPinsReady s →
    ClocksLow s →
    ∃ t, exec .mxsw s = .next t ∧ t.ext.lat = hostPattern t.blk.cursor s ∧
      ∀ (k : Fin 4) (j : Fin 8), lit t.cfg t.gpio t.ext k j =
        (decide (k = t.blk.cursor) && !(hostPattern t.blk.cursor s).getLsbD t.cfg.qmap[j].val)

/-- Shutdown: MXTD and then SRTD from a working display leave the seven wired pins inputs, the four enable latches, the
shift-clock and the latch-clock latch low, the serial-in latch high, every slot of the two components empty and the display
dark; the storage is 0xFF and the output latch holds the last pattern when the blank pattern has been shifted out, and at
the end, as 70_reset_and_hazards.md R151 has it, whenever the device saw the clocks low after each release, and so when it
sees a released line at its latch's level. Where 10_state.md R33 lets it see another level, the storage has at most a 0
shifted in and the output latch holds the last pattern or the blank one (log 32). That an undriven digit is dark is
log 16. -/
def Obligations.ShutdownEndState : Prop :=
  ∀ s : State, Alone s → Ready s → s.blk.srLive = true → UniqueOwners s.blk → MuxWorking s → ShiftPinsReady s →
    ClocksLow s →
    ∃ t1 t2, exec .mxtd s = .next t1 ∧ exec .srtd t1 = .next t2 ∧
      t1.ext.lat = s.ext.lat ∧ (shiftOut 0xFF t1.accept).ext.stor = 0xFF ∧
      (shiftOut 0xFF t1.accept).ext.lat = s.ext.lat ∧
      (t2.ext.stor = 0xFF ∨ t2.ext.stor = 0x7F) ∧ (t2.ext.lat = s.ext.lat ∨ t2.ext.lat = 0xFF) ∧
      (let B := releaseSlot slotRclk (shiftOut 0xFF t1.accept)
       let C := releaseSlot slotSrclk B
       let D := releaseSlot slotSer C
       SawClocksLow B → SawClocksLow C → SawClocksLow D → t2.ext.stor = 0xFF ∧ t2.ext.lat = s.ext.lat) ∧
      (s.cfg.undrivenLine = .held → t2.ext.stor = 0xFF ∧ t2.ext.lat = s.ext.lat) ∧
      (∀ id ∈ wiredIds s.cfg, t2.gpio.function id = fnInput) ∧
      (∀ k : Fin 4, t2.gpio.out.getLsbD s.cfg.digId[k] = false) ∧
      t2.gpio.out.getLsbD s.cfg.srclkId = false ∧ t2.gpio.out.getLsbD s.cfg.rclkId = false ∧
      t2.gpio.out.getLsbD s.cfg.serId = true ∧ t2.blk.srLive = false ∧ t2.blk.mxLive = false ∧
      (∀ k, k < 7 → t2.blk.slot k = .empty) ∧ AllDark t1.cfg t1.gpio ∧ AllDark t2.cfg t2.gpio

/-- The number of bus accesses of each command that completes, when the slots it uses are effective and its offset is valid,
and how many of them are reads, is that of the timing table; a faulting or refused command makes none
(70_reset_and_hazards.md R164). -/
def Obligations.BusAccessCounts : Prop :=
  ∀ (i : Instr) (s t : State), configWf s.cfg = true → exec i s = .next t →
    let effective := fun (slots : List Nat) => ∀ j ∈ slots, (s.blk.slot j).effective = true
    let counts := fun (accesses reads : Nat) => t.trace.length = accesses ∧ (readsOf t.trace).length = reads
    (t.blk.rspStatus ≠ .ok → counts 0 0) ∧
    (t.blk.rspStatus = .ok →
      (∀ off w p v, i = .wrf off w p v → off < s.cfg.blockWords → counts 2 1) ∧
      (∀ off w p, i = .rdf off w p → off < s.cfg.blockWords → counts 1 1) ∧
      (∀ slot id, i = .pclm slot id → id ≤ 53 → counts 2 1) ∧
      (∀ slot, (s.blk.slot slot).effective = true → (i = .prel slot → counts 2 1) ∧
        (i = .pset slot → counts 1 0) ∧ (i = .pclr slot → counts 1 0) ∧ (i = .ppls slot → counts 2 0)) ∧
      (∀ dst src, i = .pmov dst src → counts 0 0) ∧ (i = .srinit → counts 9 3) ∧ (i = .mxinit → counts 12 4) ∧
      (∀ b, i = .srwr b → effective [slotSer, slotSrclk] → counts 24 0) ∧
      (i = .srfl → effective [slotRclk] → counts 2 0) ∧
      (i = .srtd → effective [slotSer, slotSrclk, slotRclk] → counts 30 3) ∧
      (i = .mxsw → effective [slotSer, slotSrclk, slotRclk, slotDig s.blk.cursor, slotDig (s.blk.cursor + 1)] →
        counts 28 0) ∧
      (i = .mxtd → effective [slotDig 0, slotDig 1, slotDig 2, slotDig 3] → counts 12 4))

/-! ### The other master and the host -/

/-- What another master does to the window never reaches the block's own state: two runs of a command from states with
the same block, the same configuration and the same host differ in the block only in the data an RDF returns
(10_state.md R27, 20_memory.md R52, R53). -/
def Obligations.OtherMasterCannotTouchTheBlock : Prop :=
  ∀ (i : Instr) (s s' t t' : State), s.blk = s'.blk → s.cfg = s'.cfg → s.host.mapped = s'.host.mapped →
    exec i s = .next t → exec i s' = .next t' →
    t.blk = { t'.blk with rspData := t.blk.rspData } ∧
    ((∀ off w p, i ≠ .rdf off w p) → t.blk.rspData = t'.blk.rspData)

/-- The four nibbles of a packed time are the tens and units of the hours and of the minutes, in this order
(44_host_side.md R120, R122). -/
def Obligations.NibblesAreTheTimesDigits : Prop :=
  ∀ h m : Nat, h < 100 → m < 100 →
    (nibble (packTime h m) 0).toNat = h / 10 ∧ (nibble (packTime h m) 1).toNat = h % 10 ∧
    (nibble (packTime h m) 2).toNat = m / 10 ∧ (nibble (packTime h m) 3).toNat = m % 10

/-- For every integer, the lookup with the point clears exactly the point bit of the lookup without it, which is set there;
outside 0..15 the lookup is all segments off (44_host_side.md R127, R125). -/
def Obligations.PointClearsExactlyOneBit : Prop :=
  ∀ (c : Config) (v : Int), configWf c = true →
    (segp c v false).getLsbD c.pointBit.val = true ∧
    (∀ i : Nat, i < 8 → (segp c v true).getLsbD i =
      ((segp c v false).getLsbD i && !decide (i = c.pointBit.val))) ∧
    ((v < 0 ∨ 15 < v) → seg c v = 0xFF)

/-- While the refresh loop runs and no other answer is queued, an MXSW shows the host's answer for the next digit: the
pattern of its nibble of the Display Value, with the point when it blinks on that position; the Display Value is read once
and not changed (44_host_side.md R130, R123, R124). -/
def Obligations.RefreshLoopShowsTheDisplayValue : Prop :=
  ∀ s : State, Ready s → configWf s.cfg = true → s.blk.mxLive = true → s.blk.srLive = true →
    s.host.phase = .refresh → s.host.answers = [] →
    ∃ t, exec .mxsw s = .next t ∧ t.host = s.host ∧
      shiftTrace s.cfg s.blk (segp s.cfg (nibble s.host.display.packed t.blk.cursor).toNat
        (s.host.display.blink && decide (t.blk.cursor = s.cfg.pointPos))) <+: t.trace

/-- The host boots a mapped, fresh block with SRINIT and then MXINIT, and its next turn presents the first MXSW: five steps
without outside inputs and another master, for every state of the peripheral and the circuit (70_reset_and_hazards.md
R150). R150 gives the order; that these are five steps, one host action a turn, and the phase reached are the model's
choice (logs 9 and 10). -/
def Obligations.HostBootsTheDisplay : Prop :=
  ∀ s : State, Alone s → s.blk = Block.reset → s.host.mapped = true → s.host.port = [] → s.host.inputs = [] →
    s.host.phase = .boot → s.host.stop = false →
    ∃ t, Sys2Proof.core.run 5 s = .next t ∧ t.blk.srLive = true ∧ t.blk.mxLive = true ∧ t.blk.rspStatus = .ok ∧
      t.host.phase = .refresh ∧ t.host.port = encode .mxsw ∧ AllDark t.cfg t.gpio ∧ ShiftPinsReady t ∧
      DigitPinsReady t

/-- When the stop flag is set, the host's refresh loop presents no further MXSW: its next turn presents MXTD, the one after
it SRTD, and then the process exits with code 0 (44_host_side.md R133, 70_reset_and_hazards.md R151). The rules give the
order; the step counts 1, 3 and 5, one host action a turn, and the phase `exited` are the model's choice (logs 9 and 10).
So is it that the host goes on to SRTD and exit code 0 also when MXTD or SRTD answers FAULT, which the hypotheses allow: it
does not look at the responses (log 36). -/
def Obligations.StopLeadsToTeardown : Prop :=
  ∀ s : State, configWf s.cfg = true → s.blk.busy = false → s.host.port = [] → s.host.inputs = [] →
    s.host.phase = .refresh → s.host.stop = true →
    ∃ t1 t3 t5, Sys2Proof.core.run 1 s = .next t1 ∧ Sys2Proof.core.run 3 s = .next t3 ∧
      Sys2Proof.core.run 5 s = .next t5 ∧ t1.host.port = encode .mxtd ∧ t3.host.port = encode .srtd ∧
      t5.host.phase = .exited 0 ∧ t5.host.port = []
end

