-- ==== Sys2Proof/Laws/State.lean ====
section
/-! SUPPORT. One lemma for each field and each update of the state, true by unfolding, so that no proof unfolds a record
update. -/

namespace Sys2Proof.Machine

open Sys2Proof

/-! ### `State.onBlk` -/

@[simp] theorem State.onBlk_cfg (s : State) (f : Block → Block) : (s.onBlk f).cfg = s.cfg := rfl
@[simp] theorem State.onBlk_blk (s : State) (f : Block → Block) : (s.onBlk f).blk = f s.blk := rfl
@[simp] theorem State.onBlk_gpio (s : State) (f : Block → Block) : (s.onBlk f).gpio = s.gpio := rfl
@[simp] theorem State.onBlk_ext (s : State) (f : Block → Block) : (s.onBlk f).ext = s.ext := rfl
@[simp] theorem State.onBlk_host (s : State) (f : Block → Block) : (s.onBlk f).host = s.host := rfl
@[simp] theorem State.onBlk_other (s : State) (f : Block → Block) : (s.onBlk f).other = s.other := rfl
@[simp] theorem State.onBlk_draws (s : State) (f : Block → Block) : (s.onBlk f).draws = s.draws := rfl
@[simp] theorem State.onBlk_trace (s : State) (f : Block → Block) : (s.onBlk f).trace = s.trace := rfl

/-! ### `State.onHost` -/

@[simp] theorem State.onHost_cfg (s : State) (f : HostSide → HostSide) : (s.onHost f).cfg = s.cfg := rfl
@[simp] theorem State.onHost_blk (s : State) (f : HostSide → HostSide) : (s.onHost f).blk = s.blk := rfl
@[simp] theorem State.onHost_gpio (s : State) (f : HostSide → HostSide) : (s.onHost f).gpio = s.gpio := rfl
@[simp] theorem State.onHost_ext (s : State) (f : HostSide → HostSide) : (s.onHost f).ext = s.ext := rfl
@[simp] theorem State.onHost_host (s : State) (f : HostSide → HostSide) : (s.onHost f).host = f s.host := rfl
@[simp] theorem State.onHost_other (s : State) (f : HostSide → HostSide) : (s.onHost f).other = s.other := rfl
@[simp] theorem State.onHost_draws (s : State) (f : HostSide → HostSide) : (s.onHost f).draws = s.draws := rfl
@[simp] theorem State.onHost_trace (s : State) (f : HostSide → HostSide) : (s.onHost f).trace = s.trace := rfl

/-! ### `State.setSlot` -/

@[simp] theorem State.setSlot_cfg (s : State) (i : Nat) (v : Slot) : (s.setSlot i v).cfg = s.cfg := rfl
@[simp] theorem State.setSlot_blk (s : State) (i : Nat) (v : Slot) : (s.setSlot i v).blk = s.blk.setSlot i v := rfl
@[simp] theorem State.setSlot_gpio (s : State) (i : Nat) (v : Slot) : (s.setSlot i v).gpio = s.gpio := rfl
@[simp] theorem State.setSlot_ext (s : State) (i : Nat) (v : Slot) : (s.setSlot i v).ext = s.ext := rfl
@[simp] theorem State.setSlot_host (s : State) (i : Nat) (v : Slot) : (s.setSlot i v).host = s.host := rfl
@[simp] theorem State.setSlot_other (s : State) (i : Nat) (v : Slot) : (s.setSlot i v).other = s.other := rfl
@[simp] theorem State.setSlot_draws (s : State) (i : Nat) (v : Slot) : (s.setSlot i v).draws = s.draws := rfl
@[simp] theorem State.setSlot_trace (s : State) (i : Nat) (v : Slot) : (s.setSlot i v).trace = s.trace := rfl

/-! ### `State.setRspData` -/

@[simp] theorem State.setRspData_cfg (s : State) (v : Word) : (s.setRspData v).cfg = s.cfg := rfl
@[simp] theorem State.setRspData_blk (s : State) (v : Word) : (s.setRspData v).blk = s.blk.setRspData v := rfl
@[simp] theorem State.setRspData_gpio (s : State) (v : Word) : (s.setRspData v).gpio = s.gpio := rfl
@[simp] theorem State.setRspData_ext (s : State) (v : Word) : (s.setRspData v).ext = s.ext := rfl
@[simp] theorem State.setRspData_host (s : State) (v : Word) : (s.setRspData v).host = s.host := rfl
@[simp] theorem State.setRspData_other (s : State) (v : Word) : (s.setRspData v).other = s.other := rfl
@[simp] theorem State.setRspData_draws (s : State) (v : Word) : (s.setRspData v).draws = s.draws := rfl
@[simp] theorem State.setRspData_trace (s : State) (v : Word) : (s.setRspData v).trace = s.trace := rfl

/-! ### `State.withPort` -/

@[simp] theorem State.withPort_cfg (s : State) (ws : List Word) : (s.withPort ws).cfg = s.cfg := rfl
@[simp] theorem State.withPort_blk (s : State) (ws : List Word) : (s.withPort ws).blk = s.blk := rfl
@[simp] theorem State.withPort_gpio (s : State) (ws : List Word) : (s.withPort ws).gpio = s.gpio := rfl
@[simp] theorem State.withPort_ext (s : State) (ws : List Word) : (s.withPort ws).ext = s.ext := rfl
@[simp] theorem State.withPort_host (s : State) (ws : List Word) : (s.withPort ws).host = { s.host with port := ws } := rfl
@[simp] theorem State.withPort_other (s : State) (ws : List Word) : (s.withPort ws).other = s.other := rfl
@[simp] theorem State.withPort_draws (s : State) (ws : List Word) : (s.withPort ws).draws = s.draws := rfl
@[simp] theorem State.withPort_trace (s : State) (ws : List Word) : (s.withPort ws).trace = s.trace := rfl

/-! ### `State.tick` -/

@[simp] theorem State.tick_cfg (s : State) : (s.tick).cfg = s.cfg := rfl
@[simp] theorem State.tick_blk (s : State) : (s.tick).blk = s.blk := rfl
@[simp] theorem State.tick_gpio (s : State) : (s.tick).gpio = s.gpio := rfl
@[simp] theorem State.tick_ext (s : State) : (s.tick).ext = s.ext := rfl
@[simp] theorem State.tick_host (s : State) : (s.tick).host = s.host := rfl
@[simp] theorem State.tick_other (s : State) : (s.tick).other = s.other := rfl
@[simp] theorem State.tick_draws (s : State) : (s.tick).draws = s.draws + 1 := rfl
@[simp] theorem State.tick_trace (s : State) : (s.tick).trace = s.trace := rfl

/-! ### `State.record` -/

@[simp] theorem State.record_cfg (s : State) (e : BusEvent) : (s.record e).cfg = s.cfg := rfl
@[simp] theorem State.record_blk (s : State) (e : BusEvent) : (s.record e).blk = s.blk := rfl
@[simp] theorem State.record_gpio (s : State) (e : BusEvent) : (s.record e).gpio = s.gpio := rfl
@[simp] theorem State.record_ext (s : State) (e : BusEvent) : (s.record e).ext = s.ext := rfl
@[simp] theorem State.record_host (s : State) (e : BusEvent) : (s.record e).host = s.host := rfl
@[simp] theorem State.record_other (s : State) (e : BusEvent) : (s.record e).other = s.other := rfl
@[simp] theorem State.record_draws (s : State) (e : BusEvent) : (s.record e).draws = s.draws := rfl
@[simp] theorem State.record_trace (s : State) (e : BusEvent) : (s.record e).trace = s.trace ++ [e] := rfl

/-! ### `State.accept` -/

@[simp] theorem State.accept_cfg (s : State) : (s.accept).cfg = s.cfg := rfl
@[simp] theorem State.accept_blk (s : State) : (s.accept).blk = { s.blk with busy := true } := rfl
@[simp] theorem State.accept_gpio (s : State) : (s.accept).gpio = s.gpio := rfl
@[simp] theorem State.accept_ext (s : State) : (s.accept).ext = s.ext := rfl
@[simp] theorem State.accept_host (s : State) : (s.accept).host = s.host := rfl
@[simp] theorem State.accept_other (s : State) : (s.accept).other = s.other := rfl
@[simp] theorem State.accept_draws (s : State) : (s.accept).draws = s.draws := rfl
@[simp] theorem State.accept_trace (s : State) : (s.accept).trace = [] := rfl

/-! ### `State.respond` -/

@[simp] theorem State.respond_cfg (s : State) (r : RspStatus) : (s.respond r).cfg = s.cfg := rfl
@[simp] theorem State.respond_blk (s : State) (r : RspStatus) : (s.respond r).blk = { s.blk with rspStatus := r, busy := false } := rfl
@[simp] theorem State.respond_gpio (s : State) (r : RspStatus) : (s.respond r).gpio = s.gpio := rfl
@[simp] theorem State.respond_ext (s : State) (r : RspStatus) : (s.respond r).ext = s.ext := rfl
@[simp] theorem State.respond_host (s : State) (r : RspStatus) : (s.respond r).host = s.host := rfl
@[simp] theorem State.respond_other (s : State) (r : RspStatus) : (s.respond r).other = s.other := rfl
@[simp] theorem State.respond_draws (s : State) (r : RspStatus) : (s.respond r).draws = s.draws := rfl
@[simp] theorem State.respond_trace (s : State) (r : RspStatus) : (s.respond r).trace = s.trace := rfl

/-! ### `Block.setSlot` -/

@[simp] theorem Block.setSlot_slots (b : Block) (i : Nat) (v : Slot) : (b.setSlot i v).slots = b.slots.setIfInBounds i v := rfl
@[simp] theorem Block.setSlot_srLive (b : Block) (i : Nat) (v : Slot) : (b.setSlot i v).srLive = b.srLive := rfl
@[simp] theorem Block.setSlot_mxLive (b : Block) (i : Nat) (v : Slot) : (b.setSlot i v).mxLive = b.mxLive := rfl
@[simp] theorem Block.setSlot_cursor (b : Block) (i : Nat) (v : Slot) : (b.setSlot i v).cursor = b.cursor := rfl
@[simp] theorem Block.setSlot_fault (b : Block) (i : Nat) (v : Slot) : (b.setSlot i v).fault = b.fault := rfl
@[simp] theorem Block.setSlot_busy (b : Block) (i : Nat) (v : Slot) : (b.setSlot i v).busy = b.busy := rfl
@[simp] theorem Block.setSlot_rspStatus (b : Block) (i : Nat) (v : Slot) : (b.setSlot i v).rspStatus = b.rspStatus := rfl
@[simp] theorem Block.setSlot_rspData (b : Block) (i : Nat) (v : Slot) : (b.setSlot i v).rspData = b.rspData := rfl

/-! ### `Block.setSrLive` -/

@[simp] theorem Block.setSrLive_slots (b : Block) (v : Bool) : (b.setSrLive v).slots = b.slots := rfl
@[simp] theorem Block.setSrLive_srLive (b : Block) (v : Bool) : (b.setSrLive v).srLive = v := rfl
@[simp] theorem Block.setSrLive_mxLive (b : Block) (v : Bool) : (b.setSrLive v).mxLive = b.mxLive := rfl
@[simp] theorem Block.setSrLive_cursor (b : Block) (v : Bool) : (b.setSrLive v).cursor = b.cursor := rfl
@[simp] theorem Block.setSrLive_fault (b : Block) (v : Bool) : (b.setSrLive v).fault = b.fault := rfl
@[simp] theorem Block.setSrLive_busy (b : Block) (v : Bool) : (b.setSrLive v).busy = b.busy := rfl
@[simp] theorem Block.setSrLive_rspStatus (b : Block) (v : Bool) : (b.setSrLive v).rspStatus = b.rspStatus := rfl
@[simp] theorem Block.setSrLive_rspData (b : Block) (v : Bool) : (b.setSrLive v).rspData = b.rspData := rfl
@[simp] theorem Block.setSrLive_slot (b : Block) (v : Bool) (j : Nat) : (b.setSrLive v).slot j = b.slot j := rfl

/-! ### `Block.setMxLive` -/

@[simp] theorem Block.setMxLive_slots (b : Block) (v : Bool) : (b.setMxLive v).slots = b.slots := rfl
@[simp] theorem Block.setMxLive_srLive (b : Block) (v : Bool) : (b.setMxLive v).srLive = b.srLive := rfl
@[simp] theorem Block.setMxLive_mxLive (b : Block) (v : Bool) : (b.setMxLive v).mxLive = v := rfl
@[simp] theorem Block.setMxLive_cursor (b : Block) (v : Bool) : (b.setMxLive v).cursor = b.cursor := rfl
@[simp] theorem Block.setMxLive_fault (b : Block) (v : Bool) : (b.setMxLive v).fault = b.fault := rfl
@[simp] theorem Block.setMxLive_busy (b : Block) (v : Bool) : (b.setMxLive v).busy = b.busy := rfl
@[simp] theorem Block.setMxLive_rspStatus (b : Block) (v : Bool) : (b.setMxLive v).rspStatus = b.rspStatus := rfl
@[simp] theorem Block.setMxLive_rspData (b : Block) (v : Bool) : (b.setMxLive v).rspData = b.rspData := rfl
@[simp] theorem Block.setMxLive_slot (b : Block) (v : Bool) (j : Nat) : (b.setMxLive v).slot j = b.slot j := rfl

/-! ### `Block.setCursor` -/

@[simp] theorem Block.setCursor_slots (b : Block) (v : Fin 4) : (b.setCursor v).slots = b.slots := rfl
@[simp] theorem Block.setCursor_srLive (b : Block) (v : Fin 4) : (b.setCursor v).srLive = b.srLive := rfl
@[simp] theorem Block.setCursor_mxLive (b : Block) (v : Fin 4) : (b.setCursor v).mxLive = b.mxLive := rfl
@[simp] theorem Block.setCursor_cursor (b : Block) (v : Fin 4) : (b.setCursor v).cursor = v := rfl
@[simp] theorem Block.setCursor_fault (b : Block) (v : Fin 4) : (b.setCursor v).fault = b.fault := rfl
@[simp] theorem Block.setCursor_busy (b : Block) (v : Fin 4) : (b.setCursor v).busy = b.busy := rfl
@[simp] theorem Block.setCursor_rspStatus (b : Block) (v : Fin 4) : (b.setCursor v).rspStatus = b.rspStatus := rfl
@[simp] theorem Block.setCursor_rspData (b : Block) (v : Fin 4) : (b.setCursor v).rspData = b.rspData := rfl
@[simp] theorem Block.setCursor_slot (b : Block) (v : Fin 4) (j : Nat) : (b.setCursor v).slot j = b.slot j := rfl

/-! ### `Block.setRspData` -/

@[simp] theorem Block.setRspData_slots (b : Block) (v : Word) : (b.setRspData v).slots = b.slots := rfl
@[simp] theorem Block.setRspData_srLive (b : Block) (v : Word) : (b.setRspData v).srLive = b.srLive := rfl
@[simp] theorem Block.setRspData_mxLive (b : Block) (v : Word) : (b.setRspData v).mxLive = b.mxLive := rfl
@[simp] theorem Block.setRspData_cursor (b : Block) (v : Word) : (b.setRspData v).cursor = b.cursor := rfl
@[simp] theorem Block.setRspData_fault (b : Block) (v : Word) : (b.setRspData v).fault = b.fault := rfl
@[simp] theorem Block.setRspData_busy (b : Block) (v : Word) : (b.setRspData v).busy = b.busy := rfl
@[simp] theorem Block.setRspData_rspStatus (b : Block) (v : Word) : (b.setRspData v).rspStatus = b.rspStatus := rfl
@[simp] theorem Block.setRspData_rspData (b : Block) (v : Word) : (b.setRspData v).rspData = v := rfl
@[simp] theorem Block.setRspData_slot (b : Block) (v : Word) (j : Nat) : (b.setRspData v).slot j = b.slot j := rfl

/-! ### Slots -/

/-- Reading a slot after writing one. -/
theorem Block.setSlot_slot (b : Block) (i j : Nat) (v : Slot) :
    (b.setSlot i v).slot j = if i = j ∧ j < nSlots then v else b.slot j := by
  simp only [Block.slot, Block.setSlot, Vector.getElem?_setIfInBounds, nSlots]
  by_cases h : i = j
  · subst h
    by_cases hi : i < 16 <;> simp [hi]
  · simp [h]

@[simp] theorem Block.setSlot_slot_self (b : Block) (i : Nat) (v : Slot) (h : i < nSlots) :
    (b.setSlot i v).slot i = v := by simp [Block.setSlot_slot, h]

@[simp] theorem Block.setSlot_slot_ne (b : Block) (i j : Nat) (v : Slot) (h : i ≠ j) :
    (b.setSlot i v).slot j = b.slot j := by simp [Block.setSlot_slot, h]

/-- A slot does not depend on `S.busy`. -/
@[simp] theorem Block.busy_slot (b : Block) (v : Bool) (j : Nat) : ({ b with busy := v } : Block).slot j = b.slot j := rfl

/-- A slot does not depend on the response. -/
@[simp] theorem Block.respond_slot (b : Block) (r : RspStatus) (v : Bool) (j : Nat) :
    ({ b with rspStatus := r, busy := v } : Block).slot j = b.slot j := rfl

/-- Every slot is `Empty` after reset (10_state.md R37). -/
@[simp] theorem Block.reset_slot (j : Nat) : Block.reset.slot j = .empty := by
  simp only [Block.slot, Block.reset, Vector.getElem?_replicate]
  split <;> rfl

end Sys2Proof.Machine
end

