-- ==== Sys2Proof/Laws/Bus.lean ====
section
/-! SUPPORT. What each bus operation leaves alone (the configuration, the block, the host's side), the events it appends,
and what it does to the peripheral when there is no other master. -/

namespace Sys2Proof.Machine

open Sys2Proof

/-! ### Sampling -/

@[simp] theorem State.sampled_cfg (s : State) (id : Nat) : (s.sampled id).cfg = s.cfg := by
  unfold State.sampled; split <;> rfl
@[simp] theorem State.sampled_blk (s : State) (id : Nat) : (s.sampled id).blk = s.blk := by
  unfold State.sampled; split <;> rfl
@[simp] theorem State.sampled_gpio (s : State) (id : Nat) : (s.sampled id).gpio = s.gpio := by
  unfold State.sampled; split <;> rfl
@[simp] theorem State.sampled_ext (s : State) (id : Nat) : (s.sampled id).ext = s.ext := by
  unfold State.sampled; split <;> rfl
@[simp] theorem State.sampled_host (s : State) (id : Nat) : (s.sampled id).host = s.host := by
  unfold State.sampled; split <;> rfl
@[simp] theorem State.sampled_other (s : State) (id : Nat) : (s.sampled id).other = s.other := by
  unfold State.sampled; split <;> rfl
@[simp] theorem State.sampled_trace (s : State) (id : Nat) : (s.sampled id).trace = s.trace := by
  unfold State.sampled; split <;> rfl

@[simp] theorem sampleExt_cfg (s : State) : (sampleExt s).cfg = s.cfg := by simp [sampleExt]
@[simp] theorem sampleExt_blk (s : State) : (sampleExt s).blk = s.blk := by simp [sampleExt]
@[simp] theorem sampleExt_gpio (s : State) : (sampleExt s).gpio = s.gpio := by simp [sampleExt]
@[simp] theorem sampleExt_host (s : State) : (sampleExt s).host = s.host := by simp [sampleExt]
@[simp] theorem sampleExt_other (s : State) : (sampleExt s).other = s.other := by simp [sampleExt]
@[simp] theorem sampleExt_trace (s : State) : (sampleExt s).trace = s.trace := by simp [sampleExt]

/-- Everything a sample can do when the three lines are driven: the device reacts to their levels (10_state.md R35). -/
theorem sampleExt_driven (s : State) (a b c : Bool) (ha : s.gpio.line s.cfg.srclkId = some a)
    (hb : s.gpio.line s.cfg.rclkId = some b) (hc : s.gpio.line s.cfg.serId = some c) :
    sampleExt s = { s with ext := s.ext.clock a b c } := by
  have h1 : s.sampled s.cfg.srclkId = s := by simp [State.sampled, ha]
  have h2 : s.sampled s.cfg.rclkId = s := by simp [State.sampled, hb]
  have h3 : s.sampled s.cfg.serId = s := by simp [State.sampled, hc]
  simp [sampleExt, h1, h2, h3, State.sampleBit, ha, hb, hc]

@[simp] theorem writeEffect_cfg (off : Nat) (v : Word) (s : State) : (writeEffect off v s).cfg = s.cfg := by
  simp [writeEffect]
@[simp] theorem writeEffect_blk (off : Nat) (v : Word) (s : State) : (writeEffect off v s).blk = s.blk := by
  simp [writeEffect]
@[simp] theorem writeEffect_gpio (off : Nat) (v : Word) (s : State) :
    (writeEffect off v s).gpio = s.gpio.write s.cfg off v := by simp [writeEffect]
@[simp] theorem writeEffect_host (off : Nat) (v : Word) (s : State) : (writeEffect off v s).host = s.host := by
  simp [writeEffect]
@[simp] theorem writeEffect_other (off : Nat) (v : Word) (s : State) : (writeEffect off v s).other = s.other := by
  simp [writeEffect]
@[simp] theorem writeEffect_trace (off : Nat) (v : Word) (s : State) : (writeEffect off v s).trace = s.trace := by
  simp [writeEffect]

/-! ### The other master -/

@[simp] theorem otherAccess_cfg (s : State) (a : OtherAccess) : (otherAccess s a).cfg = s.cfg := by
  cases a <;> simp only [otherAccess]; split <;> simp
@[simp] theorem otherAccess_blk (s : State) (a : OtherAccess) : (otherAccess s a).blk = s.blk := by
  cases a <;> simp only [otherAccess]; split <;> simp
@[simp] theorem otherAccess_host (s : State) (a : OtherAccess) : (otherAccess s a).host = s.host := by
  cases a <;> simp only [otherAccess]; split <;> simp
@[simp] theorem otherAccess_trace (s : State) (a : OtherAccess) : (otherAccess s a).trace = s.trace := by
  cases a <;> simp only [otherAccess]; split <;> simp

theorem foldl_otherAccess (acts : List OtherAccess) (s : State) :
    (acts.foldl otherAccess s).cfg = s.cfg ∧ (acts.foldl otherAccess s).blk = s.blk ∧
    (acts.foldl otherAccess s).host = s.host ∧ (acts.foldl otherAccess s).trace = s.trace := by
  induction acts generalizing s with
  | nil => simp
  | cons a rest ih => simpa using ih (otherAccess s a)

theorem otherActs_keeps (s : State) :
    (otherActs s).cfg = s.cfg ∧ (otherActs s).blk = s.blk ∧ (otherActs s).host = s.host ∧
    (otherActs s).trace = s.trace := by
  unfold otherActs
  split
  · split
    · simp
    · rename_i acts rest _
      exact foldl_otherAccess acts { s with other := rest }
  · simp

@[simp] theorem otherActs_cfg (s : State) : (otherActs s).cfg = s.cfg := (otherActs_keeps s).1
@[simp] theorem otherActs_blk (s : State) : (otherActs s).blk = s.blk := (otherActs_keeps s).2.1
@[simp] theorem otherActs_host (s : State) : (otherActs s).host = s.host := (otherActs_keeps s).2.2.1
@[simp] theorem otherActs_trace (s : State) : (otherActs s).trace = s.trace := (otherActs_keeps s).2.2.2

/-- When there is no other master, it has no step (20_memory.md R52). -/
theorem otherActs_alone (s : State) (h : s.cfg.otherMasters = false) : otherActs s = s := by simp [otherActs, h]

/-! ### The bus primitives -/

@[simp] theorem memRead_cfg (off : Nat) (s : State) : (memRead off s).2.cfg = s.cfg := by
  simp only [memRead, State.record_cfg]; split <;> simp
@[simp] theorem memRead_blk (off : Nat) (s : State) : (memRead off s).2.blk = s.blk := by
  simp only [memRead, State.record_blk]; split <;> simp
@[simp] theorem memRead_host (off : Nat) (s : State) : (memRead off s).2.host = s.host := by
  simp only [memRead, State.record_host]; split <;> simp
/-- A read appends its event (20_memory.md R40). -/
@[simp] theorem memRead_trace (off : Nat) (s : State) :
    (memRead off s).2.trace = s.trace ++ [.read off (memRead off s).1] := by
  simp only [memRead, State.record_trace]; split <;> simp

/-- A read has no side effect on `P` or `E` (20_memory.md R47). -/
theorem memRead_alone (off : Nat) (s : State) (h : s.cfg.otherMasters = false) :
    (memRead off s).1 = s.readValue off ∧ (memRead off s).2.gpio = s.gpio ∧ (memRead off s).2.ext = s.ext ∧
    (memRead off s).2.other = s.other := by
  simp only [memRead, otherActs_alone s h, State.record_gpio, State.record_ext, State.record_other]
  split <;> simp

@[simp] theorem memWrite_cfg (off : Nat) (v : Word) (s : State) : (memWrite off v s).cfg = s.cfg := by simp [memWrite]
@[simp] theorem memWrite_blk (off : Nat) (v : Word) (s : State) : (memWrite off v s).blk = s.blk := by simp [memWrite]
@[simp] theorem memWrite_host (off : Nat) (v : Word) (s : State) : (memWrite off v s).host = s.host := by
  simp [memWrite]
/-- A write appends its event (20_memory.md R40). -/
@[simp] theorem memWrite_trace (off : Nat) (v : Word) (s : State) :
    (memWrite off v s).trace = s.trace ++ [.write off v] := by simp [memWrite]

/-- Everything a write does when there is no other master. -/
theorem memWrite_alone (off : Nat) (v : Word) (s : State) (h : s.cfg.otherMasters = false) :
    memWrite off v s = (writeEffect off v s).record (.write off v) := by simp [memWrite, otherActs_alone s h]

/-- The peripheral after a write, when there is no other master. -/
theorem memWrite_gpio (off : Nat) (v : Word) (s : State) (h : s.cfg.otherMasters = false) :
    (memWrite off v s).gpio = s.gpio.write s.cfg off v := by simp [memWrite_alone off v s h]

/-! ### `regWrite` leaves the configuration, the block and the host alone -/

@[simp] theorem regWrite_cfg (off : Nat) (v : Word) (s : State) : (regWrite off v s).cfg = s.cfg := by unfold regWrite; split <;> simp
@[simp] theorem regWrite_blk (off : Nat) (v : Word) (s : State) : (regWrite off v s).blk = s.blk := by unfold regWrite; split <;> simp
@[simp] theorem regWrite_host (off : Nat) (v : Word) (s : State) : (regWrite off v s).host = s.host := by unfold regWrite; split <;> simp

/-! ### `maskedWrite` leaves the configuration, the block and the host alone -/

@[simp] theorem maskedWrite_cfg (off w p : Nat) (v : Word) (s : State) : (maskedWrite off w p v s).cfg = s.cfg := by unfold maskedWrite; split <;> simp
@[simp] theorem maskedWrite_blk (off w p : Nat) (v : Word) (s : State) : (maskedWrite off w p v s).blk = s.blk := by unfold maskedWrite; split <;> simp
@[simp] theorem maskedWrite_host (off w p : Nat) (v : Word) (s : State) : (maskedWrite off w p v s).host = s.host := by unfold maskedWrite; split <;> simp

/-! ### `programFunction` leaves the configuration, the block and the host alone -/

@[simp] theorem programFunction_cfg (id : Nat) (fn : BitVec 3) (s : State) : (programFunction id fn s).cfg = s.cfg := by unfold programFunction; split <;> simp
@[simp] theorem programFunction_blk (id : Nat) (fn : BitVec 3) (s : State) : (programFunction id fn s).blk = s.blk := by unfold programFunction; split <;> simp
@[simp] theorem programFunction_host (id : Nat) (fn : BitVec 3) (s : State) : (programFunction id fn s).host = s.host := by unfold programFunction; split <;> simp

/-! ### `claimIO` leaves the configuration, the block and the host alone -/

@[simp] theorem claimIO_cfg (id : Nat) (s : State) : (claimIO id s).cfg = s.cfg := by simp [claimIO]
@[simp] theorem claimIO_blk (id : Nat) (s : State) : (claimIO id s).blk = s.blk := by simp [claimIO]
@[simp] theorem claimIO_host (id : Nat) (s : State) : (claimIO id s).host = s.host := by simp [claimIO]

/-! ### `releaseIO` leaves the configuration, the block and the host alone -/

@[simp] theorem releaseIO_cfg (id : Nat) (s : State) : (releaseIO id s).cfg = s.cfg := by simp [releaseIO]
@[simp] theorem releaseIO_blk (id : Nat) (s : State) : (releaseIO id s).blk = s.blk := by simp [releaseIO]
@[simp] theorem releaseIO_host (id : Nat) (s : State) : (releaseIO id s).host = s.host := by simp [releaseIO]

/-! ### `setIO` leaves the configuration, the block and the host alone -/

@[simp] theorem setIO_cfg (id : Nat) (s : State) : (setIO id s).cfg = s.cfg := by unfold setIO; split <;> simp
@[simp] theorem setIO_blk (id : Nat) (s : State) : (setIO id s).blk = s.blk := by unfold setIO; split <;> simp
@[simp] theorem setIO_host (id : Nat) (s : State) : (setIO id s).host = s.host := by unfold setIO; split <;> simp

/-! ### `clearIO` leaves the configuration, the block and the host alone -/

@[simp] theorem clearIO_cfg (id : Nat) (s : State) : (clearIO id s).cfg = s.cfg := by unfold clearIO; split <;> simp
@[simp] theorem clearIO_blk (id : Nat) (s : State) : (clearIO id s).blk = s.blk := by unfold clearIO; split <;> simp
@[simp] theorem clearIO_host (id : Nat) (s : State) : (clearIO id s).host = s.host := by unfold clearIO; split <;> simp

/-! ### `pulseIO` leaves the configuration, the block and the host alone -/

@[simp] theorem pulseIO_cfg (id : Nat) (s : State) : (pulseIO id s).cfg = s.cfg := by simp [pulseIO]
@[simp] theorem pulseIO_blk (id : Nat) (s : State) : (pulseIO id s).blk = s.blk := by simp [pulseIO]
@[simp] theorem pulseIO_host (id : Nat) (s : State) : (pulseIO id s).host = s.host := by simp [pulseIO]

/-! ### `slotSet` leaves the configuration, the block and the host alone -/

@[simp] theorem slotSet_cfg (i : Nat) (s : State) : (slotSet i s).cfg = s.cfg := by unfold slotSet onSlot; split <;> simp
@[simp] theorem slotSet_blk (i : Nat) (s : State) : (slotSet i s).blk = s.blk := by unfold slotSet onSlot; split <;> simp
@[simp] theorem slotSet_host (i : Nat) (s : State) : (slotSet i s).host = s.host := by unfold slotSet onSlot; split <;> simp

/-! ### `slotClear` leaves the configuration, the block and the host alone -/

@[simp] theorem slotClear_cfg (i : Nat) (s : State) : (slotClear i s).cfg = s.cfg := by unfold slotClear onSlot; split <;> simp
@[simp] theorem slotClear_blk (i : Nat) (s : State) : (slotClear i s).blk = s.blk := by unfold slotClear onSlot; split <;> simp
@[simp] theorem slotClear_host (i : Nat) (s : State) : (slotClear i s).host = s.host := by unfold slotClear onSlot; split <;> simp

/-! ### `slotPulse` leaves the configuration, the block and the host alone -/

@[simp] theorem slotPulse_cfg (i : Nat) (s : State) : (slotPulse i s).cfg = s.cfg := by unfold slotPulse onSlot; split <;> simp
@[simp] theorem slotPulse_blk (i : Nat) (s : State) : (slotPulse i s).blk = s.blk := by unfold slotPulse onSlot; split <;> simp
@[simp] theorem slotPulse_host (i : Nat) (s : State) : (slotPulse i s).host = s.host := by unfold slotPulse onSlot; split <;> simp

/-! ### `slotClaim` leaves the configuration, the block and the host alone -/

@[simp] theorem slotClaim_cfg (i : Nat) (s : State) : (slotClaim i s).cfg = s.cfg := by unfold slotClaim onSlot; split <;> simp
@[simp] theorem slotClaim_blk (i : Nat) (s : State) : (slotClaim i s).blk = s.blk := by unfold slotClaim onSlot; split <;> simp
@[simp] theorem slotClaim_host (i : Nat) (s : State) : (slotClaim i s).host = s.host := by unfold slotClaim onSlot; split <;> simp

/-! ### `slotRelease` leaves the configuration, the block and the host alone -/

@[simp] theorem slotRelease_cfg (i : Nat) (s : State) : (slotRelease i s).cfg = s.cfg := by unfold slotRelease onSlot; split <;> simp
@[simp] theorem slotRelease_blk (i : Nat) (s : State) : (slotRelease i s).blk = s.blk := by unfold slotRelease onSlot; split <;> simp
@[simp] theorem slotRelease_host (i : Nat) (s : State) : (slotRelease i s).host = s.host := by unfold slotRelease onSlot; split <;> simp

/-! ### `shiftBit` leaves the configuration, the block and the host alone -/

@[simp] theorem shiftBit_cfg (b : Bool) (s : State) : (shiftBit b s).cfg = s.cfg := by unfold shiftBit; split <;> simp
@[simp] theorem shiftBit_blk (b : Bool) (s : State) : (shiftBit b s).blk = s.blk := by unfold shiftBit; split <;> simp
@[simp] theorem shiftBit_host (b : Bool) (s : State) : (shiftBit b s).host = s.host := by unfold shiftBit; split <;> simp

/-! ### `shiftOut` and `latch` leave the configuration, the block and the host alone -/

theorem shiftBits_keeps (n : Nat) (v : Byte) (s : State) :
    (shiftBits n v s).cfg = s.cfg ∧ (shiftBits n v s).blk = s.blk ∧ (shiftBits n v s).host = s.host := by
  induction n generalizing v s with
  | zero => simp [shiftBits]
  | succ n ih => simpa [shiftBits] using ih (v >>> 1) (shiftBit (v.getLsbD 0) s)

@[simp] theorem shiftOut_cfg (v : Byte) (s : State) : (shiftOut v s).cfg = s.cfg := (shiftBits_keeps 8 v s).1
@[simp] theorem shiftOut_blk (v : Byte) (s : State) : (shiftOut v s).blk = s.blk := (shiftBits_keeps 8 v s).2.1
@[simp] theorem shiftOut_host (v : Byte) (s : State) : (shiftOut v s).host = s.host := (shiftBits_keeps 8 v s).2.2
@[simp] theorem latch_cfg (s : State) : (latch s).cfg = s.cfg := by simp [latch]
@[simp] theorem latch_blk (s : State) : (latch s).blk = s.blk := by simp [latch]
@[simp] theorem latch_host (s : State) : (latch s).host = s.host := by simp [latch]

@[simp] theorem releaseSlot_cfg (i : Nat) (s : State) : (releaseSlot i s).cfg = s.cfg := by simp [releaseSlot]
@[simp] theorem releaseSlot_blk (i : Nat) (s : State) : (releaseSlot i s).blk = s.blk.setSlot i .empty := by
  simp [releaseSlot]
@[simp] theorem releaseSlot_host (i : Nat) (s : State) : (releaseSlot i s).host = s.host := by simp [releaseSlot]

/-! ### `leaveUnspecified` draws the device's storage and output latch -/

@[simp] theorem leaveUnspecified_cfg (s : State) : (leaveUnspecified s).cfg = s.cfg := rfl
@[simp] theorem leaveUnspecified_blk (s : State) : (leaveUnspecified s).blk = s.blk := rfl
@[simp] theorem leaveUnspecified_gpio (s : State) : (leaveUnspecified s).gpio = s.gpio := rfl
@[simp] theorem leaveUnspecified_host (s : State) : (leaveUnspecified s).host = s.host := rfl
@[simp] theorem leaveUnspecified_other (s : State) : (leaveUnspecified s).other = s.other := rfl
@[simp] theorem leaveUnspecified_draws (s : State) : (leaveUnspecified s).draws = s.draws + 2 := rfl
@[simp] theorem leaveUnspecified_trace (s : State) : (leaveUnspecified s).trace = s.trace := rfl
@[simp] theorem leaveUnspecified_srclkPrev (s : State) : (leaveUnspecified s).ext.srclkPrev = s.ext.srclkPrev := rfl
@[simp] theorem leaveUnspecified_rclkPrev (s : State) : (leaveUnspecified s).ext.rclkPrev = s.ext.rclkPrev := rfl

/-- The host's answer changes nothing of the configuration, the block, the peripheral or the circuit. -/
@[simp] theorem patternAnswered_cfg (s : State) : (patternAnswered s).cfg = s.cfg := by
  unfold patternAnswered; split <;> [rfl; (split <;> rfl)]
@[simp] theorem patternAnswered_blk (s : State) : (patternAnswered s).blk = s.blk := by
  unfold patternAnswered; split <;> [rfl; (split <;> rfl)]
@[simp] theorem patternAnswered_gpio (s : State) : (patternAnswered s).gpio = s.gpio := by
  unfold patternAnswered; split <;> [rfl; (split <;> rfl)]
@[simp] theorem patternAnswered_ext (s : State) : (patternAnswered s).ext = s.ext := by
  unfold patternAnswered; split <;> [rfl; (split <;> rfl)]
@[simp] theorem patternAnswered_trace (s : State) : (patternAnswered s).trace = s.trace := by
  unfold patternAnswered; split <;> [rfl; (split <;> rfl)]

end Sys2Proof.Machine
end

