-- ==== Sys2Proof/Laws/Peripheral.lean ====
section
/-! SUPPORT. What a well-formed configuration gives (20_memory.md R42, 00_scope.md R7), the bits of a merged word, and what
the pin procedures do to the peripheral when there is no other master. -/

namespace Sys2Proof.Machine

open Sys2Proof

/-! ### The configuration -/

theorem configWf_regs (c : Config) (h : configWf c = true) :
    ((regMap c).map Prod.fst).Nodup ∧ ∀ e ∈ regMap c, e.1 < c.blockWords := by
  simp only [configWf, Bool.and_eq_true, decide_eq_true_eq, List.all_eq_true] at h
  exact ⟨h.1.1.1.2, h.1.1.2⟩

theorem configWf_wiring (c : Config) (h : configWf c = true) :
    (wiredIds c).Nodup ∧ ∀ id ∈ wiredIds c, id ≤ 53 := by
  simp only [configWf, Bool.and_eq_true, decide_eq_true_eq, List.all_eq_true] at h
  exact ⟨h.1.1.1.1.2, h.1.1.1.1.1⟩

/-- With distinct offsets, looking up an entry's offset finds that entry. -/
theorem find_of_nodup {β : Type} (l : List (Nat × β)) (h : (l.map Prod.fst).Nodup) (e : Nat × β) (he : e ∈ l) :
    l.find? (fun x => x.1 == e.1) = some e := by
  induction l with
  | nil => simp at he
  | cons x l ih =>
    simp only [List.map_cons, List.nodup_cons] at h
    rcases List.mem_cons.mp he with rfl | he
    · simp
    · have hne : x.1 ≠ e.1 := fun hx => h.1 (hx ▸ List.mem_map_of_mem he)
      simp [hne, ih h.2 he]

theorem regAt_of_mem (c : Config) (h : configWf c = true) (e : Nat × Reg) (he : e ∈ regMap c) :
    regAt c e.1 = e.2 := by
  simp [regAt, find_of_nodup (regMap c) (configWf_regs c h).1 e he]

/-- Each of the ten registers stands at its offset (20_memory.md R42). -/
theorem regAt_offFsel (c : Config) (h : configWf c = true) (n : Fin 6) : regAt c c.offFsel[n] = .fsel n :=
  regAt_of_mem c h (c.offFsel[n], .fsel n) (by fin_cases n <;> simp [regMap])

theorem regAt_offSet (c : Config) (h : configWf c = true) (k : Fin 2) : regAt c c.offSet[k] = .set k :=
  regAt_of_mem c h (c.offSet[k], .set k) (by fin_cases k <;> simp [regMap])

theorem regAt_offClr (c : Config) (h : configWf c = true) (k : Fin 2) : regAt c c.offClr[k] = .clr k :=
  regAt_of_mem c h (c.offClr[k], .clr k) (by fin_cases k <;> simp [regMap])

theorem offFsel_lt (c : Config) (h : configWf c = true) (n : Fin 6) : c.offFsel[n] < c.blockWords :=
  (configWf_regs c h).2 (c.offFsel[n], .fsel n) (by fin_cases n <;> simp [regMap])

theorem offSet_lt (c : Config) (h : configWf c = true) (k : Fin 2) : c.offSet[k] < c.blockWords :=
  (configWf_regs c h).2 (c.offSet[k], .set k) (by fin_cases k <;> simp [regMap])

theorem offClr_lt (c : Config) (h : configWf c = true) (k : Fin 2) : c.offClr[k] < c.blockWords :=
  (configWf_regs c h).2 (c.offClr[k], .clr k) (by fin_cases k <;> simp [regMap])

/-! ### The bits of a field -/

/-- The mask covers exactly the field's bits (30_encoding.md R67). -/
theorem maskOf_getLsbD (w p i : Nat) :
    (maskOf w p).getLsbD i = (decide (i < 32) && decide (p * w ≤ i) && decide (i < p * w + w)) := by
  simp only [maskOf, BitVec.getLsbD_ofNat, Nat.testBit_mul_two_pow, Nat.testBit_two_pow_sub_one]
  by_cases h1 : i < 32 <;> by_cases h2 : p * w ≤ i <;> simp [h1, h2]
  by_cases h3 : i < p * w + w
  · simp [h3]; omega
  · simp [h3]; omega

/-- A bit of a merged word: the value's inside the field, the old one outside it (40_register_writer.md R81). -/
theorem merge_getLsbD (r v : Word) (w p i : Nat) (hi : i < 32) :
    (merge r v w p).getLsbD i =
      if p * w ≤ i ∧ i < p * w + w then v.getLsbD (i - p * w) else r.getLsbD i := by
  simp only [merge, shiftOf, BitVec.getLsbD_or, BitVec.getLsbD_and, BitVec.getLsbD_not, BitVec.getLsbD_shiftLeft,
    maskOf_getLsbD, hi, decide_true, Bool.true_and]
  by_cases h1 : p * w ≤ i <;> by_cases h2 : i < p * w + w <;> simp [h1, h2, Nat.not_lt.mpr]

/-- A bit of an extracted field (40_register_writer.md R81). -/
theorem extract_getLsbD (r : Word) (w p i : Nat) :
    (extract r w p).getLsbD i = (decide (i < w) && r.getLsbD (p * w + i)) := by
  simp only [extract, shiftOf, BitVec.getLsbD_ushiftRight, BitVec.getLsbD_and, maskOf_getLsbD]
  by_cases h1 : p * w + i < 32
  · by_cases h2 : i < w <;> simp [h1, h2]
  · simp [BitVec.getLsbD_of_ge _ _ (Nat.not_lt.mp h1)]

/-! ### Set and clear -/

/-- The word of pin `id` names pin `id` and no other (30_encoding.md R66, 10_state.md R31). -/
theorem levelPins_pin (id : Nat) (h : id ≤ 53) :
    levelPins (Fin.ofNat 2 (id / 32)) (BitVec.ofNat 32 (2 ^ (id % 32))) = BitVec.twoPow 54 id := by
  have : ∀ i : Fin 54, levelPins (Fin.ofNat 2 (i.val / 32)) (BitVec.ofNat 32 (2 ^ (i.val % 32))) =
      BitVec.twoPow 54 i.val := by decide
  exact this ⟨id, by omega⟩

/-- Everything a write to the peripheral's set register of pin `id` does. -/
theorem Gpio.write_set (c : Config) (h : configWf c = true) (g : Gpio) (id : Nat) (hid : id ≤ 53) :
    g.write c c.offSet[Fin.ofNat 2 (id / 32)] (BitVec.ofNat 32 (2 ^ (id % 32))) =
      { g with out := g.out ||| BitVec.twoPow 54 id } := by
  simp only [Gpio.write, regAt_offSet c h, levelPins_pin id hid]

theorem Gpio.write_clr (c : Config) (h : configWf c = true) (g : Gpio) (id : Nat) (hid : id ≤ 53) :
    g.write c c.offClr[Fin.ofNat 2 (id / 32)] (BitVec.ofNat 32 (2 ^ (id % 32))) =
      { g with out := g.out &&& ~~~ BitVec.twoPow 54 id } := by
  simp only [Gpio.write, regAt_offClr c h, levelPins_pin id hid]

theorem Gpio.write_fsel (c : Config) (h : configWf c = true) (g : Gpio) (n : Fin 6) (v : Word) :
    g.write c c.offFsel[n] v = { g with fsel := g.fsel.set n v } := by
  simp only [Gpio.write, regAt_offFsel c h]

/-- `SetIO` of a valid pin is one write (41_pin.md R90). -/
theorem setIO_valid (id : Nat) (s : State) (h : configWf s.cfg = true) (hid : id ≤ 53) :
    setIO id s = memWrite s.cfg.offSet[Fin.ofNat 2 (id / 32)] (BitVec.ofNat 32 (2 ^ (id % 32))) s := by
  simp only [setIO, resolveLevel, hid, if_true, regWrite, offSet_lt s.cfg h]

/-- `ClearIO` of a valid pin is one write (41_pin.md R91). -/
theorem clearIO_valid (id : Nat) (s : State) (h : configWf s.cfg = true) (hid : id ≤ 53) :
    clearIO id s = memWrite s.cfg.offClr[Fin.ofNat 2 (id / 32)] (BitVec.ofNat 32 (2 ^ (id % 32))) s := by
  simp only [clearIO, resolveLevel, hid, if_true, regWrite, offClr_lt s.cfg h]

/-- A procedure on an invalid id does nothing (41_pin.md R100). -/
theorem setIO_invalid (id : Nat) (s : State) (hid : ¬ id ≤ 53) : setIO id s = s := by
  simp [setIO, resolveLevel, hid]
theorem clearIO_invalid (id : Nat) (s : State) (hid : ¬ id ≤ 53) : clearIO id s = s := by
  simp [clearIO, resolveLevel, hid]
theorem programFunction_invalid (id : Nat) (fn : BitVec 3) (s : State) (hid : ¬ id ≤ 53) :
    programFunction id fn s = s := by simp [programFunction, resolveFsel, hid]

/-- The peripheral after `SetIO` of a valid pin. -/
theorem setIO_gpio (id : Nat) (s : State) (h : configWf s.cfg = true) (ha : s.cfg.otherMasters = false)
    (hid : id ≤ 53) : (setIO id s).gpio = { s.gpio with out := s.gpio.out ||| BitVec.twoPow 54 id } := by
  rw [setIO_valid id s h hid, memWrite_gpio _ _ _ ha, Gpio.write_set s.cfg h s.gpio id hid]

/-- The peripheral after `ClearIO` of a valid pin. -/
theorem clearIO_gpio (id : Nat) (s : State) (h : configWf s.cfg = true) (ha : s.cfg.otherMasters = false)
    (hid : id ≤ 53) : (clearIO id s).gpio = { s.gpio with out := s.gpio.out &&& ~~~ BitVec.twoPow 54 id } := by
  rw [clearIO_valid id s h hid, memWrite_gpio _ _ _ ha, Gpio.write_clr s.cfg h s.gpio id hid]

/-! ### Claim and release -/

/-- Programming the function of a valid pin is a masked write of its field (41_pin.md R88, R89). -/
theorem programFunction_valid (id : Nat) (fn : BitVec 3) (s : State) (h : configWf s.cfg = true) (hid : id ≤ 53) :
    programFunction id fn s =
      let off := s.cfg.offFsel[Fin.ofNat 6 (id / 10)]
      let r := memRead off s
      memWrite off (merge r.1 (fn.setWidth 32) fselFieldW (id % 10)) r.2 := by
  simp only [programFunction, resolveFsel, hid, if_true, maskedWrite, offFsel_lt s.cfg h]

/-- A masked write on the peripheral, when there is no other master. -/
theorem maskedWrite_gpio (off w p : Nat) (v : Word) (s : State) (ha : s.cfg.otherMasters = false)
    (hoff : off < s.cfg.blockWords) :
    (maskedWrite off w p v s).gpio = s.gpio.write s.cfg off (merge (s.readValue off) v w p) := by
  have hr := memRead_alone off s ha
  simp only [maskedWrite, hoff, if_true]
  rw [memWrite_gpio _ _ _ (by simpa using ha), hr.1, hr.2.1, memRead_cfg]

/-- The peripheral after programming the function of a valid pin. -/
theorem programFunction_gpio (id : Nat) (fn : BitVec 3) (s : State) (h : configWf s.cfg = true)
    (ha : s.cfg.otherMasters = false) (hid : id ≤ 53) :
    (programFunction id fn s).gpio =
      let r := s.readValue s.cfg.offFsel[Fin.ofNat 6 (id / 10)]
      let v := merge r (fn.setWidth 32) fselFieldW (id % 10)
      { s.gpio with fsel := s.gpio.fsel.set (Fin.ofNat 6 (id / 10)) v } := by
  simp only [programFunction, resolveFsel, hid, if_true]
  rw [maskedWrite_gpio _ _ _ _ _ ha (offFsel_lt s.cfg h _), Gpio.write_fsel s.cfg h]

/-- Programming a function field leaves the output latches alone (10_state.md R30). -/
theorem programFunction_out (id : Nat) (fn : BitVec 3) (s : State) (h : configWf s.cfg = true)
    (ha : s.cfg.otherMasters = false) : (programFunction id fn s).gpio.out = s.gpio.out := by
  by_cases hid : id ≤ 53
  · rw [programFunction_gpio id fn s h ha hid]
  · rw [programFunction_invalid id fn s hid]

/-- A read of a function-select register gives the stored bits wherever there is a function field (10_state.md R29). -/
theorem readValue_fsel_getLsbD (s : State) (h : configWf s.cfg = true) (n : Fin 6) (i : Nat)
    (hi : (functionMask n).getLsbD i = true) :
    (s.readValue s.cfg.offFsel[n]).getLsbD i = s.gpio.fsel[n].getLsbD i := by
  simp only [State.readValue, Gpio.read, regAt_offFsel s.cfg h]
  cases s.cfg.reservedRead
  · rfl
  · have hlt : i < 32 := by
      by_contra hge
      rw [BitVec.getLsbD_of_ge _ _ (Nat.not_lt.mp hge)] at hi
      cases hi
    simp only [BitVec.getLsbD_or, BitVec.getLsbD_and, BitVec.getLsbD_not, hi, hlt]
    simp

/-- The field of a valid pin lies inside its register's function fields. -/
theorem functionMask_field (id j : Nat) (hid : id ≤ 53) (hj : j < 3) :
    (functionMask (Fin.ofNat 6 (id / 10))).getLsbD (3 * (id % 10) + j) = true := by
  have : ∀ i : Fin 54, ∀ j : Fin 3,
      (functionMask (Fin.ofNat 6 (i.val / 10))).getLsbD (3 * (i.val % 10) + j.val) = true := by decide
  exact this ⟨id, by omega⟩ ⟨j, hj⟩

/-- The function fields after programming pin `id`: its own is the new code, every other valid pin's is as before
(30_encoding.md R62, 40_register_writer.md R84, R85). -/
theorem programFunction_function (id : Nat) (fn : BitVec 3) (s : State) (h : configWf s.cfg = true)
    (ha : s.cfg.otherMasters = false) (hid : id ≤ 53) (j : Nat) (hj : j ≤ 53) :
    (programFunction id fn s).gpio.function j = if j = id then fn else s.gpio.function j := by
  rw [programFunction_gpio id fn s h ha hid]
  simp only [Gpio.function, fselFieldW]
  by_cases hn : j / 10 = id / 10
  · have hset : ∀ w : Word, (s.gpio.fsel.set (Fin.ofNat 6 (id / 10)) w)[Fin.ofNat 6 (j / 10)] = w := by
      intro w; simp [hn]
    rw [hset]
    apply BitVec.eq_of_getLsbD_eq
    intro i hi
    have hj10 : j % 10 < 10 := Nat.mod_lt _ (by decide)
    have hlt : 3 * (j % 10) + i < 32 := by omega
    rw [BitVec.getLsbD_extractLsb', merge_getLsbD _ _ _ _ _ hlt]
    simp only [hi, decide_true, Bool.true_and]
    by_cases hji : j = id
    · subst hji
      have h1 : j % 10 * 3 ≤ 3 * (j % 10) + i ∧ 3 * (j % 10) + i < j % 10 * 3 + 3 := by omega
      have h2 : 3 * (j % 10) + i - j % 10 * 3 = i := by omega
      have h3 : i < 32 := by omega
      simp [h1, h2, h3]
    · have hmod : j % 10 ≠ id % 10 := by omega
      have h1 : ¬ (id % 10 * 3 ≤ 3 * (j % 10) + i ∧ 3 * (j % 10) + i < id % 10 * 3 + 3) := by omega
      rw [if_neg h1, if_neg hji, BitVec.getLsbD_extractLsb']
      simp only [← hn, hi, decide_true, Bool.true_and]
      exact readValue_fsel_getLsbD s h _ _ (functionMask_field j i hj hi)
  · have hji : j ≠ id := fun e => hn (by rw [e])
    rw [if_neg hji]
    have hne : (Fin.ofNat 6 (id / 10)).val ≠ (Fin.ofNat 6 (j / 10)).val := by
      simp only [Fin.ofNat]; omega
    have hget : ∀ w : Word, (s.gpio.fsel.set (Fin.ofNat 6 (id / 10)) w)[Fin.ofNat 6 (j / 10)] =
        s.gpio.fsel[Fin.ofNat 6 (j / 10)] := by
      intro w
      exact Vector.getElem_set_ne _ _ hne
    rw [hget]

end Sys2Proof.Machine
end

