-- ==== Sys2Proof/Laws/Frame.lean ====
section
/-! SUPPORT. What the command frame can do (60_exceptions.md R136): it refuses, it faults, or it runs the body. -/

namespace Sys2Proof.Machine

open Sys2Proof

/-- Raising a fault of an accepted command changes only the fault, the response and busy (60_exceptions.md R139). -/
theorem accept_raise (s : State) (c : FaultCode) (w : Word) : s.accept.raise c w = s.faulted c w := rfl

/-- Refusing an accepted command changes only the response and busy (60_exceptions.md R140). -/
theorem accept_refuse (s : State) (w : Word) : s.accept.refuse w = s.turnedAway w := rfl

/-- A faulted block refuses a command it does not admit. -/
theorem frame_refused (i : Instr) (s : State) (checks : List (Bool × FaultCode)) (body : State → State)
    (hf : s.blk.fault ≠ 0) (hi : admittedWhileFaulted i = false) :
    frame i s checks body = s.turnedAway (encodeWord0 i) := by
  have hf' : s.accept.blk.fault ≠ 0 := hf
  simp only [frame, hf', hi, ne_eq, not_false_eq_true, and_self, if_true, accept_refuse]

/-- An admitted command whose first applying check is `c` faults with `c`. -/
theorem frame_faults (i : Instr) (s : State) (checks : List (Bool × FaultCode)) (body : State → State) (c : FaultCode)
    (ha : Admitted i s) (hc : firstFault checks = some c) :
    frame i s checks body = s.faulted c (encodeWord0 i) := by
  have h1 : ¬ (s.accept.blk.fault ≠ 0 ∧ admittedWhileFaulted i = false) := by
    rintro ⟨h, h'⟩
    rcases ha.1 with h0 | h0
    · exact h h0
    · rw [h0] at h'; cases h'
  have h2 : s.accept.host.mapped = true := ha.2
  simp only [frame, h1, if_false, firstFault, h2, Bool.not_true, Bool.false_eq_true, hc, accept_raise]

/-- An admitted command none of whose checks applies runs its body and completes. -/
theorem frame_runs (i : Instr) (s : State) (checks : List (Bool × FaultCode)) (body : State → State)
    (ha : Admitted i s) (hc : firstFault checks = none) :
    frame i s checks body = (body s.accept).respond .ok := by
  have h1 : ¬ (s.accept.blk.fault ≠ 0 ∧ admittedWhileFaulted i = false) := by
    rintro ⟨h, h'⟩
    rcases ha.1 with h0 | h0
    · exact h h0
    · rw [h0] at h'; cases h'
  have h2 : s.accept.host.mapped = true := ha.2
  simp only [frame, h1, if_false, firstFault, h2, Bool.not_true, Bool.false_eq_true, hc]

/-- A command presented while the window is not mapped faults before its own checks. -/
theorem frame_unmapped (i : Instr) (s : State) (checks : List (Bool × FaultCode)) (body : State → State)
    (ha : s.blk.fault = 0 ∨ admittedWhileFaulted i = true) (hm : s.host.mapped = false) :
    frame i s checks body = s.faulted .unmapped (encodeWord0 i) := by
  have h1 : ¬ (s.accept.blk.fault ≠ 0 ∧ admittedWhileFaulted i = false) := by
    rintro ⟨h, h'⟩
    rcases ha with h0 | h0
    · exact h h0
    · rw [h0] at h'; cases h'
  have h2 : s.accept.host.mapped = false := hm
  simp only [frame, h1, if_false, firstFault, h2, Bool.not_false, if_true, accept_raise]

/-- Everything the frame can do. -/
theorem frame_cases (i : Instr) (s : State) (checks : List (Bool × FaultCode)) (body : State → State) :
    (s.blk.fault ≠ 0 ∧ admittedWhileFaulted i = false ∧ frame i s checks body = s.turnedAway (encodeWord0 i)) ∨
    (∃ c, frame i s checks body = s.faulted c (encodeWord0 i)) ∨
    (Admitted i s ∧ firstFault checks = none ∧ frame i s checks body = (body s.accept).respond .ok) := by
  by_cases hr : s.blk.fault ≠ 0 ∧ admittedWhileFaulted i = false
  · exact .inl ⟨hr.1, hr.2, frame_refused i s checks body hr.1 hr.2⟩
  · have ha : s.blk.fault = 0 ∨ admittedWhileFaulted i = true := by
      by_cases h : s.blk.fault = 0
      · exact .inl h
      · exact .inr (by simpa using fun h' => hr ⟨h, h'⟩)
    by_cases hm : s.host.mapped = true
    · cases hc : firstFault checks with
      | some c => exact .inr (.inl ⟨c, frame_faults i s checks body c ⟨ha, hm⟩ hc⟩)
      | none => exact .inr (.inr ⟨⟨ha, hm⟩, rfl, frame_runs i s checks body ⟨ha, hm⟩ hc⟩)
    · exact .inr (.inl ⟨.unmapped, frame_unmapped i s checks body ha (by simpa using hm)⟩)

/-- A check that does not apply is passed over (60_exceptions.md R138). -/
@[simp] theorem firstFault_false (c : FaultCode) (rest : List (Bool × FaultCode)) :
    firstFault ((false, c) :: rest) = firstFault rest := rfl

/-- The first check that applies is reported (60_exceptions.md R138). -/
@[simp] theorem firstFault_true (c : FaultCode) (rest : List (Bool × FaultCode)) :
    firstFault ((true, c) :: rest) = some c := rfl

@[simp] theorem firstFault_nil : firstFault [] = none := rfl

/-- No check applies exactly when each does not. -/
theorem firstFault_eq_none (checks : List (Bool × FaultCode)) :
    firstFault checks = none ↔ ∀ e ∈ checks, e.1 = false := by
  induction checks with
  | nil => simp
  | cons e rest ih =>
    obtain ⟨a, c⟩ := e
    cases a <;> simp [ih]

end Sys2Proof.Machine
end

