-- ==== Sys2Proof/Laws/Trace.lean ====
section
/-! SUPPORT. The events each pin procedure appends, and the peripheral after it as the replay of those events when there is
no other master. -/

namespace Sys2Proof.Machine

open Sys2Proof

/-! ### Replay -/

theorem replay_append (c : Config) (g : Gpio) (a b : List BusEvent) :
    replay c g (a ++ b) = replay c (replay c g a) b := by
  induction a generalizing g with
  | nil => rfl
  | cons e a ih => cases e <;> simp [replay, ih]

/-! ### Set, clear, pulse -/

theorem setIO_trace (id : Nat) (s : State) (h : configWf s.cfg = true) :
    (setIO id s).trace = s.trace ++ setEvents s.cfg id := by
  unfold setIO setEvents
  cases resolveLevel id with
  | none => simp
  | some e => simp only [regWrite, offSet_lt s.cfg h e.1, if_true, memWrite_trace]

theorem clearIO_trace (id : Nat) (s : State) (h : configWf s.cfg = true) :
    (clearIO id s).trace = s.trace ++ clearEvents s.cfg id := by
  unfold clearIO clearEvents
  cases resolveLevel id with
  | none => simp
  | some e => simp only [regWrite, offClr_lt s.cfg h e.1, if_true, memWrite_trace]

theorem setIO_replay (id : Nat) (s : State) (h : configWf s.cfg = true) (ha : s.cfg.otherMasters = false) :
    (setIO id s).gpio = replay s.cfg s.gpio (setEvents s.cfg id) := by
  unfold setIO setEvents
  cases resolveLevel id with
  | none => rfl
  | some e => simp only [regWrite, offSet_lt s.cfg h e.1, if_true, memWrite_gpio _ _ _ ha, replay]

theorem clearIO_replay (id : Nat) (s : State) (h : configWf s.cfg = true) (ha : s.cfg.otherMasters = false) :
    (clearIO id s).gpio = replay s.cfg s.gpio (clearEvents s.cfg id) := by
  unfold clearIO clearEvents
  cases resolveLevel id with
  | none => rfl
  | some e => simp only [regWrite, offClr_lt s.cfg h e.1, if_true, memWrite_gpio _ _ _ ha, replay]

theorem slotSet_trace (i : Nat) (s : State) (h : configWf s.cfg = true) :
    (slotSet i s).trace = s.trace ++ setTrace s.cfg s.blk i := by
  unfold slotSet onSlot setTrace slotEvents
  cases s.blk.slot i with
  | empty => simp
  | pin id => exact setIO_trace id.val s h

theorem slotClear_trace (i : Nat) (s : State) (h : configWf s.cfg = true) :
    (slotClear i s).trace = s.trace ++ clearTrace s.cfg s.blk i := by
  unfold slotClear onSlot clearTrace slotEvents
  cases s.blk.slot i with
  | empty => simp
  | pin id => exact clearIO_trace id.val s h

theorem slotPulse_eq (i : Nat) (s : State) : slotPulse i s = slotClear i (slotSet i s) := by
  unfold slotPulse
  conv_rhs => unfold slotClear onSlot
  simp only [slotSet_blk]
  unfold slotSet onSlot
  cases s.blk.slot i <;> rfl

theorem slotPulse_trace (i : Nat) (s : State) (h : configWf s.cfg = true) :
    (slotPulse i s).trace = s.trace ++ pulseTrace s.cfg s.blk i := by
  rw [slotPulse_eq, slotClear_trace i _ (by simpa using h), slotSet_trace i s h]
  simp [pulseTrace]

theorem slotSet_replay (i : Nat) (s : State) (h : configWf s.cfg = true) (ha : s.cfg.otherMasters = false) :
    (slotSet i s).gpio = replay s.cfg s.gpio (setTrace s.cfg s.blk i) := by
  unfold slotSet onSlot setTrace slotEvents
  cases s.blk.slot i with
  | empty => rfl
  | pin id => exact setIO_replay id.val s h ha

theorem slotClear_replay (i : Nat) (s : State) (h : configWf s.cfg = true) (ha : s.cfg.otherMasters = false) :
    (slotClear i s).gpio = replay s.cfg s.gpio (clearTrace s.cfg s.blk i) := by
  unfold slotClear onSlot clearTrace slotEvents
  cases s.blk.slot i with
  | empty => rfl
  | pin id => exact clearIO_replay id.val s h ha

theorem slotPulse_replay (i : Nat) (s : State) (h : configWf s.cfg = true) (ha : s.cfg.otherMasters = false) :
    (slotPulse i s).gpio = replay s.cfg s.gpio (pulseTrace s.cfg s.blk i) := by
  rw [slotPulse_eq, slotClear_replay i _ (by simpa using h) (by simpa using ha), slotSet_replay i s h ha]
  simp [pulseTrace, replay_append]

/-! ### Shifting -/

/-- The events of one turn of `ShiftOut`. -/
def bitTrace (c : Config) (b : Block) (bit : Bool) : List BusEvent :=
  (if bit then setTrace c b slotSer else clearTrace c b slotSer) ++ pulseTrace c b slotSrclk

theorem shiftBit_trace (bit : Bool) (s : State) (h : configWf s.cfg = true) :
    (shiftBit bit s).trace = s.trace ++ bitTrace s.cfg s.blk bit := by
  cases bit <;>
    simp [shiftBit, bitTrace, slotPulse_trace, slotSet_trace, slotClear_trace, h]

theorem shiftBit_replay (bit : Bool) (s : State) (h : configWf s.cfg = true) (ha : s.cfg.otherMasters = false) :
    (shiftBit bit s).gpio = replay s.cfg s.gpio (bitTrace s.cfg s.blk bit) := by
  cases bit <;>
    simp [shiftBit, bitTrace, slotPulse_replay, slotSet_replay, slotClear_replay, replay_append, h, ha]

theorem shiftBits_trace (n : Nat) (v : Byte) (s : State) (h : configWf s.cfg = true) :
    (shiftBits n v s).trace =
      s.trace ++ (List.range n).flatMap (fun i => bitTrace s.cfg s.blk (v.getLsbD i)) := by
  induction n generalizing v s with
  | zero => simp [shiftBits]
  | succ n ih =>
    rw [shiftBits, ih _ _ (by simpa using h), shiftBit_trace _ _ h, List.range_succ_eq_map]
    simp [List.flatMap_map, Nat.add_comm]

theorem shiftBits_replay (n : Nat) (v : Byte) (s : State) (h : configWf s.cfg = true)
    (ha : s.cfg.otherMasters = false) :
    (shiftBits n v s).gpio =
      replay s.cfg s.gpio ((List.range n).flatMap (fun i => bitTrace s.cfg s.blk (v.getLsbD i))) := by
  induction n generalizing v s with
  | zero => simp [shiftBits, replay]
  | succ n ih =>
    rw [shiftBits, ih _ _ (by simpa using h) (by simpa using ha), shiftBit_replay _ _ h ha, List.range_succ_eq_map]
    simp [List.flatMap_map, Nat.add_comm, replay_append]

/-- The events of `ShiftOut` (42_shift_register.md R103). -/
theorem shiftOut_trace (v : Byte) (s : State) (h : configWf s.cfg = true) :
    (shiftOut v s).trace = s.trace ++ shiftTrace s.cfg s.blk v := shiftBits_trace 8 v s h

/-- The peripheral after `ShiftOut`, when there is no other master. -/
theorem shiftOut_replay (v : Byte) (s : State) (h : configWf s.cfg = true) (ha : s.cfg.otherMasters = false) :
    (shiftOut v s).gpio = replay s.cfg s.gpio (shiftTrace s.cfg s.blk v) := shiftBits_replay 8 v s h ha

/-- The events of `Latch` (42_shift_register.md R104). -/
theorem latch_trace (s : State) (h : configWf s.cfg = true) :
    (latch s).trace = s.trace ++ pulseTrace s.cfg s.blk slotRclk := slotPulse_trace slotRclk s h

theorem latch_replay (s : State) (h : configWf s.cfg = true) (ha : s.cfg.otherMasters = false) :
    (latch s).gpio = replay s.cfg s.gpio (pulseTrace s.cfg s.blk slotRclk) := slotPulse_replay slotRclk s h ha

/-! ### Claim and release -/

/-- Programming a valid pin's function reads its register once and then writes it once (41_pin.md R88, R89). -/
theorem programFunction_trace (id : Nat) (fn : BitVec 3) (s : State) (h : configWf s.cfg = true) (hid : id ≤ 53) :
    ∃ r, (programFunction id fn s).trace = s.trace ++
      [.read s.cfg.offFsel[Fin.ofNat 6 (id / 10)] r, .write s.cfg.offFsel[Fin.ofNat 6 (id / 10)]
        (merge r (fn.setWidth 32) fselFieldW (id % 10))] ∧
      (s.cfg.otherMasters = false → r = s.readValue s.cfg.offFsel[Fin.ofNat 6 (id / 10)]) := by
  rw [programFunction_valid id fn s h hid]
  exact ⟨_, by simp, fun ha => (memRead_alone _ s ha).1⟩

end Sys2Proof.Machine
end

