-- ==== Sys2Proof/Laws/Exec.lean ====
section
/-! SUPPORT. What every command has in common: it is a frame around a body, and no body touches the configuration, the
fault code, the port or the inputs. -/

namespace Sys2Proof.Machine

open Sys2Proof

/-- The parts of a state that no command's body touches. -/
def Untouched (s t : State) : Prop :=
  t.cfg = s.cfg ∧ t.blk.fault = s.blk.fault ∧ t.host.mapped = s.host.mapped ∧ t.host.port = s.host.port ∧
  t.host.inputs = s.host.inputs ∧ t.host.phase = s.host.phase ∧ t.host.stop = s.host.stop

theorem patternAnswered_untouched (s : State) : Untouched s (patternAnswered s) := by
  unfold patternAnswered
  split
  · simp [Untouched]
  · split <;> simp [Untouched]

/-- Every command is a frame around a body that leaves alone what no body touches (60_exceptions.md R136). -/
theorem exec_frame (i : Instr) (s : State) :
    ∃ checks body, exec i s = .next (frame i s checks body) ∧ ∀ u, Untouched u (body u) := by
  cases i with
  | wrf off w p v => exact ⟨_, _, rfl, fun u => by simp [wrfBody, Untouched]⟩
  | rdf off w p => exact ⟨_, _, rfl, fun u => by unfold rdfBody; split <;> simp [Untouched]⟩
  | pclm slot id => exact ⟨_, _, rfl, fun u => by simp [pclmBody, Untouched]⟩
  | prel slot => exact ⟨_, _, rfl, fun u => by unfold prelBody; split <;> simp [Untouched]⟩
  | pset slot => exact ⟨_, _, rfl, fun u => by simp [Untouched]⟩
  | pclr slot => exact ⟨_, _, rfl, fun u => by simp [Untouched]⟩
  | ppls slot => exact ⟨_, _, rfl, fun u => by simp [Untouched]⟩
  | pmov dst src => exact ⟨_, _, rfl, fun u => by unfold pmovBody; split <;> simp [Untouched]⟩
  | srinit => exact ⟨_, _, rfl, fun u => by simp [srinitBody, Untouched]⟩
  | srwr byte => exact ⟨_, _, rfl, fun u => by simp [Untouched]⟩
  | srfl => exact ⟨_, _, rfl, fun u => by simp [Untouched]⟩
  | srtd => exact ⟨_, _, rfl, fun u => by simp [srtdBody, Untouched]⟩
  | mxinit => exact ⟨_, _, rfl, fun u => by simp [mxinitBody, digitsUp, Untouched]⟩
  | mxsw =>
    refine ⟨_, _, rfl, fun u => ?_⟩
    have h := patternAnswered_untouched u
    simpa [mxswBody, Untouched, patternAnswered_blk] using h
  | mxtd => exact ⟨_, _, rfl, fun u => by simp [mxtdBody, digitsUp, digitsDown, Untouched]⟩

/-- A command never stops the machine (60_exceptions.md R139). -/
theorem exec_next (i : Instr) (s : State) : ∃ t, exec i s = .next t := by
  obtain ⟨c, b, e, _⟩ := exec_frame i s
  exact ⟨_, e⟩

/-- Everything a command does to the parts no body touches: at most a fault code is set, and with it the status FAULT. -/
theorem exec_untouched (i : Instr) (s t : State) (h : exec i s = .next t) :
    t.cfg = s.cfg ∧ t.blk.busy = false ∧ t.host.mapped = s.host.mapped ∧ t.host.port = s.host.port ∧
    t.host.inputs = s.host.inputs ∧ t.host.phase = s.host.phase ∧ t.host.stop = s.host.stop ∧
    (t.blk.fault = s.blk.fault ∨ s.blk.fault = 0 ∧ t.blk.rspStatus = .fault ∧ ∃ c : FaultCode, t.blk.fault = c.code) := by
  obtain ⟨c, b, e, hu⟩ := exec_frame i s
  rw [h] at e
  injection e with e
  rcases frame_cases i s c b with ⟨_, _, h'⟩ | ⟨c', h'⟩ | ⟨_, _, h'⟩
  · rw [e, h']; simp [State.turnedAway]
  · rw [e, h']
    by_cases hz : s.blk.fault = 0
    · refine ⟨rfl, rfl, rfl, rfl, rfl, rfl, rfl, .inr ⟨hz, rfl, c', ?_⟩⟩
      simp only [State.faulted, if_pos hz]
    · exact ⟨rfl, rfl, rfl, rfl, rfl, rfl, rfl, .inl (if_neg hz)⟩
  · rw [e, h']
    have hb := hu s.accept
    simp only [Untouched] at hb
    simp [hb]

end Sys2Proof.Machine
end

