-- ==== Sys2Proof/Laws/Device.lean ====
section
/-! SUPPORT. The shift register while its three lines are driven: what one latch write, one shifted bit, a shifted byte and
a latch pulse leave in it, when there is no other master (10_state.md R35, 42_shift_register.md R103, R104). -/

namespace Sys2Proof.Machine

open Sys2Proof

/-! ### Lines and latches -/

/-- The three lines of the shift register are driven: their functions are output. -/
def LinesDriven (c : Config) (g : Gpio) : Prop :=
  g.function c.srclkId = fnOutput ∧ g.function c.rclkId = fnOutput ∧ g.function c.serId = fnOutput

theorem Gpio.line_output (g : Gpio) (id : Nat) (h : g.function id = fnOutput) : g.line id = some (g.out.getLsbD id) := by
  rw [Gpio.line, if_pos h]

/-- The wired pins are valid and distinct (00_scope.md R7). -/
theorem wiring (c : Config) (h : configWf c = true) :
    c.serId ≤ 53 ∧ c.srclkId ≤ 53 ∧ c.rclkId ≤ 53 ∧ (∀ k : Fin 4, c.digId[k] ≤ 53) ∧
    c.serId ≠ c.srclkId ∧ c.serId ≠ c.rclkId ∧ c.srclkId ≠ c.rclkId ∧
    (∀ k : Fin 4, c.digId[k] ≠ c.serId ∧ c.digId[k] ≠ c.srclkId ∧ c.digId[k] ≠ c.rclkId) ∧
    (∀ j k : Fin 4, j ≠ k → c.digId[j] ≠ c.digId[k]) := by
  obtain ⟨hn, hv⟩ := configWf_wiring c h
  have hd : ∀ k : Fin 4, c.digId[k] ∈ c.digId.toList := fun k => by simp
  simp only [wiredIds, List.cons_append, List.nil_append, List.nodup_cons, List.mem_cons, not_or] at hn
  simp only [wiredIds, List.cons_append, List.nil_append, List.mem_cons, forall_eq_or_imp] at hv
  obtain ⟨⟨h1, h2, h3⟩, ⟨h4, h5⟩, h6, h7⟩ := hn
  refine ⟨hv.1, hv.2.1, hv.2.2.1, fun k => hv.2.2.2 _ (hd k), h1, h2, h4, fun k => ⟨?_, ?_, ?_⟩, fun j k hjk e => ?_⟩
  · exact fun e => h3 (e ▸ hd k)
  · exact fun e => h5 (e ▸ hd k)
  · exact fun e => h6 (e ▸ hd k)
  · rw [List.nodup_iff_injective_get] at h7
    have := @h7 ⟨j.val, by simp⟩ ⟨k.val, by simp⟩ (by simpa using e)
    exact hjk (Fin.ext (by simpa using this))

theorem pinOf_val (id : Nat) (h : id ≤ 53) : (Fin.ofNat 64 id).val = id := Nat.mod_eq_of_lt (by omega)

/-- A latch after a set write of pin `id`. -/
theorem out_set (o : BitVec 54) (id j : Nat) (hj : j ≤ 53) :
    (o ||| BitVec.twoPow 54 id).getLsbD j = (o.getLsbD j || decide (j = id)) := by
  rw [BitVec.getLsbD_or, BitVec.getLsbD_twoPow]
  by_cases e : j = id
  · subst e; simp; omega
  · have : ¬ id = j := fun x => e x.symm
    simp [e, this]

/-- A latch after a clear write of pin `id`. -/
theorem out_clear (o : BitVec 54) (id j : Nat) (hj : j ≤ 53) :
    (o &&& ~~~ BitVec.twoPow 54 id).getLsbD j = (o.getLsbD j && !decide (j = id)) := by
  rw [BitVec.getLsbD_and, BitVec.getLsbD_not, BitVec.getLsbD_twoPow]
  by_cases e : j = id
  · subst e; simp
  · have : ¬ id = j := fun x => e x.symm
    simp [e, this, show j < 54 by omega]

/-! ### One write -/

/-- What the device sees depends only on the configuration, the peripheral, its own registers and the next `Draw()`. -/
theorem writeEffect_ext_congr (off : Nat) (v : Word) (s t : State) (hc : t.cfg = s.cfg) (hg : t.gpio = s.gpio)
    (he : t.ext = s.ext) (hd : t.draws = s.draws) :
    (writeEffect off v t).ext = (writeEffect off v s).ext ∧ (writeEffect off v t).draws = (writeEffect off v s).draws := by
  have hs : ∀ (x y : State) (id : Nat), y.cfg = x.cfg → y.gpio = x.gpio → y.draws = x.draws →
      y.sampleBit id = x.sampleBit id ∧ (y.sampled id).draws = (x.sampled id).draws := by
    intro x y id h1 h2 h3
    simp only [State.sampleBit, State.sampled, State.drawn, h1, h2, h3]
    refine ⟨trivial, ?_⟩
    split <;> simp [h3]
  have h : ∀ (x y : State), y.cfg = x.cfg → y.gpio = x.gpio → y.ext = x.ext → y.draws = x.draws →
      (sampleExt y).ext = (sampleExt x).ext ∧ (sampleExt y).draws = (sampleExt x).draws := by
    intro x y h1 h2 h3 h4
    have a := hs x y x.cfg.srclkId h1 h2 h4
    have b := hs (x.sampled x.cfg.srclkId) (y.sampled x.cfg.srclkId) x.cfg.rclkId (by simp [h1]) (by simp [h2]) a.2
    have c := hs ((x.sampled x.cfg.srclkId).sampled x.cfg.rclkId) ((y.sampled x.cfg.srclkId).sampled x.cfg.rclkId)
      x.cfg.serId (by simp [h1]) (by simp [h2]) b.2
    simp only [sampleExt, State.sampled_ext, h1, h3, a.1, b.1, c.1]
    exact ⟨trivial, c.2⟩
  exact h _ _ hc (by simp [hc, hg]) he hd

/-- Everything the device does at a write that leaves its three lines driven. -/
theorem memWrite_ext (off : Nat) (v : Word) (s : State) (ha : s.cfg.otherMasters = false)
    (hd : LinesDriven s.cfg (s.gpio.write s.cfg off v)) :
    (memWrite off v s).ext =
      s.ext.clock ((s.gpio.write s.cfg off v).out.getLsbD s.cfg.srclkId)
        ((s.gpio.write s.cfg off v).out.getLsbD s.cfg.rclkId) ((s.gpio.write s.cfg off v).out.getLsbD s.cfg.serId) := by
  have hs := sampleExt_driven { s with gpio := s.gpio.write s.cfg off v } _ _ _ (Gpio.line_output _ _ hd.1)
    (Gpio.line_output _ _ hd.2.1) (Gpio.line_output _ _ hd.2.2)
  rw [memWrite_alone off v s ha, State.record_ext, writeEffect, hs]

theorem function_out (g : Gpio) (o : BitVec 54) (id : Nat) : ({ g with out := o } : Gpio).function id = g.function id :=
  rfl

theorem setIO_ext (id : Nat) (s : State) (h : Alone s) (hid : id ≤ 53) (hd : LinesDriven s.cfg s.gpio) :
    (setIO id s).ext = s.ext.clock (s.gpio.out.getLsbD s.cfg.srclkId || decide (s.cfg.srclkId = id))
      (s.gpio.out.getLsbD s.cfg.rclkId || decide (s.cfg.rclkId = id))
      (s.gpio.out.getLsbD s.cfg.serId || decide (s.cfg.serId = id)) := by
  obtain ⟨h1, h2, h3, _⟩ := wiring s.cfg h.1
  rw [setIO_valid id s h.1 hid, memWrite_ext _ _ _ h.2 (by rw [Gpio.write_set s.cfg h.1 s.gpio id hid]; exact hd),
    Gpio.write_set s.cfg h.1 s.gpio id hid]
  simp only [out_set _ _ _ h1, out_set _ _ _ h2, out_set _ _ _ h3]

theorem clearIO_ext (id : Nat) (s : State) (h : Alone s) (hid : id ≤ 53) (hd : LinesDriven s.cfg s.gpio) :
    (clearIO id s).ext = s.ext.clock (s.gpio.out.getLsbD s.cfg.srclkId && !decide (s.cfg.srclkId = id))
      (s.gpio.out.getLsbD s.cfg.rclkId && !decide (s.cfg.rclkId = id))
      (s.gpio.out.getLsbD s.cfg.serId && !decide (s.cfg.serId = id)) := by
  obtain ⟨h1, h2, h3, _⟩ := wiring s.cfg h.1
  rw [clearIO_valid id s h.1 hid, memWrite_ext _ _ _ h.2 (by rw [Gpio.write_clr s.cfg h.1 s.gpio id hid]; exact hd),
    Gpio.write_clr s.cfg h.1 s.gpio id hid]
  simp only [out_clear _ _ _ h1, out_clear _ _ _ h2, out_clear _ _ _ h3]

/-! ### A quiet device -/

/-- The premises of 42_shift_register.md R109: no other master, the three slots hold the driven wired pins, and both clock
latches are low. -/
def Quiet (s : State) : Prop :=
  Alone s ∧ ShiftPinsReady s ∧ s.gpio.out.getLsbD s.cfg.srclkId = false ∧ s.gpio.out.getLsbD s.cfg.rclkId = false

theorem Quiet.congr {s t : State} (h : Quiet s) (hc : t.cfg = s.cfg) (hb : ∀ i, t.blk.slot i = s.blk.slot i)
    (hg : t.gpio = s.gpio) : Quiet t := by
  simpa only [Quiet, Alone, ShiftPinsReady, hc, hb, hg] using h

theorem Quiet.driven {s : State} (h : Quiet s) : LinesDriven s.cfg s.gpio :=
  ⟨h.2.1.2.2.2.2.1, h.2.1.2.2.2.2.2, h.2.1.2.2.2.1⟩

theorem quiet_of_clocksLow (s : State) (ha : Alone s) (hp : ShiftPinsReady s) (hc : ClocksLow s) : Quiet s := by
  refine ⟨ha, hp, ?_, ?_⟩
  · have := hc.1
    rw [Gpio.line_output _ _ hp.2.2.2.2.1] at this
    exact Option.some.inj this
  · have := hc.2
    rw [Gpio.line_output _ _ hp.2.2.2.2.2] at this
    exact Option.some.inj this

theorem Quiet.clocksLow {s : State} (h : Quiet s) : ClocksLow s := by
  refine ⟨?_, ?_⟩
  · rw [Gpio.line_output _ _ h.2.1.2.2.2.2.1, h.2.2.1]
  · rw [Gpio.line_output _ _ h.2.1.2.2.2.2.2, h.2.2.2]

/-- What an operation on latches leaves of a state, but for the latches and the device. -/
def SameButLatches (s t : State) : Prop :=
  t.cfg = s.cfg ∧ t.blk = s.blk ∧ t.host = s.host ∧ t.gpio.fsel = s.gpio.fsel

theorem SameButLatches.trans {s t u : State} (h : SameButLatches s t) (h' : SameButLatches t u) : SameButLatches s u := by
  obtain ⟨a, b, c, d⟩ := h
  obtain ⟨a', b', c', d'⟩ := h'
  exact ⟨a'.trans a, b'.trans b, c'.trans c, d'.trans d⟩

theorem function_fsel {g g' : Gpio} (h : g'.fsel = g.fsel) (id : Nat) : g'.function id = g.function id := by
  unfold Gpio.function
  rw [h]

theorem SameButLatches.quiet {s t : State} (h : SameButLatches s t) (hq : Quiet s)
    (h1 : t.gpio.out.getLsbD s.cfg.srclkId = false) (h2 : t.gpio.out.getLsbD s.cfg.rclkId = false) : Quiet t := by
  obtain ⟨a, b, _, d⟩ := h
  refine ⟨?_, ?_, ?_, ?_⟩
  · simpa only [Alone, a] using hq.1
  · simpa only [ShiftPinsReady, a, b, function_fsel d] using hq.2.1
  · rw [a]; exact h1
  · rw [a]; exact h2

theorem setIO_same (id : Nat) (s : State) (h : Alone s) (hid : id ≤ 53) : SameButLatches s (setIO id s) := by
  refine ⟨setIO_cfg _ _, setIO_blk _ _, setIO_host _ _, ?_⟩
  rw [setIO_gpio id s h.1 h.2 hid]

theorem clearIO_same (id : Nat) (s : State) (h : Alone s) (hid : id ≤ 53) : SameButLatches s (clearIO id s) := by
  refine ⟨clearIO_cfg _ _, clearIO_blk _ _, clearIO_host _ _, ?_⟩
  rw [clearIO_gpio id s h.1 h.2 hid]

/-- A slot operation on a slot that holds a valid pin is the operation on that pin. -/
theorem onSlot_pin (i id : Nat) (io : Nat → State → State) (s : State) (h : s.blk.slot i = pinOf id) (hid : id ≤ 53) :
    onSlot i io s = io id s := by
  rw [onSlot, h]
  simp only [pinOf, pinOf_val id hid]

/-- One shifted bit with the three lines driven and the clocks low (42_shift_register.md R103): the storage takes the bit,
the output latch stays, the clocks are low again, and of the latches only serial-in changes. -/
theorem shiftBit_quiet (b : Bool) (s : State) (h : Quiet s) :
    Quiet (shiftBit b s) ∧ SameButLatches s (shiftBit b s) ∧
    (shiftBit b s).ext = { stor := shiftIn s.ext.stor b, lat := s.ext.lat, srclkPrev := false, rclkPrev := false } ∧
    (∀ j, j ≤ 53 → (shiftBit b s).gpio.out.getLsbD j = if j = s.cfg.serId then b else s.gpio.out.getLsbD j) := by
  obtain ⟨h1, h2, h3, _, n1, n2, n3, _⟩ := wiring s.cfg h.1.1
  have hA := h.1
  -- serial-in
  have hser : ∃ u : State, (if b then slotSet slotSer s else slotClear slotSer s) = u ∧ SameButLatches s u ∧
      (∀ j, j ≤ 53 → u.gpio.out.getLsbD j = if j = s.cfg.serId then b else s.gpio.out.getLsbD j) ∧
      u.ext = { stor := s.ext.stor, lat := s.ext.lat, srclkPrev := false, rclkPrev := false } := by
    have hs := h.2.1.1
    cases b with
    | true =>
      refine ⟨setIO s.cfg.serId s, ?_, setIO_same _ _ hA h1, fun j hj => ?_, ?_⟩
      · simp only [if_true, slotSet, onSlot_pin _ _ _ _ hs h1]
      · rw [setIO_gpio _ _ hA.1 hA.2 h1, out_set _ _ _ hj]
        by_cases e : j = s.cfg.serId <;> simp [e]
      · rw [setIO_ext _ _ hA h1 h.driven]
        simp [Ext.clock, h.2.2.1, h.2.2.2, n1.symm, n2.symm]
    | false =>
      refine ⟨clearIO s.cfg.serId s, ?_, clearIO_same _ _ hA h1, fun j hj => ?_, ?_⟩
      · simp only [Bool.false_eq_true, if_false, slotClear, onSlot_pin _ _ _ _ hs h1]
      · rw [clearIO_gpio _ _ hA.1 hA.2 h1, out_clear _ _ _ hj]
        by_cases e : j = s.cfg.serId <;> simp [e]
      · rw [clearIO_ext _ _ hA h1 h.driven]
        simp [Ext.clock, h.2.2.1, h.2.2.2]
  obtain ⟨u, hu, hsame, hout, hext⟩ := hser
  have hq : Quiet u := hsame.quiet h (by rw [hout _ h2, if_neg n1.symm]; exact h.2.2.1)
    (by rw [hout _ h3, if_neg n2.symm]; exact h.2.2.2)
  have hAu := hq.1
  have hc := hsame.1
  -- the pulse
  have hp : shiftBit b s = clearIO s.cfg.srclkId (setIO s.cfg.srclkId u) := by
    rw [shiftBit, hu, slotPulse, onSlot_pin slotSrclk s.cfg.srclkId pulseIO u (by rw [← hc]; exact hq.2.1.2.1) h2]
    rfl
  have hs1 := setIO_same s.cfg.srclkId u hAu h2
  have hA1 : Alone (setIO s.cfg.srclkId u) := by simpa [Alone] using hAu
  have hs2 := clearIO_same s.cfg.srclkId (setIO s.cfg.srclkId u) hA1 h2
  have hd1 : LinesDriven (setIO s.cfg.srclkId u).cfg (setIO s.cfg.srclkId u).gpio := by
    simp only [LinesDriven, setIO_cfg, function_fsel hs1.2.2.2]
    exact hq.driven
  have hall := hsame.trans (hs1.trans hs2)
  have hout' : ∀ j, j ≤ 53 → (shiftBit b s).gpio.out.getLsbD j =
      if j = s.cfg.serId then b else s.gpio.out.getLsbD j := by
    intro j hj
    rw [hp, clearIO_gpio _ _ hA1.1 hA1.2 h2, out_clear _ _ _ hj, setIO_gpio _ _ hAu.1 hAu.2 h2, out_set _ _ _ hj,
      hout j hj]
    by_cases e : j = s.cfg.srclkId
    · subst e
      simp [n1.symm, h.2.2.1]
    · simp [e]
  refine ⟨?_, by rw [hp]; exact hall, ?_, hout'⟩
  · refine (hp ▸ hall).quiet h ?_ ?_
    · rw [hout' _ h2, if_neg n1.symm]; exact h.2.2.1
    · rw [hout' _ h3, if_neg n2.symm]; exact h.2.2.2
  · rw [hp, clearIO_ext _ _ hA1 h2 hd1, setIO_ext _ _ hAu h2 hq.driven, setIO_gpio _ _ hAu.1 hAu.2 h2]
    simp only [setIO_cfg, hc, out_set _ _ _ h1, out_set _ _ _ h2, out_set _ _ _ h3, hout _ h1, hout _ h2, hout _ h3, hext]
    simp [Ext.clock, n1, n1.symm, n2.symm, n3.symm, h.2.2.1, h.2.2.2]

/-- Shifting `n` bits. -/
theorem shiftBits_quiet (n : Nat) (v : Byte) (s : State) (h : Quiet s) :
    Quiet (shiftBits n v s) ∧ SameButLatches s (shiftBits n v s) ∧
    (shiftBits n v s).ext.stor = (List.range n).foldl (fun acc i => shiftIn acc (v.getLsbD i)) s.ext.stor ∧
    (shiftBits n v s).ext.lat = s.ext.lat ∧
    (0 < n → (shiftBits n v s).ext.srclkPrev = false ∧ (shiftBits n v s).ext.rclkPrev = false) ∧
    (∀ j, j ≤ 53 → (shiftBits n v s).gpio.out.getLsbD j =
      if j = s.cfg.serId ∧ 0 < n then v.getLsbD (n - 1) else s.gpio.out.getLsbD j) := by
  induction n generalizing v s with
  | zero => exact ⟨h, ⟨rfl, rfl, rfl, rfl⟩, rfl, rfl, fun h => absurd h (by decide), fun j _ => by simp [shiftBits]⟩
  | succ n ih =>
    obtain ⟨q1, s1, e1, o1⟩ := shiftBit_quiet (v.getLsbD 0) s h
    obtain ⟨q2, s2, st2, l2, p2, o2⟩ := ih (v >>> 1) _ q1
    refine ⟨q2, s1.trans s2, ?_, ?_, fun _ => ?_, fun j hj => ?_⟩
    · rw [shiftBits, st2, e1, List.range_succ_eq_map, List.foldl_cons, List.foldl_map]
      simp [Nat.add_comm]
    · rw [shiftBits, l2, e1]
    · rw [shiftBits]
      by_cases hn : 0 < n
      · exact p2 hn
      · have : n = 0 := by omega
        subst this
        simp only [shiftBits]
        rw [e1]
        exact ⟨rfl, rfl⟩
    · rw [shiftBits, o2 j hj, s1.1, o1 j hj]
      by_cases e : j = s.cfg.serId
      · by_cases hn : 0 < n
        · simp [e, hn, Nat.add_sub_cancel' hn]
        · have : n = 0 := by omega
          subst this; simp [e]
      · simp [e]

/-- Eight shifts load the byte, whatever the storage held (10_state.md R35). -/
theorem eight_shifts (v start : Byte) : (List.range 8).foldl (fun acc i => shiftIn acc (v.getLsbD i)) start = v := by
  apply BitVec.eq_of_getLsbD_eq
  intro i hi
  simp only [List.range, List.range.loop, List.foldl_cons, List.foldl_nil, shiftIn]
  interval_cases i <;> simp

/-- Everything `ShiftOut` does with the three lines driven and the clocks low (42_shift_register.md R103, R109). -/
theorem shiftOut_quiet (v : Byte) (s : State) (h : Quiet s) :
    Quiet (shiftOut v s) ∧ SameButLatches s (shiftOut v s) ∧
    (shiftOut v s).ext = { stor := v, lat := s.ext.lat, srclkPrev := false, rclkPrev := false } ∧
    (∀ j, j ≤ 53 → (shiftOut v s).gpio.out.getLsbD j = if j = s.cfg.serId then v.getLsbD 7 else s.gpio.out.getLsbD j) := by
  obtain ⟨q, sm, st, l, p, o⟩ := shiftBits_quiet 8 v s h
  refine ⟨q, sm, ?_, fun j hj => ?_⟩
  · have hp := p (by decide)
    rw [eight_shifts] at st
    rw [shiftOut]
    cases he : (shiftBits 8 v s).ext
    simp_all
  · have := o j hj
    simp only [Nat.zero_lt_succ, and_true] at this
    exact this

/-- Everything `Latch` does with the three lines driven and the clocks low (42_shift_register.md R104, R109). -/
theorem latch_quiet (s : State) (h : Quiet s) :
    Quiet (latch s) ∧ SameButLatches s (latch s) ∧
    (latch s).ext = { stor := s.ext.stor, lat := (if s.ext.rclkPrev then s.ext.lat else s.ext.stor), srclkPrev := false,
                      rclkPrev := false } ∧
    (∀ j, j ≤ 53 → (latch s).gpio.out.getLsbD j = s.gpio.out.getLsbD j) := by
  obtain ⟨h1, h2, h3, _, n1, n2, n3, _⟩ := wiring s.cfg h.1.1
  have hA := h.1
  have hp : latch s = clearIO s.cfg.rclkId (setIO s.cfg.rclkId s) := by
    rw [latch, slotPulse, onSlot_pin slotRclk s.cfg.rclkId pulseIO s h.2.1.2.2.1 h3]
    rfl
  have hs1 := setIO_same s.cfg.rclkId s hA h3
  have hA1 : Alone (setIO s.cfg.rclkId s) := by simpa [Alone] using hA
  have hs2 := clearIO_same s.cfg.rclkId (setIO s.cfg.rclkId s) hA1 h3
  have hd1 : LinesDriven (setIO s.cfg.rclkId s).cfg (setIO s.cfg.rclkId s).gpio := by
    simp only [LinesDriven, setIO_cfg, function_fsel hs1.2.2.2]
    exact h.driven
  have hall := hs1.trans hs2
  have hout : ∀ j, j ≤ 53 → (latch s).gpio.out.getLsbD j = s.gpio.out.getLsbD j := by
    intro j hj
    rw [hp, clearIO_gpio _ _ hA1.1 hA1.2 h3, out_clear _ _ _ hj, setIO_gpio _ _ hA.1 hA.2 h3, out_set _ _ _ hj]
    by_cases e : j = s.cfg.rclkId
    · subst e; simp [h.2.2.2]
    · simp [e]
  have hall' : SameButLatches s (latch s) := by rw [hp]; exact hall
  refine ⟨hall'.quiet h ?_ ?_, hall', ?_, hout⟩
  · rw [hout _ h2]
    exact h.2.2.1
  · rw [hout _ h3]
    exact h.2.2.2
  · rw [hp, clearIO_ext _ _ hA1 h3 hd1, setIO_ext _ _ hA h3 h.driven, setIO_gpio _ _ hA.1 hA.2 h3]
    simp only [setIO_cfg, out_set _ _ _ h1, out_set _ _ _ h2, out_set _ _ _ h3]
    cases hr : s.ext.rclkPrev <;> simp [Ext.clock, n3, h.2.2.1, h.2.2.2, hr]

/-- A clear of any valid pin with the three lines driven and the clocks low leaves the device's registers alone. -/
theorem clearIO_quiet (id : Nat) (s : State) (hid : id ≤ 53) (h : Quiet s) :
    Quiet (clearIO id s) ∧ SameButLatches s (clearIO id s) ∧
    (clearIO id s).ext = { stor := s.ext.stor, lat := s.ext.lat, srclkPrev := false, rclkPrev := false } ∧
    (∀ j, j ≤ 53 → (clearIO id s).gpio.out.getLsbD j = (s.gpio.out.getLsbD j && !decide (j = id))) := by
  obtain ⟨_, h2, h3, _⟩ := wiring s.cfg h.1.1
  have hs := clearIO_same id s h.1 hid
  have hout : ∀ j, j ≤ 53 → (clearIO id s).gpio.out.getLsbD j = (s.gpio.out.getLsbD j && !decide (j = id)) := by
    intro j hj
    rw [clearIO_gpio id s h.1.1 h.1.2 hid, out_clear _ _ _ hj]
  refine ⟨hs.quiet h (by simp [hout _ h2, h.2.2.1]) (by simp [hout _ h3, h.2.2.2]), hs, ?_, hout⟩
  rw [clearIO_ext id s h.1 hid h.driven]
  simp [Ext.clock, h.2.2.1, h.2.2.2]

/-- A set of a valid pin that is no clock, with the three lines driven and the clocks low, leaves the device's registers
alone. -/
theorem setIO_quiet (id : Nat) (s : State) (hid : id ≤ 53) (h : Quiet s) (h1 : s.cfg.srclkId ≠ id)
    (h2 : s.cfg.rclkId ≠ id) :
    Quiet (setIO id s) ∧ SameButLatches s (setIO id s) ∧
    (setIO id s).ext = { stor := s.ext.stor, lat := s.ext.lat, srclkPrev := false, rclkPrev := false } ∧
    (∀ j, j ≤ 53 → (setIO id s).gpio.out.getLsbD j = (s.gpio.out.getLsbD j || decide (j = id))) := by
  obtain ⟨_, hs1, hs2, _⟩ := wiring s.cfg h.1.1
  have hs := setIO_same id s h.1 hid
  have hout : ∀ j, j ≤ 53 → (setIO id s).gpio.out.getLsbD j = (s.gpio.out.getLsbD j || decide (j = id)) := by
    intro j hj
    rw [setIO_gpio id s h.1.1 h.1.2 hid, out_set _ _ _ hj]
  refine ⟨hs.quiet h (by simp [hout _ hs1, h.2.2.1, h1]) (by simp [hout _ hs2, h.2.2.2, h2]), hs, ?_, hout⟩
  rw [setIO_ext id s h.1 hid h.driven]
  simp [Ext.clock, h.2.2.1, h.2.2.2, h1, h2]

/-- Programming the function of a pin that is no line of the shift register is not seen by it, but that it samples both
clocks low. -/
theorem programFunction_quiet (id : Nat) (fn : BitVec 3) (s : State) (hid : id ≤ 53) (h : Quiet s)
    (n0 : id ≠ s.cfg.serId) (n1 : id ≠ s.cfg.srclkId) (n2 : id ≠ s.cfg.rclkId) :
    Quiet (programFunction id fn s) ∧
    (programFunction id fn s).ext = { stor := s.ext.stor, lat := s.ext.lat, srclkPrev := false, rclkPrev := false } := by
  obtain ⟨h1, h2, h3, _⟩ := wiring s.cfg h.1.1
  have hout := programFunction_out id fn s h.1.1 h.1.2
  have hf : ∀ j, j ≤ 53 → j ≠ id → (programFunction id fn s).gpio.function j = s.gpio.function j := fun j hj e => by
    rw [programFunction_function id fn s h.1.1 h.1.2 hid j hj, if_neg e]
  have hd : LinesDriven s.cfg (programFunction id fn s).gpio := by
    obtain ⟨d1, d2, d3⟩ := h.driven
    exact ⟨(hf _ h2 n1.symm).trans d1, (hf _ h3 n2.symm).trans d2, (hf _ h1 n0.symm).trans d3⟩
  refine ⟨⟨?_, ?_, ?_, ?_⟩, ?_⟩
  · simpa only [Alone, programFunction_cfg] using h.1
  · obtain ⟨p0, p1, p2, _⟩ := h.2.1
    simp only [ShiftPinsReady, programFunction_cfg, programFunction_blk]
    exact ⟨p0, p1, p2, hd.2.2, hd.1, hd.2.1⟩
  · rw [programFunction_cfg, hout]; exact h.2.2.1
  · rw [programFunction_cfg, hout]; exact h.2.2.2
  · have hg := hd
    rw [programFunction_valid id fn s h.1.1 hid] at hg hout ⊢
    simp only [] at hg hout ⊢
    generalize merge (memRead s.cfg.offFsel[Fin.ofNat 6 (id / 10)] s).1 (fn.setWidth 32) fselFieldW (id % 10) = v at *
    obtain ⟨-, m2, m3, -⟩ := memRead_alone s.cfg.offFsel[Fin.ofNat 6 (id / 10)] s h.1.2
    have ha : (memRead s.cfg.offFsel[Fin.ofNat 6 (id / 10)] s).2.cfg.otherMasters = false := by simpa using h.1.2
    rw [memWrite_gpio _ _ _ ha] at hg hout
    rw [memWrite_ext _ _ _ ha (by simpa only [memRead_cfg] using hg), hout, m3, memRead_cfg]
    simp [Ext.clock, h.2.2.1, h.2.2.2]

/-! ### What the device may do where its lines are undriven (10_state.md R33, R35) -/

/-- A sample clocks the device with three levels; that of a driven serial-in line is its own. -/
theorem sampleExt_clock (s : State) : ∃ sck rck d, (sampleExt s).ext = s.ext.clock sck rck d ∧
    (s.gpio.line s.cfg.serId = some true → d = true) := by
  refine ⟨s.sampleBit s.cfg.srclkId, (s.sampled s.cfg.srclkId).sampleBit s.cfg.rclkId,
    ((s.sampled s.cfg.srclkId).sampled s.cfg.rclkId).sampleBit s.cfg.serId, by simp [sampleExt], fun h => ?_⟩
  simp [State.sampleBit, h]

/-- Programming the function of a valid pin clocks the device once. -/
theorem programFunction_clock (id : Nat) (fn : BitVec 3) (s : State) (ha : Alone s) (hid : id ≤ 53) :
    ∃ sck rck d, (programFunction id fn s).ext = s.ext.clock sck rck d ∧
      ((programFunction id fn s).gpio.line s.cfg.serId = some true → d = true) := by
  rw [programFunction_valid id fn s ha.1 hid]
  simp only []
  generalize merge (memRead s.cfg.offFsel[Fin.ofNat 6 (id / 10)] s).1 (fn.setWidth 32) fselFieldW (id % 10) = v
  obtain ⟨-, m2, m3, -⟩ := memRead_alone s.cfg.offFsel[Fin.ofNat 6 (id / 10)] s ha.2
  have hr : (memRead s.cfg.offFsel[Fin.ofNat 6 (id / 10)] s).2.cfg.otherMasters = false := by simpa using ha.2
  rw [memWrite_gpio _ _ _ hr, memWrite_alone _ _ _ hr, State.record_ext, writeEffect]
  obtain ⟨sck, rck, d, h1, h2⟩ := sampleExt_clock { (memRead s.cfg.offFsel[Fin.ofNat 6 (id / 10)] s).2 with
    gpio := (memRead s.cfg.offFsel[Fin.ofNat 6 (id / 10)] s).2.gpio.write
      (memRead s.cfg.offFsel[Fin.ofNat 6 (id / 10)] s).2.cfg s.cfg.offFsel[Fin.ofNat 6 (id / 10)] v }
  exact ⟨sck, rck, d, by rw [h1, m3], by simpa only [memRead_cfg] using h2⟩

/-- A device that remembers a low clock did not act on it. -/
theorem Ext.clock_low (e : Ext) (sck rck d : Bool) :
    ((e.clock sck rck d).srclkPrev = false → (e.clock sck rck d).stor = e.stor) ∧
    ((e.clock sck rck d).rclkPrev = false → (e.clock sck rck d).lat = e.lat) := by
  constructor <;> · intro h; simp only [Ext.clock] at h; simp [Ext.clock, h]

/-- The storage after a sample is as it was or has `d` shifted in; the output latch is as it was or the storage's old
value. -/
theorem Ext.clock_cases (e : Ext) (sck rck d : Bool) :
    ((e.clock sck rck d).stor = e.stor ∨ (e.clock sck rck d).stor = shiftIn e.stor d) ∧
    ((e.clock sck rck d).lat = e.lat ∨ (e.clock sck rck d).lat = e.stor) := by
  simp only [Ext.clock]
  constructor <;> split <;> simp

/-! ### A circuit that sees undriven lines at their latch's level (log 32) -/

theorem State.sampleBit_held (s : State) (id : Nat) (h : s.cfg.undrivenLine = .held) :
    s.sampleBit id = s.gpio.out.getLsbD id := by
  simp only [State.sampleBit, h, Gpio.line]
  split <;> rfl

/-- What the device does at a sample that sees every line at its latch's level. -/
theorem sampleExt_held (s : State) (h : s.cfg.undrivenLine = .held) :
    (sampleExt s).ext = s.ext.clock (s.gpio.out.getLsbD s.cfg.srclkId) (s.gpio.out.getLsbD s.cfg.rclkId)
      (s.gpio.out.getLsbD s.cfg.serId) := by
  simp [sampleExt, State.sampleBit_held, h]

/-- With the clock latches low, a device that sees them stays as it is while a function is programmed. -/
theorem programFunction_held (id : Nat) (fn : BitVec 3) (s : State) (ha : Alone s) (h : s.cfg.undrivenLine = .held)
    (h1 : s.gpio.out.getLsbD s.cfg.srclkId = false) (h2 : s.gpio.out.getLsbD s.cfg.rclkId = false) :
    (programFunction id fn s).ext.stor = s.ext.stor ∧ (programFunction id fn s).ext.lat = s.ext.lat := by
  by_cases hid : id ≤ 53
  · have hout := programFunction_out id fn s ha.1 ha.2
    rw [programFunction_valid id fn s ha.1 hid] at hout ⊢
    simp only [] at hout ⊢
    generalize merge (memRead s.cfg.offFsel[Fin.ofNat 6 (id / 10)] s).1 (fn.setWidth 32) fselFieldW (id % 10) = v at *
    obtain ⟨-, m2, m3, -⟩ := memRead_alone s.cfg.offFsel[Fin.ofNat 6 (id / 10)] s ha.2
    have hr : (memRead s.cfg.offFsel[Fin.ofNat 6 (id / 10)] s).2.cfg.otherMasters = false := by simpa using ha.2
    rw [memWrite_gpio _ _ _ hr, memRead_cfg] at hout
    rw [memWrite_alone _ _ _ hr, State.record_ext, writeEffect, sampleExt_held _ (by simpa using h)]
    simp only [memRead_cfg, m3, hout, h1, h2]
    simp [Ext.clock]
  · rw [programFunction_invalid id fn s hid]
    exact ⟨rfl, rfl⟩

end Sys2Proof.Machine
end

