-- ==== Sys2Proof/Laws/Chains.lean ====
section
/-! SUPPORT. Runs of pin procedures over a list of valid pins, as the constructions and teardowns use them: what a run of
clears, of claims and of releases leaves on the peripheral and in the trace. -/

namespace Sys2Proof.Machine

open Sys2Proof

/-- `ClearIO` of each pin of a list, in order. -/
def clearAll (ids : List Nat) (s : State) : State := ids.foldl (fun t id => clearIO id t) s

/-- The function field of each pin of a list programmed to `fn`, in order. -/
def programAll (fn : BitVec 3) (ids : List Nat) (s : State) : State := ids.foldl (fun t id => programFunction id fn t) s

theorem clearAll_keeps (ids : List Nat) (s : State) :
    (clearAll ids s).cfg = s.cfg ∧ (clearAll ids s).blk = s.blk ∧ (clearAll ids s).host = s.host := by
  induction ids generalizing s with
  | nil => exact ⟨rfl, rfl, rfl⟩
  | cons id ids ih => simpa [clearAll] using ih (clearIO id s)

theorem programAll_keeps (fn : BitVec 3) (ids : List Nat) (s : State) :
    (programAll fn ids s).cfg = s.cfg ∧ (programAll fn ids s).blk = s.blk ∧ (programAll fn ids s).host = s.host := by
  induction ids generalizing s with
  | nil => exact ⟨rfl, rfl, rfl⟩
  | cons id ids ih => simpa [programAll] using ih (programFunction id fn s)

theorem clearAll_trace (ids : List Nat) (s : State) (h : configWf s.cfg = true) :
    (clearAll ids s).trace = s.trace ++ ids.flatMap (clearEvents s.cfg) := by
  induction ids generalizing s with
  | nil => simp [clearAll]
  | cons id ids ih =>
    have := ih (clearIO id s) (by simpa using h)
    simp only [clearAll] at this
    simp [clearAll, this, clearIO_trace id s h]

/-- Each valid pin programmed makes one read and one write. -/
theorem programAll_trace (fn : BitVec 3) (ids : List Nat) (s : State) (h : configWf s.cfg = true)
    (hv : ∀ id ∈ ids, id ≤ 53) :
    ∃ events, (programAll fn ids s).trace = s.trace ++ events ∧ events.length = 2 * ids.length ∧
      (readsOf events).length = ids.length := by
  induction ids generalizing s with
  | nil => exact ⟨[], by simp [programAll], rfl, rfl⟩
  | cons id ids ih =>
    obtain ⟨r, hr, _⟩ := programFunction_trace id fn s h (hv id (by simp))
    obtain ⟨ev, he, hl, hc⟩ := ih (programFunction id fn s) (by simpa using h) (fun i hi => hv i (by simp [hi]))
    simp only [programAll] at he
    refine ⟨_, by simp only [programAll, List.foldl_cons, he, hr, List.append_assoc]; rfl, ?_, ?_⟩
    · simp [hl]; omega
    · simp [readsOf] at hc ⊢
      exact hc

theorem clearAll_gpio (ids : List Nat) (s : State) (h : Alone s) (hv : ∀ id ∈ ids, id ≤ 53) :
    (clearAll ids s).gpio.fsel = s.gpio.fsel ∧
    ∀ j, j ≤ 53 → (clearAll ids s).gpio.out.getLsbD j = (s.gpio.out.getLsbD j && !decide (j ∈ ids)) := by
  induction ids generalizing s with
  | nil => exact ⟨rfl, fun j _ => by simp [clearAll]⟩
  | cons id ids ih =>
    have hid := hv id (by simp)
    have hA : Alone (clearIO id s) := by simpa [Alone] using h
    obtain ⟨h1, h2⟩ := ih (clearIO id s) hA (fun i hi => hv i (by simp [hi]))
    simp only [clearAll] at h1 h2
    refine ⟨?_, fun j hj => ?_⟩
    · rw [clearAll, List.foldl_cons, h1, clearIO_gpio id s h.1 h.2 hid]
    · rw [clearAll, List.foldl_cons, h2 j hj, clearIO_gpio id s h.1 h.2 hid, out_clear _ _ _ hj]
      by_cases e : j = id <;> simp [e]

theorem programAll_gpio (fn : BitVec 3) (ids : List Nat) (s : State) (h : Alone s) (hv : ∀ id ∈ ids, id ≤ 53) :
    (programAll fn ids s).gpio.out = s.gpio.out ∧
    ∀ j, j ≤ 53 → (programAll fn ids s).gpio.function j = if j ∈ ids then fn else s.gpio.function j := by
  induction ids generalizing s with
  | nil => exact ⟨rfl, fun j _ => by simp [programAll]⟩
  | cons id ids ih =>
    have hid := hv id (by simp)
    have hA : Alone (programFunction id fn s) := by simpa [Alone] using h
    obtain ⟨h1, h2⟩ := ih (programFunction id fn s) hA (fun i hi => hv i (by simp [hi]))
    simp only [programAll] at h1 h2
    refine ⟨?_, fun j hj => ?_⟩
    · rw [programAll, List.foldl_cons, h1, programFunction_out id fn s h.1 h.2]
    · rw [programAll, List.foldl_cons, h2 j hj, programFunction_function id fn s h.1 h.2 hid j hj]
      by_cases e : j = id <;> by_cases e' : j ∈ ids <;> simp [e, e']

/-! ### Set and clear of a slot, whatever it holds -/

/-- Set and clear never touch a function-select register (10_state.md R31). -/
theorem setIO_fsel (id : Nat) (s : State) (h : Alone s) : (setIO id s).gpio.fsel = s.gpio.fsel := by
  by_cases hid : id ≤ 53
  · rw [setIO_gpio id s h.1 h.2 hid]
  · rw [setIO_invalid id s hid]

theorem clearIO_fsel (id : Nat) (s : State) (h : Alone s) : (clearIO id s).gpio.fsel = s.gpio.fsel := by
  by_cases hid : id ≤ 53
  · rw [clearIO_gpio id s h.1 h.2 hid]
  · rw [clearIO_invalid id s hid]

theorem slotSet_fsel (i : Nat) (s : State) (h : Alone s) : (slotSet i s).gpio.fsel = s.gpio.fsel := by
  unfold slotSet onSlot
  split
  · rfl
  · exact setIO_fsel _ s h

theorem slotClear_fsel (i : Nat) (s : State) (h : Alone s) : (slotClear i s).gpio.fsel = s.gpio.fsel := by
  unfold slotClear onSlot
  split
  · rfl
  · exact clearIO_fsel _ s h

/-- A latch after the set of a slot: raised for the valid pin the slot holds, as it was otherwise. -/
theorem slotSet_out (i : Nat) (s : State) (h : Alone s) (j : Fin 64) (hj : j.val ≤ 53) :
    (slotSet i s).gpio.out.getLsbD j.val = (s.gpio.out.getLsbD j.val || decide (s.blk.slot i = .pin j)) := by
  unfold slotSet onSlot
  cases s.blk.slot i with
  | empty => simp
  | pin id =>
    simp only [Slot.pin.injEq]
    by_cases hid : id.val ≤ 53
    · rw [setIO_gpio _ s h.1 h.2 hid, out_set _ _ _ hj]
      simp only [Fin.ext_iff, eq_comm]
    · rw [setIO_invalid _ s hid, decide_eq_false (fun e : id = j => hid (by rw [e]; exact hj)), Bool.or_false]

/-- A latch after the clear of a slot: lowered for the valid pin the slot holds, as it was otherwise. -/
theorem slotClear_out (i : Nat) (s : State) (h : Alone s) (j : Fin 64) (hj : j.val ≤ 53) :
    (slotClear i s).gpio.out.getLsbD j.val = (s.gpio.out.getLsbD j.val && !decide (s.blk.slot i = .pin j)) := by
  unfold slotClear onSlot
  cases s.blk.slot i with
  | empty => simp
  | pin id =>
    simp only [Slot.pin.injEq]
    by_cases hid : id.val ≤ 53
    · rw [clearIO_gpio _ s h.1 h.2 hid, out_clear _ _ _ hj]
      simp only [Fin.ext_iff, eq_comm]
    · rw [clearIO_invalid _ s hid, decide_eq_false (fun e : id = j => hid (by rw [e]; exact hj)), Bool.not_false,
        Bool.and_true]

theorem slotPulse_fsel (i : Nat) (s : State) (h : Alone s) : (slotPulse i s).gpio.fsel = s.gpio.fsel := by
  rw [slotPulse_eq, slotClear_fsel i _ (by simpa [Alone] using h), slotSet_fsel i s h]

/-- A latch after the pulse of a slot: lowered for the valid pin the slot holds (41_pin.md R92). -/
theorem slotPulse_out (i : Nat) (s : State) (h : Alone s) (j : Fin 64) (hj : j.val ≤ 53) :
    (slotPulse i s).gpio.out.getLsbD j.val = (s.gpio.out.getLsbD j.val && !decide (s.blk.slot i = .pin j)) := by
  rw [slotPulse_eq, slotClear_out i _ (by simpa [Alone] using h) j hj, slotSet_out i s h j hj, slotSet_blk]
  by_cases e : s.blk.slot i = .pin j <;> simp [e]

theorem shiftBit_fsel (b : Bool) (s : State) (h : Alone s) : (shiftBit b s).gpio.fsel = s.gpio.fsel := by
  cases b
  · simp only [shiftBit, Bool.false_eq_true, if_false]
    rw [slotPulse_fsel _ _ (by simpa [Alone] using h), slotClear_fsel _ _ h]
  · simp only [shiftBit, if_true]
    rw [slotPulse_fsel _ _ (by simpa [Alone] using h), slotSet_fsel _ _ h]

/-- Of the latches, a shifted bit touches only those of the pins in the serial-in and shift-clock slots. -/
theorem shiftBit_out (b : Bool) (s : State) (h : Alone s) (j : Fin 64) (hj : j.val ≤ 53)
    (h0 : s.blk.slot slotSer ≠ .pin j) (h1 : s.blk.slot slotSrclk ≠ .pin j) :
    (shiftBit b s).gpio.out.getLsbD j.val = s.gpio.out.getLsbD j.val := by
  cases b
  · simp only [shiftBit, Bool.false_eq_true, if_false]
    rw [slotPulse_out _ _ (by simpa [Alone] using h) j hj, slotClear_out _ _ h j hj]
    simp [h0, h1]
  · simp only [shiftBit, if_true]
    rw [slotPulse_out _ _ (by simpa [Alone] using h) j hj, slotSet_out _ _ h j hj]
    simp [h0, h1]

theorem shiftBits_frame (n : Nat) (v : Byte) (s : State) (h : Alone s) :
    (shiftBits n v s).gpio.fsel = s.gpio.fsel ∧
    ∀ j : Fin 64, j.val ≤ 53 → s.blk.slot slotSer ≠ .pin j → s.blk.slot slotSrclk ≠ .pin j →
      (shiftBits n v s).gpio.out.getLsbD j.val = s.gpio.out.getLsbD j.val := by
  induction n generalizing v s with
  | zero => exact ⟨rfl, fun _ _ _ _ => rfl⟩
  | succ n ih =>
    obtain ⟨f, o⟩ := ih (v >>> 1) (shiftBit (v.getLsbD 0) s) (by simpa [Alone] using h)
    refine ⟨?_, fun j hj h0 h1 => ?_⟩
    · rw [shiftBits, f, shiftBit_fsel _ _ h]
    · rw [shiftBits, o j hj (by simpa using h0) (by simpa using h1), shiftBit_out _ _ h j hj h0 h1]

/-- What `ShiftOut` leaves alone, whatever the slots hold. -/
theorem shiftOut_frame (v : Byte) (s : State) (h : Alone s) :
    (shiftOut v s).gpio.fsel = s.gpio.fsel ∧
    ∀ j : Fin 64, j.val ≤ 53 → s.blk.slot slotSer ≠ .pin j → s.blk.slot slotSrclk ≠ .pin j →
      (shiftOut v s).gpio.out.getLsbD j.val = s.gpio.out.getLsbD j.val := shiftBits_frame 8 v s h

/-! ### Releases -/

/-- Everything a teardown's release of one slot does to the peripheral, when there is no other master. -/
theorem releaseSlot_gpio (i : Nat) (s : State) (h : Alone s) :
    (releaseSlot i s).gpio.out = s.gpio.out ∧
    ∀ j : Fin 64, j.val ≤ 53 → (releaseSlot i s).gpio.function j.val =
      if s.blk.slot i = .pin j then fnInput else s.gpio.function j.val := by
  unfold releaseSlot slotRelease onSlot
  cases hs : s.blk.slot i with
  | empty => exact ⟨rfl, fun j _ => by simp⟩
  | pin id =>
    refine ⟨programFunction_out id.val fnInput s h.1 h.2, fun j hj => ?_⟩
    simp only [State.setSlot_gpio, releaseIO, Slot.pin.injEq]
    by_cases hid : id.val ≤ 53
    · rw [programFunction_function id.val fnInput s h.1 h.2 hid j.val hj]
      simp only [Fin.ext_iff, eq_comm]
    · rw [programFunction_invalid id.val fnInput s hid, if_neg (fun e : id = j => hid (by rw [e]; exact hj))]

/-- A slot that is not effective has no release events. -/
theorem releaseEvents_ineffective (c : Config) (slot : Slot) (h : slot.effective = false) (events : List BusEvent) :
    ReleaseEvents c slot events ↔ events = [] := by
  cases slot with
  | empty => rfl
  | pin id =>
    have hid : ¬ id.val ≤ 53 := by simpa [Slot.effective] using h
    simp [ReleaseEvents, resolveFsel, hid]

/-- The release events of a slot that holds a valid pin. -/
theorem releaseEvents_pin (c : Config) (id : Fin 64) (hid : id.val ≤ 53) (events : List BusEvent) :
    ReleaseEvents c (.pin id) events ↔ ∃ r, events = [.read c.offFsel[Fin.ofNat 6 (id.val / 10)] r,
      .write c.offFsel[Fin.ofNat 6 (id.val / 10)] (merge r 0 3 (id.val % 10))] := by
  simp [ReleaseEvents, resolveFsel, hid]

/-- The events of a teardown's release of one slot: the read and the write for an effective slot, none otherwise. -/
theorem releaseSlot_trace (i : Nat) (s : State) (h : configWf s.cfg = true) :
    ∃ events, (releaseSlot i s).trace = s.trace ++ events ∧ ReleaseEvents s.cfg (s.blk.slot i) events := by
  unfold releaseSlot slotRelease onSlot
  cases hs : s.blk.slot i with
  | empty => exact ⟨[], by simp, rfl⟩
  | pin id =>
    by_cases hid : id.val ≤ 53
    · obtain ⟨r, hr, _⟩ := programFunction_trace id.val fnInput s h hid
      exact ⟨_, by simpa [releaseIO, fnInput, fselFieldW] using hr, (releaseEvents_pin _ id hid _).mpr ⟨r, rfl⟩⟩
    · exact ⟨[], by simp [releaseIO, programFunction_invalid id.val fnInput s hid],
        (releaseEvents_ineffective _ _ (by simp [Slot.effective, hid]) _).mpr rfl⟩

/-- How many events a release has, and how many of them are reads. -/
theorem releaseEvents_counts {c : Config} {slot : Slot} {events : List BusEvent} (h : ReleaseEvents c slot events) :
    events.length = (if slot.effective then 2 else 0) ∧ (readsOf events).length = (if slot.effective then 1 else 0) := by
  cases he : slot.effective with
  | false => simp [(releaseEvents_ineffective c slot he events).mp h, readsOf]
  | true =>
    cases slot with
    | empty => simp [Slot.effective] at he
    | pin id =>
      obtain ⟨r, rfl⟩ := (releaseEvents_pin c id (by simpa [Slot.effective] using he) events).mp h
      simp [readsOf]

/-- The release of a slot that holds a valid pin clocks the device once (10_state.md R35). -/
theorem releaseSlot_clock (i id : Nat) (s : State) (ha : Alone s) (hs : s.blk.slot i = pinOf id) (hid : id ≤ 53) :
    ∃ sck rck d, (releaseSlot i s).ext = s.ext.clock sck rck d ∧
      ((releaseSlot i s).gpio.line s.cfg.serId = some true → d = true) := by
  have h := programFunction_clock id fnInput s ha hid
  unfold releaseSlot slotRelease onSlot
  rw [hs]
  simpa only [pinOf, pinOf_val id hid, releaseIO, State.setSlot_ext, State.setSlot_gpio] using h

/-- With the clock latches low, a device that sees them stays as it is at a release. -/
theorem releaseSlot_held (i : Nat) (s : State) (ha : Alone s) (h : s.cfg.undrivenLine = .held)
    (h1 : s.gpio.out.getLsbD s.cfg.srclkId = false) (h2 : s.gpio.out.getLsbD s.cfg.rclkId = false) :
    (releaseSlot i s).ext.stor = s.ext.stor ∧ (releaseSlot i s).ext.lat = s.ext.lat := by
  unfold releaseSlot slotRelease onSlot
  split
  · exact ⟨rfl, rfl⟩
  · exact programFunction_held _ fnInput s ha h h1 h2

end Sys2Proof.Machine
end

