-- ==== Sys2Proof/Laws/PerInstr.lean ====
section
/-! SUPPORT. A family of statements made for each command: an encoded command is as long as its opcode says
(30_encoding.md R69), and its opcode is one of the map (R76). -/

namespace Sys2Proof.Laws

open Sys2Proof

/-- The four opcode bits of a word (30_encoding.md R70). -/
theorem opcodeOf_bits (w : Word) :
    opcodeOf w = (w.getLsbD 28).toNat + 2 * (w.getLsbD 29).toNat + 4 * (w.getLsbD 30).toNat +
      8 * (w.getLsbD 31).toNat := by
  have h : ∀ x : BitVec 4, x.toNat = (x.getLsbD 0).toNat + 2 * (x.getLsbD 1).toNat + 4 * (x.getLsbD 2).toNat +
      8 * (x.getLsbD 3).toNat := by decide
  rw [opcodeOf, fieldOf, h]
  simp only [BitVec.getLsbD_extractLsb']
  simp

/-- The command is encoded in as many words as its opcode says, and the opcode is not the reserved one. -/
def EncodedLength.Statement (i : Instr) : Prop :=
  (encode i).length = lengthOf (encodeWord0 i) ∧ opcodeOf (encodeWord0 i) ≠ 0

theorem EncodedLength.wrf (off w p : Nat) (value : Word) : EncodedLength.Statement (.wrf off w p value) := by
  simp only [EncodedLength.Statement, encode, operandWords, lengthOf, opcodeOf_bits, encodeWord0, BitVec.getLsbD_append]
  simp

theorem EncodedLength.rdf (off w p : Nat) : EncodedLength.Statement (.rdf off w p) := by
  simp only [EncodedLength.Statement, encode, operandWords, lengthOf, opcodeOf_bits, encodeWord0, BitVec.getLsbD_append]
  simp

theorem EncodedLength.pclm (slot id : Nat) : EncodedLength.Statement (.pclm slot id) := by
  simp only [EncodedLength.Statement, encode, operandWords, lengthOf, opcodeOf_bits, encodeWord0, BitVec.getLsbD_append]
  simp

theorem EncodedLength.prel (slot : Nat) : EncodedLength.Statement (.prel slot) := by
  simp only [EncodedLength.Statement, encode, operandWords, lengthOf, opcodeOf_bits, encodeWord0, BitVec.getLsbD_append]
  simp

theorem EncodedLength.pset (slot : Nat) : EncodedLength.Statement (.pset slot) := by
  simp only [EncodedLength.Statement, encode, operandWords, lengthOf, opcodeOf_bits, encodeWord0, BitVec.getLsbD_append]
  simp

theorem EncodedLength.pclr (slot : Nat) : EncodedLength.Statement (.pclr slot) := by
  simp only [EncodedLength.Statement, encode, operandWords, lengthOf, opcodeOf_bits, encodeWord0, BitVec.getLsbD_append]
  simp

theorem EncodedLength.ppls (slot : Nat) : EncodedLength.Statement (.ppls slot) := by
  simp only [EncodedLength.Statement, encode, operandWords, lengthOf, opcodeOf_bits, encodeWord0, BitVec.getLsbD_append]
  simp

theorem EncodedLength.pmov (dst src : Nat) : EncodedLength.Statement (.pmov dst src) := by
  simp only [EncodedLength.Statement, encode, operandWords, lengthOf, opcodeOf_bits, encodeWord0, BitVec.getLsbD_append]
  simp

theorem EncodedLength.srinit : EncodedLength.Statement .srinit := by
  unfold EncodedLength.Statement; decide

theorem EncodedLength.srwr (byte : Nat) : EncodedLength.Statement (.srwr byte) := by
  simp only [EncodedLength.Statement, encode, operandWords, lengthOf, opcodeOf_bits, encodeWord0, BitVec.getLsbD_append]
  simp

theorem EncodedLength.srfl : EncodedLength.Statement .srfl := by
  unfold EncodedLength.Statement; decide

theorem EncodedLength.srtd : EncodedLength.Statement .srtd := by
  unfold EncodedLength.Statement; decide

theorem EncodedLength.mxinit : EncodedLength.Statement .mxinit := by
  unfold EncodedLength.Statement; decide

theorem EncodedLength.mxsw : EncodedLength.Statement .mxsw := by
  unfold EncodedLength.Statement; decide

theorem EncodedLength.mxtd : EncodedLength.Statement .mxtd := by
  unfold EncodedLength.Statement; decide

end Sys2Proof.Laws
end

