-- ==== Sys2Proof/Laws/Runs.lean ====
section
/-! SUPPORT. Everything a step can do, what each construction and MXSW do to slots, latches and the device, and when each
command runs its body. -/

namespace Sys2Proof.Machine

open Sys2Proof

/-! ### The step -/

/-- Everything a step can do: `Other` acts, and then the block waits, runs a decoded command, faults an illegal word, or the
host has its turn. -/
theorem step_cases (s t : State) (h : step s = .next t) : configWf s.cfg = true ∧
    (t = otherActs s ∨
     (∃ i rest, decode s.host.port = .command i rest ∧ exec i ((otherActs s).withPort rest) = .next t) ∨
     (∃ w rest, t = ((otherActs s).withPort rest).faulted .illegalCmd w) ∨
     t = hostTurn (otherActs s)) := by
  unfold step at h
  by_cases hw : configWf s.cfg = true
  · refine ⟨hw, ?_⟩
    rw [if_pos hw] at h
    unfold systemStep at h
    by_cases hb : (otherActs s).blk.busy = true
    · simp only [hb, if_true] at h
      injection h with h
      exact .inl h.symm
    · simp only [hb, if_false, otherActs_host, Bool.false_eq_true] at h
      cases hd : decode s.host.port with
      | command i rest => rw [hd] at h; exact .inr (.inl ⟨i, rest, rfl, h⟩)
      | illegal why w rest =>
        rw [hd] at h
        injection h with h
        exact .inr (.inr (.inl ⟨w, rest, h.symm⟩))
      | incomplete =>
        rw [hd] at h
        injection h with h
        exact .inr (.inr (.inr h.symm))
  · rw [if_neg hw] at h; cases h

/-- The host's turn never changes `mapped` (60_exceptions.md R142). -/
theorem turn_mapped (b : Block) (h : HostSide) : (h.turn b).mapped = h.mapped := by
  unfold HostSide.turn
  split <;> (try split) <;> rfl

/-- A turn of the host program changes the host's side alone, and never `mapped`. -/
theorem programTurn_keeps (s : State) : (programTurn s).cfg = s.cfg ∧ (programTurn s).blk = s.blk ∧
    (programTurn s).host.mapped = s.host.mapped := by
  unfold programTurn
  split <;> simp [turn_mapped]

theorem presentFromOutside_mapped (words : List Word) (h : HostSide) :
    (h.presentFromOutside words).mapped = h.mapped := by
  unfold HostSide.presentFromOutside
  split <;> rfl

/-- What the host's turn can do to the configuration and the block: nothing, or a reset, which is the input it takes. -/
theorem hostTurn_cases (s : State) : (hostTurn s).cfg = s.cfg ∧
    ((hostTurn s).blk = s.blk ∨ (∃ rest, s.host.inputs = .reset :: rest) ∧ (hostTurn s).blk = Block.reset) ∧
    (hostTurn s).host.mapped = s.host.mapped := by
  unfold hostTurn
  split
  · rename_i e rest h
    cases e <;> simp [hostInput, resetBlock, programTurn_keeps, presentFromOutside_mapped, h]
  · exact ⟨(programTurn_keeps s).1, .inl (programTurn_keeps s).2.1, (programTurn_keeps s).2.2⟩

/-- The codes 0x09 to 0xFF belong to no fault (60_exceptions.md R137). -/
theorem code_le (c : FaultCode) : c.code.toNat ≤ 8 := by cases c <;> decide

/-! ### When a command runs its body -/

theorem wrf_runs (off w p : Nat) (v : Word) (s : State) (hr : Ready s) (hg : legalGeometry w p) :
    exec (.wrf off w p v) s = .next ((wrfBody off w p v s.accept).respond .ok) := by
  show Host.Outcome.next _ = _
  rw [frame_runs _ _ _ _ ⟨.inl hr.1, hr.2⟩ (by simp only [geometryCheck, decide_eq_true hg]; rfl)]

theorem rdf_runs (off w p : Nat) (s : State) (hr : Ready s) (hg : legalGeometry w p) :
    exec (.rdf off w p) s = .next ((rdfBody off w p s.accept).respond .ok) := by
  show Host.Outcome.next _ = _
  rw [frame_runs _ _ _ _ ⟨.inl hr.1, hr.2⟩ (by simp only [geometryCheck, decide_eq_true hg]; rfl)]

theorem prel_runs (slot : Nat) (s : State) (hr : Admitted (.prel slot) s) (hs : slot < nSlots) :
    exec (.prel slot) s = .next ((prelBody slot s.accept).respond .ok) := by
  show Host.Outcome.next _ = _
  rw [frame_runs _ _ _ _ hr (by simp [slotCheck, outOfRange, Nat.not_le.mpr hs])]

theorem srwr_runs (b : Nat) (s : State) (hr : Ready s) (hl : s.blk.srLive = true) :
    exec (.srwr b) s = .next (((shiftOut (BitVec.ofNat 8 b) s.accept).setRspData 0).respond .ok) := by
  show Host.Outcome.next _ = _
  rw [frame_runs _ _ _ _ ⟨.inl hr.1, hr.2⟩ (by simp [srLiveCheck, hl])]

theorem srfl_runs (s : State) (hr : Ready s) (hl : s.blk.srLive = true) :
    exec .srfl s = .next (((latch s.accept).setRspData 0).respond .ok) := by
  show Host.Outcome.next _ = _
  rw [frame_runs _ _ _ _ ⟨.inl hr.1, hr.2⟩ (by simp [srLiveCheck, hl])]

theorem srtd_runs (s : State) (hr : Admitted .srtd s) (hl : s.blk.srLive = true) :
    exec .srtd s = .next ((srtdBody s.accept).respond .ok) := by
  show Host.Outcome.next _ = _
  rw [frame_runs _ _ _ _ hr (by simp [srLiveCheck, hl])]

theorem mxsw_runs (s : State) (hr : Ready s) (hm : s.blk.mxLive = true) (hl : s.blk.srLive = true) :
    exec .mxsw s = .next ((mxswBody s.accept).respond .ok) := by
  show Host.Outcome.next _ = _
  rw [frame_runs _ _ _ _ ⟨.inl hr.1, hr.2⟩ (by simp [mxswChecks, hl, hm])]

theorem mxtd_runs (s : State) (hr : Admitted .mxtd s) (hl : s.blk.mxLive = true) :
    exec .mxtd s = .next ((mxtdBody s.accept).respond .ok) := by
  show Host.Outcome.next _ = _
  rw [frame_runs _ _ _ _ hr (by simp [mxtdChecks, hl])]

/-! ### Constructions -/

/-- SRINIT fills its slots, clears the three latches and then claims the three pins (42_shift_register.md R105). -/
theorem srinitBody_eq (s : State) : srinitBody s =
    let ids := [s.cfg.serId, s.cfg.srclkId, s.cfg.rclkId]
    ((leaveUnspecified (programAll fnOutput ids (clearAll ids
      (((s.setSlot slotSer (pinOf s.cfg.serId)).setSlot slotSrclk (pinOf s.cfg.srclkId)).setSlot slotRclk
        (pinOf s.cfg.rclkId))))).onBlk (Block.setSrLive true)).setRspData 0 := rfl

/-- The four digit pins, in order. -/
def digIds (c : Config) : List Nat := [c.digId[0], c.digId[1], c.digId[2], c.digId[3]]

/-- MXINIT fills its slots, clears the four latches and then claims the four pins (43_digit_mux.md R113). -/
theorem mxinitBody_eq (s : State) : mxinitBody s =
    (((programAll fnOutput (digIds s.cfg) (clearAll (digIds s.cfg)
      ((((s.setSlot 3 (pinOf s.cfg.digId[0])).setSlot 4 (pinOf s.cfg.digId[1])).setSlot 5
        (pinOf s.cfg.digId[2])).setSlot 6 (pinOf s.cfg.digId[3])))).onBlk (Block.setCursor 3)).onBlk
          (Block.setMxLive true)).setRspData 0 := by
  simp [mxinitBody, digitsUp, clearAll, programAll, digIds, slotDig, muxInitCursor, claimIO]

theorem digId_toList (c : Config) : c.digId.toList = digIds c := by
  apply List.ext_getElem
  · simp [digIds]
  · intro i h1 h2
    simp only [digIds, List.length_cons, List.length_nil] at h2
    simp only [digIds, Vector.getElem_toList]
    match i, h2 with
    | 0, _ => rfl
    | 1, _ => rfl
    | 2, _ => rfl
    | 3, _ => rfl

theorem holds_false (b : Block) (id : Nat) (h : ∀ j, j < nSlots → b.slot j ≠ pinOf id) : b.holds id = false := by
  simp only [Block.holds, Bool.and_eq_false_iff, decide_eq_false_iff_not]
  right
  intro hm
  obtain ⟨j, hj, e⟩ := Vector.mem_iff_getElem.mp (Vector.mem_toList_iff.mp hm)
  exact h j hj (by simp [Block.slot, hj, e])

theorem mem_digIds (c : Config) (k : Fin 4) : c.digId[k] ∈ digIds c := by
  rw [← digId_toList]; simp

/-! ### Programming a function -/

/-- Everything programming the function of a valid pin does, from a state that agrees with `s` on the configuration, the
peripheral, the device and the draws, with an empty trace (41_pin.md R88, R89). -/
theorem prog_facts (id : Nat) (fn : BitVec 3) (s u : State) (hw : configWf s.cfg = true) (hid : id ≤ 53)
    (n : Fin 6) (hn : n.val = id / 10)
    (hc : u.cfg = s.cfg) (hg : u.gpio = s.gpio) (he : u.ext = s.ext) (hd : u.draws = s.draws) (ht : u.trace = []) :
    ∃ r, (programFunction id fn u).trace =
        [.read s.cfg.offFsel[n] r, .write s.cfg.offFsel[n] (merge r (fn.setWidth 32) 3 (id % 10))] ∧
      (s.cfg.otherMasters = false → r = s.readValue s.cfg.offFsel[n] ∧
        (programFunction id fn u).gpio.out = s.gpio.out ∧
        (∀ j, j ≤ 53 → (programFunction id fn u).gpio.function j = if j = id then fn else s.gpio.function j) ∧
        (∀ m : Fin 6, m ≠ n → (programFunction id fn u).gpio.fsel[m] = s.gpio.fsel[m]) ∧
        (programFunction id fn u).gpio.fsel[n] = merge r (fn.setWidth 32) 3 (id % 10) ∧
        (programFunction id fn u).ext = (writeEffect s.cfg.offFsel[n] (merge r (fn.setWidth 32) 3 (id % 10))
            (if readDraws s.cfg s.cfg.offFsel[n] then s.tick else s)).ext) := by
  have hnn : n = Fin.ofNat 6 (id / 10) := Fin.ext (by simp [hn]; omega)
  subst hnn
  have hwu : configWf u.cfg = true := by rw [hc]; exact hw
  obtain ⟨r, h1, h2⟩ := programFunction_trace id fn u hwu hid
  rw [hc, ht] at h1
  refine ⟨r, by simpa [fselFieldW] using h1, fun ha => ?_⟩
  have hau : u.cfg.otherMasters = false := by rw [hc]; exact ha
  have hr : r = s.readValue s.cfg.offFsel[Fin.ofNat 6 (id / 10)] := by
    rw [h2 hau]; simp only [State.readValue, State.drawn, hc, hg, hd]
  refine ⟨hr, ?_, ?_, ?_, ?_, ?_⟩
  · rw [programFunction_out id fn u hwu hau, hg]
  · intro j hj; rw [programFunction_function id fn u hwu hau hid j hj, hg]
  · intro m hm
    rw [programFunction_gpio id fn u hwu hau hid]
    simp only [hg]
    exact Vector.getElem_set_ne _ _ (fun e => hm (Fin.ext e.symm))
  · rw [programFunction_gpio id fn u hwu hau hid]
    simp only [← h2 hau, fselFieldW]
    exact Vector.getElem_set_self _
  · rw [programFunction_valid id fn u hwu hid]
    obtain ⟨m1, m2, m3, m4⟩ := memRead_alone u.cfg.offFsel[Fin.ofNat 6 (id / 10)] u hau
    simp only []
    rw [memWrite_alone _ _ _ (by simpa using hau)]
    rw [State.record_ext, m1, ← h2 hau]
    have hfin := writeEffect_ext_congr s.cfg.offFsel[Fin.ofNat 6 (id / 10)] (merge r (fn.setWidth 32) 3 (id % 10))
      (if readDraws s.cfg s.cfg.offFsel[Fin.ofNat 6 (id / 10)] then s.tick else s)
      (memRead u.cfg.offFsel[Fin.ofNat 6 (id / 10)] u).2 ?_ ?_ ?_ ?_
    · simp only [fselFieldW, hc] at hfin ⊢
      exact hfin.1
    · rw [memRead_cfg, hc]; split <;> simp
    · rw [m2, hg]; split <;> simp
    · rw [m3, he]; split <;> simp
    · simp only [memRead, otherActs_alone _ hau, State.record_draws, hc]; split <;> simp [hd]

theorem setSlot_empty (b : Block) (i : Nat) (h : b.slot i = .empty) : b.setSlot i .empty = b := by
  have : b.slots.setIfInBounds i .empty = b.slots := by
    apply Vector.ext
    intro k hk
    rw [Vector.getElem_setIfInBounds]
    split
    · rename_i e; subst e
      simp only [Block.slot, hk, Vector.getElem?_eq_getElem, Option.getD_some] at h
      exact h.symm
    · rfl
  simp only [Block.setSlot, this]

/-! ### The teardown of the Shift Register Handle -/

/-- What SRTD's three releases leave of the device, whatever it sees on a released line: from the blank pattern in the
storage, driven lines, low clocks and a high serial-in, no release but the last can change the storage, and that one at most
by a 0 shifted in; the output latch is as it was or the blank pattern; and both are as they were when the device saw the
clocks low after each release (10_state.md R35). -/
theorem releases_device (A : State) (q : Quiet A) (he : A.ext.stor = 0xFF)
    (hd : A.gpio.out.getLsbD A.cfg.serId = true) :
    let B := releaseSlot slotRclk A
    let C := releaseSlot slotSrclk B
    let D := releaseSlot slotSer C
    B.ext.stor = 0xFF ∧ C.ext.stor = 0xFF ∧ (D.ext.stor = 0xFF ∨ D.ext.stor = 0x7F) ∧
    (D.ext.lat = A.ext.lat ∨ D.ext.lat = 0xFF) ∧
    (SawClocksLow B → SawClocksLow C → SawClocksLow D → D.ext.stor = 0xFF ∧ D.ext.lat = A.ext.lat) := by
  intro B C D
  have hA := q.1
  obtain ⟨v1, v2, v3, -, n1, n2, n3, -⟩ := wiring A.cfg hA.1
  obtain ⟨p0, p1, p2, f0, -, -⟩ := q.2.1
  have hB : Alone B := by simpa only [B, Alone, releaseSlot_cfg] using hA
  have hC : Alone C := by simpa only [C, Alone, releaseSlot_cfg] using hB
  have gB := releaseSlot_gpio slotRclk A hA
  have gC := releaseSlot_gpio slotSrclk B hB
  have pB : B.blk.slot slotSrclk = pinOf A.cfg.srclkId := by
    simpa [B, Block.slot, Block.setSlot, slotRclk, slotSrclk] using p1
  have pC : C.blk.slot slotSer = pinOf A.cfg.serId := by
    simpa [B, C, Block.slot, Block.setSlot, slotRclk, slotSrclk, slotSer] using p0
  have ne : ∀ x, x ≤ 53 → A.cfg.serId ≠ x → pinOf x ≠ .pin (Fin.ofNat 64 A.cfg.serId) := by
    intro x hx h e
    simp only [pinOf, Slot.pin.injEq] at e
    exact h (by rw [← pinOf_val _ v1, ← e, pinOf_val _ hx])
  have fB : B.gpio.function A.cfg.serId = fnOutput := by
    have := gB.2 (Fin.ofNat 64 A.cfg.serId) (by rw [pinOf_val _ v1]; exact v1)
    rw [pinOf_val _ v1, p2, if_neg (ne _ v3 n2), f0] at this
    exact this
  have fC : C.gpio.function A.cfg.serId = fnOutput := by
    have := gC.2 (Fin.ofNat 64 A.cfg.serId) (by rw [pinOf_val _ v1]; exact v1)
    rw [pinOf_val _ v1, pB, if_neg (ne _ v2 n1), fB] at this
    exact this
  have lB : B.gpio.line A.cfg.serId = some true := by rw [Gpio.line_output _ _ fB, gB.1, hd]
  have lC : C.gpio.line A.cfg.serId = some true := by rw [Gpio.line_output _ _ fC, gC.1, gB.1, hd]
  obtain ⟨a1, a2, a3, eB, sB⟩ := releaseSlot_clock slotRclk _ A hA p2 v3
  obtain ⟨b1, b2, b3, eC, sC⟩ := releaseSlot_clock slotSrclk _ B hB pB v2
  obtain ⟨c1, c2, c3, eD, -⟩ := releaseSlot_clock slotSer _ C hC pC v1
  have da := sB lB
  have db := sC (by simpa only [B, releaseSlot_cfg] using lC)
  have one : shiftIn 0xFF true = 0xFF := by decide
  have kB := (Ext.clock_cases A.ext a1 a2 a3)
  have kC := (Ext.clock_cases B.ext b1 b2 b3)
  have kD := (Ext.clock_cases C.ext c1 c2 c3)
  have wB := Ext.clock_low A.ext a1 a2 a3
  have wC := Ext.clock_low B.ext b1 b2 b3
  have wD := Ext.clock_low C.ext c1 c2 c3
  rw [← eB] at kB wB
  rw [← eC] at kC wC
  rw [← eD] at kD wD
  have tB : B.ext.stor = 0xFF := by
    rcases kB.1 with h | h
    · exact h.trans he
    · exact h.trans (by rw [he, da, one])
  have tC : C.ext.stor = 0xFF := by
    rcases kC.1 with h | h
    · exact h.trans tB
    · exact h.trans (by rw [tB, db, one])
  refine ⟨tB, tC, ?_, ?_, fun x y z => ⟨?_, ?_⟩⟩
  · rcases kD.1 with h | h
    · exact .inl (h.trans tC)
    · rw [show D.ext.stor = _ from h, tC]
      cases c3
      · exact .inr (by decide)
      · exact .inl one
  · rcases kD.2 with h | h
    · rcases kC.2 with h' | h'
      · rcases kB.2 with h'' | h''
        · exact .inl (h.trans (h'.trans h''))
        · exact .inr (h.trans (h'.trans (h''.trans he)))
      · exact .inr (h.trans (h'.trans tB))
    · exact .inr (h.trans tC)
  · exact (wD.1 z.1).trans tC
  · exact (wD.2 z.2).trans ((wC.2 y.2).trans (wB.2 x.2))

/-- With the lines driven and the clocks low, SRTD's body leaves the blank pattern in the storage and the output latch as it
was, when the device sees a released line at its latch's level (42_shift_register.md R108; log 32). -/
theorem srtdBody_device (s : State) (hq : Quiet s) (h : s.cfg.undrivenLine = .held) :
    (srtdBody s).ext.stor = 0xFF ∧ (srtdBody s).ext.lat = s.ext.lat := by
  obtain ⟨q, same, e, -⟩ := shiftOut_quiet blankPattern s hq
  have hA := q.1
  have hu : (shiftOut blankPattern s).cfg.undrivenLine = .held := by rw [same.1]; exact h
  have l1 := q.2.2.1
  have l2 := q.2.2.2
  simp only [srtdBody, State.setRspData_ext, State.onBlk_ext]
  generalize shiftOut blankPattern s = A at *
  have hB : Alone (releaseSlot slotRclk A) := by simpa only [Alone, releaseSlot_cfg] using hA
  have hC : Alone (releaseSlot slotSrclk (releaseSlot slotRclk A)) := by simpa only [Alone, releaseSlot_cfg] using hB
  have oB := (releaseSlot_gpio slotRclk A hA).1
  have oC := (releaseSlot_gpio slotSrclk _ hB).1
  have a := releaseSlot_held slotRclk A hA hu l1 l2
  have b := releaseSlot_held slotSrclk _ hB (by simpa using hu) (by simpa [oB] using l1) (by simpa [oB] using l2)
  have c := releaseSlot_held slotSer _ hC (by simpa using hu) (by simpa [oC, oB] using l1) (by simpa [oC, oB] using l2)
  rw [c.1, c.2, b.1, b.2, a.1, a.2, e]
  exact ⟨rfl, rfl⟩

/-! ### The switch to the next digit -/

/-- A claimed digit is enabled when its latch is high (10_state.md R33, R36). -/
theorem enabled_eq (c : Config) (g : Gpio) (k : Fin 4) (h : g.function c.digId[k] = fnOutput) :
    enabled c g k = g.out.getLsbD c.digId[k] := by
  rw [enabled, Gpio.line_output _ _ h]
  cases g.out.getLsbD c.digId[k] <;> simp

theorem next_ne (k : Fin 4) : k + 1 ≠ k := by revert k; decide

/-- Everything MXSW's body does with the lines driven, the clocks low and the digits' slots filled: the storage and the
output latch hold the host's pattern, the clocks are low again, and of the enables the old digit's is low and the next
one's high (43_digit_mux.md R114). -/
theorem mxsw_body_quiet (s : State) (hq : Quiet s) (hd : DigitPinsReady s) :
    let u := mxswBody s
    u.cfg = s.cfg ∧ u.gpio.fsel = s.gpio.fsel ∧
    u.ext = { stor := hostPattern (s.blk.cursor + 1) s, lat := hostPattern (s.blk.cursor + 1) s, srclkPrev := false,
              rclkPrev := false } ∧
    u.gpio.out.getLsbD s.cfg.srclkId = false ∧ u.gpio.out.getLsbD s.cfg.rclkId = false ∧
    ∀ k : Fin 4, u.gpio.out.getLsbD s.cfg.digId[k] =
       if k = s.blk.cursor + 1 then true else if k = s.blk.cursor then false else s.gpio.out.getLsbD s.cfg.digId[k] := by
  intro u
  obtain ⟨w1, w2, w3, w4, n1, n2, n3, n4, n5⟩ := wiring s.cfg hq.1.1
  let nx := s.blk.cursor + 1
  have q0 : Quiet (patternAnswered s) := hq.congr (by simp) (fun i => by simp) (by simp)
  obtain ⟨q1, s1, e1, o1⟩ := shiftOut_quiet (hostPattern nx s) _ q0
  generalize hA : shiftOut (hostPattern nx s) (patternAnswered s) = A at q1 s1 e1 o1
  have cA : A.cfg = s.cfg := by rw [s1.1]; simp
  have bA : A.blk = s.blk := by rw [s1.2.1]; simp
  have c2 : slotClear (slotDig s.blk.cursor) A = clearIO s.cfg.digId[s.blk.cursor] A := by
    rw [slotClear, onSlot_pin _ s.cfg.digId[s.blk.cursor] _ _ (by rw [bA]; exact (hd _).1) (w4 _)]
  obtain ⟨q2, s2, e2, o2⟩ := clearIO_quiet s.cfg.digId[s.blk.cursor] A (w4 _) q1
  generalize hB : clearIO s.cfg.digId[s.blk.cursor] A = B at q2 s2 e2 o2
  obtain ⟨q3, s3, e3, o3⟩ := latch_quiet B q2
  generalize hC : latch B = C at q3 s3 e3 o3
  have cC : C.cfg = s.cfg := by rw [s3.1, s2.1, cA]
  have bC : C.blk = s.blk := by rw [s3.2.1, s2.2.1, bA]
  have c4 : slotSet (slotDig nx) C = setIO s.cfg.digId[nx] C := by
    rw [slotSet, onSlot_pin _ s.cfg.digId[nx] _ _ (by rw [bC]; exact (hd _).1) (w4 _)]
  obtain ⟨q4, s4, e4, o4⟩ := setIO_quiet s.cfg.digId[nx] C (w4 _) q3 (by rw [cC]; exact (n4 nx).2.1.symm)
    (by rw [cC]; exact (n4 nx).2.2.symm)
  have hu : u = (((setIO s.cfg.digId[nx] C).onBlk (Block.setCursor nx)).setRspData 0) := by
    show (((slotSet (slotDig nx) (latch (slotClear (slotDig s.blk.cursor)
      (shiftOut (hostPattern nx s) (patternAnswered s))))).onBlk (Block.setCursor nx)).setRspData 0) = _
    rw [hA, c2, hB, hC, c4]
  generalize hD : setIO s.cfg.digId[nx] C = D at q4 s4 e4 o4 hu
  have out : ∀ j, j ≤ 53 → u.gpio.out.getLsbD j =
      ((if j = s.cfg.serId then (hostPattern nx s).getLsbD 7 else s.gpio.out.getLsbD j) &&
        !decide (j = s.cfg.digId[s.blk.cursor]) || decide (j = s.cfg.digId[nx])) := by
    intro j hj
    rw [hu]; simp only [State.setRspData_gpio, State.onBlk_gpio]
    rw [o4 j hj, o3 j hj, o2 j hj, o1 j hj]
    simp
  refine ⟨?_, ?_, ?_, ?_, ?_, ?_⟩
  · rw [hu]; simp [s4.1, cC]
  · rw [hu]; simp [s4.2.2.2, s3.2.2.2, s2.2.2.2, s1.2.2.2]
  · rw [hu]; simp [e4, e3, e2, e1, nx]
  · rw [out _ w2]; simp [n1.symm, hq.2.2.1]; exact (n4 nx).2.1.symm
  · rw [out _ w3]; simp [n2.symm, hq.2.2.2]; exact (n4 nx).2.2.symm
  · intro k
    rw [out _ (w4 k)]
    have hk := (n4 k).1
    by_cases h1 : k = nx
    · simp [h1, nx]
    · have h1' := n5 k nx h1
      by_cases h2 : k = s.blk.cursor
      · subst h2
        simp only [nx] at *
        simp_all
      · have h2' := n5 k _ h2
        have h1'' : ¬ k = s.blk.cursor + 1 := h1
        rw [if_neg h1'', if_neg h2, if_neg hk, decide_eq_false h1', decide_eq_false h2']; simp

end Sys2Proof.Machine
end

