-- ==== Sys2Proof/Tests/Slice0.lean ====
section
/-! SUPPORT. The model's own tests. Expected values are those of spec/95_test_vectors.md or worked by hand from the rule a
comment names, never the model's own answers. The last part shows, for every statement with hypotheses, a concrete state
and operands that meet them. -/

namespace Sys2Proof.Machine.Tests

open Sys2Proof Sys2Proof.Machine

/-! ### States and readings the tests use -/

/-- The start state of 95_test_vectors.md: reset, with every function field, latch and remembered level 0. -/
def bench : State := { State.reset with
  gpio := { fsel := Vector.replicate 6 0, out := 0 }
  ext := { stor := 0, lat := 0, srclkPrev := false, rclkPrev := false } }

/-- `bench` with the word `v` in function-select register `n`. -/
def benchFsel (n : Fin 6) (v : Word) : State := { bench with gpio := { bench.gpio with fsel := bench.gpio.fsel.set n v } }

/-- `bench` with pin `id` in slot `i`. -/
def benchSlot (i : Nat) (id : Nat) : State := bench.setSlot i (pinOf id)

/-- The block after `SRINIT; MXINIT` from `bench` (95_test_vectors.md 2.4.1, 2.5.1), with latches and storage 0. -/
def live : State := { bench with
  blk := { Block.reset with
    slots := #v[pinOf 17, pinOf 27, pinOf 22, pinOf 5, pinOf 6, pinOf 13, pinOf 19, .empty, .empty, .empty, .empty,
      .empty, .empty, .empty, .empty, .empty]
    srLive := true
    mxLive := true }
  gpio := { fsel := #v[0x00048000, 0x08200200, 0x00200040, 0, 0, 0], out := 0 } }

/-- The block after `SRINIT` from `bench`. -/
def shiftLive : State := { live with
  blk := { Block.reset with
    slots := live.blk.slots.set 3 .empty |>.set 4 .empty |>.set 5 .empty |>.set 6 .empty
    srLive := true }
  gpio := { fsel := #v[0, 0x00200000, 0x00200040, 0, 0, 0], out := 0 } }

/-- A faulted block. -/
def faulty (s : State) : State := s.onBlk (fun b => { b with fault := 0x05 })

/-- A window that is not mapped. -/
def unmapped (s : State) : State := s.onHost (fun h => { h with mapped := false })

/-- The state after a command. -/
def after (i : Instr) (s : State) : State :=
  match exec i s with
  | .next t => t
  | .fault _ => s
  | .refused _ => s

/-- The state after a step. -/
def afterStep (s : State) : State :=
  match step s with
  | .next t => t
  | .fault _ => s
  | .refused _ => s

/-- The response of the block: its status, its fault code and its data. -/
def response (s : State) : RspStatus × BitVec 8 × Word := (s.blk.rspStatus, s.blk.fault, s.blk.rspData)

theorem exec_after (i : Instr) (s : State) : exec i s = .next (after i s) := by
  obtain ⟨t, h⟩ : ∃ t, exec i s = .next t := by cases i <;> exact ⟨_, rfl⟩
  simp [after, h]

theorem systemStep_next (s : State) : ∃ t, systemStep s = .next t := by
  unfold systemStep
  by_cases hb : (otherActs s).blk.busy = true
  · exact ⟨_, if_pos hb⟩
  · simp only [hb, Bool.false_eq_true, if_false]
    cases decode (otherActs s).host.port with
    | command i rest => exact ⟨_, exec_after _ _⟩
    | illegal why w rest => exact ⟨_, rfl⟩
    | incomplete => exact ⟨_, rfl⟩

theorem afterStep_eq (s t : State) (hs : step s = .next t) : afterStep s = t := by
  unfold afterStep
  simp only [hs]

theorem step_after (s : State) (h : configWf s.cfg = true) : step s = .next (afterStep s) := by
  obtain ⟨t, ht⟩ := systemStep_next s
  have hs : step s = .next t := by
    unfold step
    exact (if_pos h).trans ht
  exact hs.trans (congrArg Host.Outcome.next (afterStep_eq s t hs).symm)

/-! ### Well-formedness: an ill-formed term for each check (30_encoding.md R79) -/

theorem test_wf_accepts_limits : (Instr.wrf 1023 32 31 0).wf = true ∧ (Instr.pclm 15 63).wf = true ∧
    (Instr.pmov 15 15).wf = true ∧ (Instr.srwr 255).wf = true := by decide
theorem test_wf_refuses_offset : (Instr.wrf 1024 3 0 1).wf = false ∧ (Instr.rdf 1024 3 0).wf = false := by decide
theorem test_wf_refuses_width : (Instr.wrf 1 0 0 1).wf = false ∧ (Instr.wrf 1 33 0 1).wf = false ∧
    (Instr.rdf 1 0 0).wf = false ∧ (Instr.rdf 1 33 0).wf = false := by decide
theorem test_wf_refuses_position : (Instr.wrf 1 1 32 1).wf = false ∧ (Instr.rdf 1 1 32).wf = false := by decide
theorem test_wf_refuses_slot : (Instr.pclm 16 17).wf = false ∧ (Instr.prel 16).wf = false ∧
    (Instr.pset 16).wf = false ∧ (Instr.pclr 16).wf = false ∧ (Instr.ppls 16).wf = false := by decide
theorem test_wf_refuses_id : (Instr.pclm 7 64).wf = false := by decide
theorem test_wf_refuses_move : (Instr.pmov 16 0).wf = false ∧ (Instr.pmov 0 16).wf = false := by decide
theorem test_wf_refuses_byte : (Instr.srwr 256).wf = false := by decide
theorem test_assembler_refuses : assemble (.srwr 256) = none := by decide

/-! ### Configurations (00_scope.md R7, 20_memory.md R42, 10_state.md R36, 44_host_side.md R127) -/

theorem test_config_default : configWf Config.default = true := by decide
theorem test_config_refuses_equal_offsets : configWf { Config.default with offSet := #v[7, 7] } = false := by decide
theorem test_config_refuses_offset_outside : configWf { Config.default with offClr := #v[10, 1024] } = false := by decide
theorem test_config_refuses_equal_pins : configWf { Config.default with serId := 5 } = false := by decide
theorem test_config_refuses_pin_54 : configWf { Config.default with rclkId := 54 } = false := by decide
theorem test_config_refuses_qmap :
    configWf { Config.default with qmap := #v[0, 1, 2, 3, 4, 5, 6, 6] } = false := by decide
theorem test_config_refuses_point_bit :
    configWf { Config.default with segTable := Config.default.segTable.set 3 0x7F } = false := by decide

/-! ### Decoding: words written out field by field from 30_encoding.md R71 to R76, and those of 95_test_vectors.md 2.1 -/

-- OP 0001, OFF 0000000101, W-1 00010, P 00011, zero; word1 the value.
theorem test_decode_wrf : decode [0b0001_0000000101_00010_00011_00000000, 0xDEADBEEF] =
    .command (.wrf 5 3 3 0xDEADBEEF) [] := by decide
-- OP 0010, OFF 1001011000, W-1 00010, P 00000: the word of 95_test_vectors.md 2.2.3.
theorem test_decode_rdf : decode [0b0010_1001011000_00010_00000_00000000] = .command (.rdf 600 3 0) [] := by decide
-- OP 0011, SLOT 1000, ID 101000.
theorem test_decode_pclm : decode [0b0011_1000_101000_000000000000000000] = .command (.pclm 8 40) [] := by decide
theorem test_decode_prel : decode [0b0100_0111_000000000000000000000000] = .command (.prel 7) [] := by decide
theorem test_decode_pset : decode [0b0101_1000_000000000000000000000000] = .command (.pset 8) [] := by decide
theorem test_decode_pclr : decode [0b0110_0001_000000000000000000000000] = .command (.pclr 1) [] := by decide
theorem test_decode_ppls : decode [0b0111_1111_000000000000000000000000] = .command (.ppls 15) [] := by decide
-- OP 1000, DST 1001, SRC 0111.
theorem test_decode_pmov : decode [0b1000_1001_0111_00000000000000000000] = .command (.pmov 9 7) [] := by decide
theorem test_decode_srinit : decode [0b1001_0000000000000000000000000000] = .command .srinit [] := by decide
theorem test_decode_srwr : decode [0b1010_00000000000000000000_10100101] = .command (.srwr 0xA5) [] := by decide
theorem test_decode_srfl : decode [0b1011_0000000000000000000000000000] = .command .srfl [] := by decide
theorem test_decode_srtd : decode [0b1100_0000000000000000000000000000] = .command .srtd [] := by decide
theorem test_decode_mxinit : decode [0b1101_0000000000000000000000000000] = .command .mxinit [] := by decide
theorem test_decode_mxsw : decode [0b1110_0000000000000000000000000000, 1] = .command .mxsw [1] := by decide
theorem test_decode_mxtd : decode [0b1111_0000000000000000000000000000] = .command .mxtd [] := by decide
theorem test_decode_reserved_opcode : decode [0x0FFFFFFF] = .illegal .reservedOpcode 0x0FFFFFFF [] := by decide
theorem test_decode_must_be_zero : [(0x20000080 : Word), 0x30000001, 0x40040000, 0x50000001, 0x80080000, 0x90000001,
    0xA0000100, 0xB8000000, 0xF0000001].all (fun w => decide (decode [w] = .illegal .mustBeZero w [])) = true := by decide
theorem test_decode_illegal_wrf_takes_two_words :
    decode [0x10000001, 0x90000000] = .illegal .mustBeZero 0x10000001 [] := by decide
theorem test_decode_waits_for_word1 : decode [0x10044000] = .incomplete ∧ decode [] = .incomplete := by decide
theorem test_encode_examples : encode (.wrf 1 3 7 1) = [0x10044700, 1] ∧ encode (.pclm 7 17) = [0x37440000] ∧
    encode (.pmov 9 7) = [0x89700000] ∧ encode (.srwr 0xA5) = [0xA00000A5] := by decide
theorem test_table_word : decodeTableWord 64 0x0000000110044700 = some (.wrf 1 3 7 1) ∧
    decodeTableWord 32 0xE0000000 = some .mxsw ∧ decodeTableWord 32 0 = none := by decide

/-! ### One step for each command -/

-- 95_test_vectors.md 2.2.1, last row.
theorem test_wrf_merges : (after (.wrf 1 3 7 1) (benchFsel 1 0xFFFFFFFF)).trace =
    [.read 1 0xFFFFFFFF, .write 1 0xFF3FFFFF] := by decide
-- 95_test_vectors.md 2.7 F4.
theorem test_wrf_bad_geometry : response (after (.wrf 1 3 10 5) bench) = (.fault, 0x04, 0x10044A00) := by decide
-- 95_test_vectors.md 2.2.3: reserved bits 23:12 read as stored.
theorem test_rdf_reserved : response (after (.rdf 5 12 1) (benchFsel 5 0x0FFFF201)) = (.ok, 0, 0x00000FFF) := by decide
-- 95_test_vectors.md 2.2.3: an offset outside a smaller window.
theorem test_rdf_outside : let t := after (.rdf 600 3 0) { bench with cfg := { bench.cfg with windowBytes := 2048 } }
    response t = (.ok, 0, 0) ∧ t.trace = [] := by decide
-- 95_test_vectors.md 2.3 PN2.
theorem test_pclm_claims : let t := after (.pclm 8 40) bench
    t.blk.slot 8 = pinOf 40 ∧ t.trace = [.read 4 0, .write 4 1] := by decide
-- 95_test_vectors.md 2.3 PN11 and PN10: the slot check comes before the id check.
theorem test_pclm_faults : response (after (.pclm 7 18) (benchSlot 7 17)) = (.fault, 0x07, 0x37480000) ∧
    response (after (.pclm 8 17) (benchSlot 7 17)) = (.fault, 0x08, 0x38440000) := by decide
-- 95_test_vectors.md 2.2.3 PN6: the field becomes input, not its value before the claim.
theorem test_prel_releases : let t := after (.prel 7) ((benchFsel 1 0x12345678).setSlot 7 (pinOf 17))
    t.trace = [.read 1 0x12345678, .write 1 0x12145678] ∧ t.blk.slot 7 = .empty := by decide
-- 95_test_vectors.md 2.3 PN8 and PN14: an empty and an inert slot.
theorem test_prel_no_access : (after (.prel 7) bench).trace = [] ∧ (after (.prel 7) (benchSlot 7 60)).trace = [] ∧
    (after (.prel 7) (benchSlot 7 60)).blk.slot 7 = .empty := by decide
-- 95_test_vectors.md 2.3 PN4.
theorem test_pset_raises : let t := after (.pset 8) (benchSlot 8 40)
    t.trace = [.write 8 0x00000100] ∧ t.gpio.out = 1 <<< 40 := by decide
-- 95_test_vectors.md 2.3 PN16: the latch is written whatever the function, and the line is undriven.
theorem test_pset_input : let t := after (.pset 7) (benchSlot 7 17)
    t.gpio.out.getLsbD 17 = true ∧ t.gpio.line 17 = none := by decide
-- 95_test_vectors.md 3.1, command 4.
theorem test_pclr_lowers : let s := { benchSlot 8 40 with gpio := { bench.gpio with out := 1 <<< 40 } }
    (after (.pclr 8) s).trace = [.write 11 0x00000100] ∧ (after (.pclr 8) s).gpio.out = 0 := by decide
-- 95_test_vectors.md 2.3 PN3.
theorem test_ppls_pulses : let t := after (.ppls 7) (benchSlot 7 17)
    t.trace = [.write 7 0x00020000, .write 10 0x00020000] ∧ t.gpio.out = 0 := by decide
-- 95_test_vectors.md 2.3 PN7 and PN9.
theorem test_pmov_moves : let t := after (.pmov 9 7) (benchSlot 7 17)
    t.blk.slot 9 = pinOf 17 ∧ t.blk.slot 7 = .empty ∧ t.trace = [] ∧
    (after (.pmov 7 7) (benchSlot 7 17)).blk.slot 7 = pinOf 17 := by decide
-- 95_test_vectors.md 2.3 PN15.
theorem test_pmov_busy : response (after (.pmov 3 7) ((benchSlot 7 17).setSlot 3 (pinOf 40))) =
    (.fault, 0x07, 0x83700000) := by decide
-- 95_test_vectors.md 2.4.1.
theorem test_srinit_trace : (after .srinit bench).trace = [.write 10 0x00020000, .write 10 0x08000000,
    .write 10 0x00400000, .read 1 0, .write 1 0x00200000, .read 2 0, .write 2 0x00200000, .read 2 0x00200000,
    .write 2 0x00200040] := by decide
-- 95_test_vectors.md 2.4.4.
theorem test_srinit_faults : response (after .srinit (benchSlot 7 17)) = (.fault, 0x08, 0x90000000) ∧
    response (after .srinit (benchSlot 1 60)) = (.fault, 0x07, 0x90000000) ∧
    response (after .srinit shiftLive) = (.fault, 0x06, 0x90000000) := by decide
-- 95_test_vectors.md 2.4.2, byte 0xA5.
theorem test_srwr_shifts : let t := after (.srwr 0xA5) shiftLive
    t.ext.stor = 0xA5 ∧ t.ext.lat = 0 ∧ t.trace.take 3 = [.write 7 0x00020000, .write 7 0x08000000, .write 10 0x08000000] ∧
    t.trace.length = 24 := by decide +kernel
-- 95_test_vectors.md 2.4.2, the clock-idle hazard: with the shift clock left high, 7 bits are shifted.
theorem test_srwr_hazard : (after (.srwr 0xFF) { shiftLive with
    gpio := { shiftLive.gpio with out := 1 <<< 27 }
    ext := { shiftLive.ext with srclkPrev := true } }).ext.stor = 0xFE := by decide +kernel
-- 95_test_vectors.md 2.4.2.
theorem test_srfl_latches : let t := after .srfl { shiftLive with ext := { shiftLive.ext with stor := 0xA5 } }
    t.ext.lat = 0xA5 ∧ t.ext.stor = 0xA5 ∧ t.trace = [.write 7 0x00400000, .write 10 0x00400000] := by decide
-- 95_test_vectors.md 2.4.3.
theorem test_srtd_trace : let t := after .srtd shiftLive
    t.trace.drop 24 = [.read 2 0x00200040, .write 2 0x00200000, .read 2 0x00200000, .write 2 0, .read 1 0x00200000,
      .write 1 0] ∧ t.gpio.out = 1 <<< 17 ∧ t.blk.srLive = false := by decide +kernel
-- 95_test_vectors.md 2.4.3 and 3.3, end state: the storage holds the blank pattern, the output latch keeps the last one,
-- when the device sees a released line at its latch's level (log 32).
theorem test_srtd_device : let t := after .srtd { shiftLive with
      cfg := { shiftLive.cfg with undrivenLine := .held }
      ext := { shiftLive.ext with stor := 0x3C, lat := 0x92 } }
    t.ext.stor = 0xFF ∧ t.ext.lat = 0x92 := by decide +kernel
-- 95_test_vectors.md 2.5.1.
theorem test_mxinit_trace : (after .mxinit shiftLive).trace = [.write 10 0x00000020, .write 10 0x00000040,
    .write 10 0x00002000, .write 10 0x00080000, .read 0 0, .write 0 0x00008000, .read 0 0x00008000,
    .write 0 0x00048000, .read 1 0x00200000, .write 1 0x00200200, .read 1 0x00200200, .write 1 0x08200200] := by decide
-- 95_test_vectors.md 2.5.4.
theorem test_mxinit_faults : response (after .mxinit (benchSlot 3 40)) = (.fault, 0x07, 0xD0000000) ∧
    response (after .mxinit (benchSlot 7 13)) = (.fault, 0x08, 0xD0000000) ∧
    response (after .mxinit live) = (.fault, 0x06, 0xD0000000) := by decide
-- 95_test_vectors.md 2.5.2, the first switch, with the host's answer 0xF9.
theorem test_mxsw_lights_digit_0 : let t := after .mxsw (live.onHost (fun h => { h with answers := [0xF9] }))
    t.trace.drop 24 = [.write 10 0x00080000, .write 7 0x00400000, .write 10 0x00400000, .write 7 0x00000020] ∧
    t.blk.cursor = 0 ∧ t.ext.lat = 0xF9 ∧ [0, 1, 2, 3].map (enabled t.cfg t.gpio) = [true, false, false, false] := by
  decide +kernel
-- 95_test_vectors.md 2.5.4: MXSW without the Shift Register Handle.
theorem test_mxsw_not_init :
    response (after .mxsw (live.onBlk (Block.setSrLive false))) = (.fault, 0x05, 0xE0000000) := by decide
-- 95_test_vectors.md 2.5.3.
theorem test_mxtd_trace : let t := after .mxtd live
    t.trace = [.write 10 0x00000020, .write 10 0x00000040, .write 10 0x00002000, .write 10 0x00080000,
      .read 1 0x08200200, .write 1 0x00200200, .read 1 0x00200200, .write 1 0x00200000, .read 0 0x00048000,
      .write 0 0x00008000, .read 0 0x00008000, .write 0 0] ∧ t.blk.mxLive = false ∧ t.blk.slot 6 = .empty := by decide

/-! ### The frame, the step and the host -/

-- 95_test_vectors.md 2.7 F1, F2, F3.
theorem test_frame_unmapped : response (after .srinit (unmapped bench)) = (.fault, 0x02, 0x90000000) ∧
    response (after (.wrf 1 3 0 1) (faulty bench)) = (.refused, 0x05, 0x10044000) ∧
    response (illegalCommand 0 (faulty bench)) = (.fault, 0x05, 0) := by decide
-- 95_test_vectors.md 2.7 F6, by a step: an illegal word faults before `mapped` is looked at.
theorem test_step_illegal : response (afterStep ((unmapped bench).withFetchWord 32 0)) = (.fault, 0x01, 0) := by decide
-- A step runs the presented command (program 3.1, command 1).
theorem test_step_runs : let t := afterStep (bench.withFetchWord 32 0x37440000)
    response t = (.ok, 0, 0) ∧ t.blk.slot 7 = pinOf 17 ∧ t.host.port = [] := by decide
-- 44_host_side.md R133: with the stop flag set, the refresh loop's next command is MXTD.
theorem test_host_stops : (afterStep (live.onHost (fun h => { h with phase := .refresh, stop := true }))).host.port =
    [0xF0000000] := by decide
-- 70_reset_and_hazards.md R150: without a mapped window the process exits with code 1.
theorem test_host_boot_unmapped : (afterStep (unmapped (bench.onHost (fun h => { h with phase := .boot })))).host.phase =
    .exited 1 := by decide
-- 30_encoding.md R69: behind the first word of a WRF the host program presents nothing, even when it has a turn as input.
theorem test_host_waits_for_word1 : (afterStep ((live.withPort [0x10044000]).onHost (fun h =>
    { h with phase := .refresh, inputs := [.turn] }))).host.port = [0x10044000] := by decide
-- 44_host_side.md R131: while the refresh loop runs, no other agent's words reach the port.
theorem test_host_is_the_only_agent : (afterStep (live.onHost (fun h =>
    { h with phase := .refresh, inputs := [.present [0xF0000000]] }))).host.port = [] ∧
    (afterStep (live.onHost (fun h => { h with inputs := [.present [0xF0000000]] }))).host.port = [0xF0000000] := by decide
-- 95_test_vectors.md 1.6: the four answers for 14:05 with the point on.
theorem test_refresh_answers : [0, 1, 2, 3].map (refreshAnswer Config.default { packed := packTime 14 5, blink := true }) =
    [0xF9, 0x99, 0x40, 0x92] := by decide
-- 95_test_vectors.md 2.6.
theorem test_seg_outside : seg Config.default 16 = 0xFF ∧ seg Config.default (-1) = 0xFF ∧
    segp Config.default 16 true = 0x7F ∧ segp Config.default 8 true = 0 ∧ packTime 23 59 = 0x2359 := by decide

/-! ### Witnesses: concrete states that meet the hypotheses of the statements -/

/-- `live` with another master whose next two opportunities are `acts`. -/
def liveShared (acts : List (List OtherAccess)) : State := { live with
  cfg := { live.cfg with otherMasters := true }
  other := acts }

/-- `s` with `words` presented. -/
def presenting (words : List Word) (s : State) : State := s.withPort words

theorem ready_bench : Ready bench := by unfold Ready; decide
theorem ready_live : Ready live := by unfold Ready; decide
theorem ready_shiftLive : Ready shiftLive := by unfold Ready; decide
theorem alone_bench : Alone bench := by unfold Alone; decide
theorem alone_live : Alone live := by unfold Alone; decide
theorem shiftPinsReady_live : ShiftPinsReady live := by unfold ShiftPinsReady; decide
theorem shiftPinsReady_shiftLive : ShiftPinsReady shiftLive := by unfold ShiftPinsReady; decide
theorem clocksLow_live : ClocksLow live := by unfold ClocksLow; decide
theorem muxWorking_live : MuxWorking live := by unfold MuxWorking DigitPinsReady; decide

/-- Slots that hold pairwise different handles, where they hold any, have unique owners. -/
theorem uniqueOwners_of (b : Block)
    (h : ∀ i j : Fin 16, i ≠ j → b.slot i.val = b.slot j.val → b.slot i.val = .empty) : UniqueOwners b := by
  intro i j hi hj hij id _ e e'
  have := h ⟨i, hi⟩ ⟨j, hj⟩ (fun x => hij (congrArg Fin.val x)) (e.trans e'.symm)
  rw [show b.slot i = .pin id from e] at this
  cases this

theorem uniqueOwners_live : UniqueOwners live.blk := uniqueOwners_of _ (by decide +kernel)
theorem uniqueOwners_shiftLive : UniqueOwners shiftLive.blk := uniqueOwners_of _ (by decide +kernel)
theorem uniqueOwners_bench : UniqueOwners bench.blk := uniqueOwners_of _ (by decide +kernel)

-- Encoding.
theorem witness_DecodeInvertsEncode : (Instr.wrf 1023 32 31 0xFFFFFFFF).wf = true ∧ (Instr.rdf 0 1 0).wf = true ∧
    (Instr.pclm 15 63).wf = true ∧ (Instr.pmov 15 0).wf = true ∧ (Instr.srwr 255).wf = true := by decide
theorem witness_EncodeInvertsDecode : decode [0x1FFFFF00, 0xFFFFFFFF, 7] = .command (.wrf 1023 32 31 0xFFFFFFFF) [7] ∧
    decode [0x3FFC0000] = .command (.pclm 15 63) [] := by decide
theorem witness_PseudoInstructionsAssemble : configWf Config.default = true ∧ Config.default.blockWords ≤ 1024 := by decide

-- The step and the frame.
theorem witness_StepRunsTheDecodedCommand : let s := presenting [0x10044700, 1, 0xE0000000] bench
    configWf s.cfg = true ∧ s.blk.busy = false ∧ decode s.host.port = .command (.wrf 1 3 7 1) [0xE0000000] ∧
    s.cfg.otherMasters = false := by decide
theorem witness_IllegalWordFaults : let s := presenting [0x10000001, 1, 0xE0000000] (faulty (unmapped bench))
    configWf s.cfg = true ∧ s.blk.busy = false ∧ decode s.host.port = .illegal .mustBeZero 0x10000001 [0xE0000000] := by
  decide
theorem witness_BusyBlockLetsCommandsWait : let s := (presenting [0xE0000000] live).accept
    configWf s.cfg = true ∧ s.blk.busy = true := by decide
theorem witness_OnlyIllFormedConfigurationsAreRefused :
    configWf { bench with cfg := { bench.cfg with serId := 54 } }.cfg = false ∧ configWf bench.cfg = true := by decide
theorem witness_FaultsArePrecise : (after (.srwr 0x12) bench).blk.rspStatus = .fault := by decide
theorem witness_FaultedBlockRefusesAllButTeardown : (faulty live).blk.fault ≠ 0 ∧
    ((∀ k, Instr.pset 7 ≠ .prel k) ∧ Instr.pset 7 ≠ .srtd ∧ Instr.pset 7 ≠ .mxtd) ∧
    ((∃ k, Instr.prel 7 = .prel k) ∧ (after (.prel 7) (faulty live)).blk.rspStatus = .ok ∧
      (after .srtd (faulty bench)).blk.rspStatus = .fault) := by
  refine ⟨by decide, ⟨by simp, by decide, by decide⟩, ⟨7, rfl⟩, by decide, by decide⟩
theorem witness_FirstFaultIsKeptUntilReset : (faulty bench).blk.fault ≠ 0 ∧
    exec (.srwr 1) bench = .next (after (.srwr 1) bench) ∧ (after (.srwr 1) bench).blk.fault ≠ bench.blk.fault ∧
    (faulty bench).blk.srLive = false ∧ (faulty bench).blk.mxLive = false ∧
    (let s := (faulty bench).onHost (fun h => { h with inputs := [.reset] })
     s.blk.fault ≠ 0 ∧ step s = .next (afterStep s) ∧ (afterStep s).blk.fault = 0) ∧
    (let s := presenting [0xC0000000] (faulty live)
     s.blk.fault ≠ 0 ∧ step s = .next (afterStep s) ∧ (afterStep s).blk.rspStatus = .ok) :=
  ⟨by decide, exec_after _ _, by decide, by decide, by decide, ⟨by decide, step_after _ (by decide), by decide⟩,
    by decide, step_after _ (by decide), by decide +kernel⟩
theorem witness_UnmappedWindowFaultsEveryCommand : (unmapped bench).host.mapped = false ∧
    (unmapped bench).blk.fault = 0 ∧ (unmapped (faulty bench)).host.mapped = false ∧
    admittedWhileFaulted .srtd = true := by decide
theorem witness_ReservedFaultCodesAreNeverWritten : LegalFault (presenting [0xE0000000] bench).blk ∧
    ∃ t, step (presenting [0xE0000000] bench) = .next t ∧ t.blk.fault = 0x05 :=
  ⟨by unfold LegalFault; decide, _, step_after _ (by decide), by decide⟩
theorem witness_ConfigurationIsFixed : ∃ t, step (presenting [0x90000000] bench) = .next t ∧ t.blk.srLive = true :=
  ⟨_, step_after _ (by decide), by decide⟩
theorem witness_EveryStepKeepsUniqueOwners : UniqueOwners (presenting [0x90000000] bench).blk ∧
    ∃ t, step (presenting [0x90000000] bench) = .next t ∧ t.blk.slot 2 = pinOf 22 :=
  ⟨uniqueOwners_bench, _, step_after _ (by decide), by decide⟩

-- The register window and the Register Writer.
theorem witness_SetAndClearRegistersActPerBit : configWf bench.cfg = true ∧ (0 : Nat) ≤ 53 ∧ 31 ≤ 53 ∧ 32 ≤ 53 ∧ 53 ≤ 53 := by
  decide
theorem witness_FunctionFieldsReadAsStored : configWf bench.cfg = true ∧ (functionMask 0).getLsbD 29 = true ∧
    (functionMask 5).getLsbD 11 = true ∧ (functionMask 5).getLsbD 12 = false ∧ bench.cfg.reservedRead = .stored ∧
    configWf { bench.cfg with reservedRead := .draw } = true := by decide
theorem witness_PinResolution : 31 ≤ 53 ∧ 32 ≤ 53 ∧ 53 ≤ 53 ∧ 54 ≤ 54 := by decide
theorem witness_MaskCorrectness : Ready bench ∧ Alone bench ∧ bench.cfg.reservedRead = .stored ∧ legalGeometry 32 0 ∧
    legalGeometry 16 0 ∧ legalGeometry 1 16 ∧ 0 * 16 + 16 ≤ 16 * 1 ∧ legalGeometry 1 31 ∧ 16 * 1 + 1 ≤ 31 * 1 ∧
    (∀ i, i < 9 * 3 + 3 → 9 * 3 ≤ i → (functionMask 0).getLsbD i = true) ∧ 8 * 3 + 3 ≤ 9 * 3 :=
  ⟨ready_bench, alone_bench, by decide, by decide, by decide, by decide, by decide, by decide, by decide, by decide,
    by decide⟩
theorem witness_FieldCorrectness : legalGeometry 32 0 ∧ legalGeometry 1 31 ∧ legalGeometry 1 0 := by decide
theorem witness_DisjointFieldWritesCommute : Ready bench ∧ Alone bench ∧ bench.cfg.reservedRead = .stored ∧
    legalGeometry 16 0 ∧ legalGeometry 16 1 ∧ 0 * 16 + 16 ≤ 1 * 16 :=
  ⟨ready_bench, alone_bench, by decide, by decide, by decide, by decide⟩
theorem witness_WrfMergesOneField : Ready bench ∧ legalGeometry 32 0 ∧ 1023 < bench.cfg.blockWords ∧
    bench.cfg.blockWords ≤ 1024 ∧ bench.cfg.otherMasters = false :=
  ⟨ready_bench, by decide, by decide, by decide, by decide⟩
theorem witness_WrfStoresOnlyItsWord : Alone bench ∧ Ready bench ∧ legalGeometry 32 0 ∧
    exec (.wrf 5 32 0 7) bench = .next (after (.wrf 5 32 0 7) bench) ∧ 19 / 4 ≠ 5 ∧ 24 / 4 ≠ 5 ∧
    5 = bench.cfg.offFsel[(5 : Fin 6)] ∧ 3 < 4 :=
  ⟨alone_bench, ready_bench, by decide, exec_after _ _, by decide, by decide, by decide, by decide⟩
theorem witness_RdfReturnsOneField : Ready bench ∧ legalGeometry 1 31 ∧ 1023 < bench.cfg.blockWords ∧
    bench.cfg.blockWords ≤ 1024 ∧ bench.cfg.otherMasters = false :=
  ⟨ready_bench, by decide, by decide, by decide, by decide⟩
theorem witness_IllegalGeometryFaults : Ready bench ∧ ¬ legalGeometry 3 10 ∧ ¬ legalGeometry 32 1 ∧ ¬ legalGeometry 0 0 :=
  ⟨ready_bench, by decide, by decide, by decide⟩
theorem witness_OtherMastersWriteIsLost : let s := liveShared ([] :: [.write 1 0xFFFFFFFF] :: [])
    Ready s ∧ configWf s.cfg = true ∧ s.cfg.otherMasters = true ∧ legalGeometry 3 0 ∧
    s.other = [] :: [.write s.cfg.offFsel[(1 : Fin 6)] 0xFFFFFFFF] :: [] :=
  ⟨by unfold Ready; decide, by decide, by decide, by decide, by decide⟩

-- Pin control.
theorem witness_PclmClaimsThePin : Ready bench ∧ configWf bench.cfg = true ∧ 15 < nSlots ∧ bench.blk.slot 15 = .empty ∧
    (∀ j, j < nSlots → j ≠ 15 → bench.blk.slot j ≠ pinOf 53) ∧ 54 ≤ 63 :=
  ⟨ready_bench, by decide, by decide, by decide, by decide, by decide⟩
theorem witness_PrelReleasesThePin : Admitted (.prel 0) (faulty live) ∧ configWf (faulty live).cfg = true ∧ 15 < nSlots ∧
    live.blk.slot 15 = .empty ∧ (benchSlot 15 54).blk.slot 15 = .pin 54 ∧ (benchSlot 15 53).blk.slot 15 = .pin 53 :=
  ⟨by unfold Admitted; decide, by decide, by decide, by decide, by decide, by decide⟩
theorem witness_LevelCommandsDriveThePin : Ready (benchSlot 15 53) ∧ configWf (benchSlot 15 53).cfg = true ∧ 15 < nSlots ∧
    (benchSlot 15 54).blk.slot 15 = .pin 54 ∧ (Slot.pin 54).effective = false ∧ Slot.empty.effective = false ∧
    (benchSlot 15 53).blk.slot 15 = .pin 53 ∧ resolveLevel 53 = some (1, 0x00200000) ∧
    resolveLevel 0 = some (0, 0x00000001) :=
  ⟨by unfold Ready; decide, by decide, by decide, by decide, by decide, by decide, by decide, by decide, by decide⟩
theorem witness_PmovMovesTheHandle : Ready (benchSlot 15 53) ∧ 15 < nSlots ∧ 0 < nSlots ∧ 0 ≠ 15 ∧
    (benchSlot 15 53).blk.slot 0 = .empty :=
  ⟨by unfold Ready; decide, by decide, by decide, by decide, by decide⟩
theorem witness_PinCommandsFaultInOrder : Ready (benchSlot 0 53) ∧ nSlots ≤ 16 ∧ (benchSlot 0 53).blk.slot 0 ≠ .empty ∧
    15 ≠ 0 ∧ (benchSlot 0 53).blk.slot 15 = .empty ∧ 53 ≤ 53 ∧ 0 < nSlots ∧ (benchSlot 0 53).blk.slot 0 = pinOf 53 :=
  ⟨by unfold Ready; decide, by decide, by decide, by decide, by decide, by decide, by decide, by decide⟩
theorem witness_ClaimThenReleaseLeavesInput : Ready bench ∧ Alone bench ∧ bench.cfg.reservedRead = .stored ∧ 15 < nSlots ∧
    (functionMask 5).getLsbD 11 = true ∧ 53 ≤ 53 ∧ bench.blk.slot 15 = .empty ∧ (∀ j, j < nSlots → bench.blk.slot j ≠ pinOf 53) ∧ 31 < 32 ∧
    3 * (53 % 10) + 3 ≤ 31 :=
  ⟨ready_bench, alone_bench, by decide, by decide, by decide, by decide, by decide, by decide, by decide, by decide⟩
theorem witness_MovedFromReleaseDoesNothing : Ready bench ∧ Alone bench ∧ 0 < nSlots ∧ 15 < nSlots ∧ 0 ≠ 15 ∧ 53 ≤ 53 ∧
    bench.blk.slot 0 = .empty ∧ bench.blk.slot 15 = .empty ∧ (∀ j, j < nSlots → bench.blk.slot j ≠ pinOf 53) :=
  ⟨ready_bench, alone_bench, by decide, by decide, by decide, by decide, by decide, by decide, by decide⟩

-- The Shift Register Driver.
theorem witness_SrinitConstructsTheHandle : Ready bench ∧ configWf bench.cfg = true ∧ bench.blk.srLive = false ∧
    bench.blk.slot 0 = .empty ∧ bench.blk.slot 1 = .empty ∧ bench.blk.slot 2 = .empty ∧
    (∀ j, j < nSlots → bench.blk.slot j ≠ pinOf bench.cfg.serId ∧ bench.blk.slot j ≠ pinOf bench.cfg.srclkId ∧
      bench.blk.slot j ≠ pinOf bench.cfg.rclkId) :=
  ⟨ready_bench, by decide, by decide, by decide, by decide, by decide, by decide⟩
theorem witness_SrwrShiftsTheByte : Ready live ∧ configWf live.cfg = true ∧ live.blk.srLive = true ∧
    live.cfg.otherMasters = false ∧ live.blk.slot 0 ≠ .pin 53 ∧ live.blk.slot 1 ≠ .pin 53 :=
  ⟨ready_live, by decide, by decide, by decide, by decide, by decide⟩
theorem witness_SrflPulsesTheLatchClock : Ready live ∧ configWf live.cfg = true ∧ live.blk.srLive = true ∧
    live.cfg.otherMasters = false := ⟨ready_live, by decide, by decide, by decide⟩
theorem witness_SrtdDestroysTheHandle : Admitted .srtd (faulty live) ∧ configWf (faulty live).cfg = true ∧
    (faulty live).blk.srLive = true ∧ (faulty live).cfg.otherMasters = false ∧ ShiftPinsReady (faulty live) ∧
    ClocksLow (faulty live) ∧
    (let s := { live with cfg := { live.cfg with undrivenLine := .held } }
     Admitted .srtd s ∧ configWf s.cfg = true ∧ s.blk.srLive = true ∧ s.cfg.otherMasters = false ∧
     s.cfg.undrivenLine = .held ∧ ShiftPinsReady s ∧ ClocksLow s ∧
     SawClocksLow (releaseSlot slotRclk (shiftOut 0xFF s.accept)) ∧
     SawClocksLow (releaseSlot slotSrclk (releaseSlot slotRclk (shiftOut 0xFF s.accept))) ∧
     SawClocksLow (releaseSlot slotSer (releaseSlot slotSrclk (releaseSlot slotRclk (shiftOut 0xFF s.accept))))) :=
  ⟨by unfold Admitted; decide, by decide, by decide, by decide, shiftPinsReady_live, clocksLow_live,
    by unfold Admitted; decide, by decide, by decide, by decide, by decide, shiftPinsReady_live, clocksLow_live,
    by unfold SawClocksLow; decide +kernel, by unfold SawClocksLow; decide +kernel,
    by unfold SawClocksLow; decide +kernel⟩
theorem witness_ShiftRegisterFaultsInOrder : Ready bench ∧ bench.blk.srLive = false ∧ Ready live ∧
    live.blk.srLive = true ∧ Ready (benchSlot 2 63) ∧ (benchSlot 2 63).blk.slot 2 ≠ .empty ∧ Ready (benchSlot 15 22) ∧
    (benchSlot 15 22).blk.srLive = false ∧ (benchSlot 15 22).blk.slot 0 = .empty ∧
    (benchSlot 15 22).blk.slot 15 = pinOf (benchSlot 15 22).cfg.rclkId :=
  ⟨ready_bench, by decide, ready_live, by decide, by unfold Ready; decide, by decide, by unfold Ready; decide, by decide,
    by decide, by decide⟩
theorem witness_ByteRoundTrip : 255 ≤ 255 ∧ Ready shiftLive ∧ Alone shiftLive ∧ shiftLive.blk.srLive = true ∧
    ShiftPinsReady shiftLive ∧ ClocksLow shiftLive :=
  ⟨by decide, ready_shiftLive, by unfold Alone; decide, by decide, shiftPinsReady_shiftLive, by unfold ClocksLow; decide⟩
theorem witness_WriteAndFlushAreSeparate : Ready live ∧ Alone live ∧ live.blk.srLive = true ∧ ShiftPinsReady live ∧
    ClocksLow live ∧ live.ext.rclkPrev = false :=
  ⟨ready_live, alone_live, by decide, shiftPinsReady_live, clocksLow_live, by decide⟩
theorem witness_ShiftCommandsLeaveClockLatchesLow : Alone bench ∧ UniqueOwners bench.blk ∧
    exec .srinit bench = .next (after .srinit bench) ∧ (after .srinit bench).blk.rspStatus = .ok ∧ Alone live ∧
    UniqueOwners live.blk ∧ exec .srtd live = .next (after .srtd live) ∧ ShiftPinsReady live ∧
    live.gpio.out.getLsbD live.cfg.srclkId = false ∧ live.gpio.out.getLsbD live.cfg.rclkId = false :=
  ⟨alone_bench, uniqueOwners_bench, exec_after _ _, by decide, alone_live, uniqueOwners_live, exec_after _ _,
    shiftPinsReady_live, by decide, by decide⟩

-- The Digit Multiplexer.
theorem witness_MxinitConstructsTheDigitSet : Ready shiftLive ∧ configWf shiftLive.cfg = true ∧
    shiftLive.blk.mxLive = false ∧ (∀ k : Fin 4, shiftLive.blk.slot (slotDig k) = .empty) ∧
    (∀ (j : Nat) (k : Fin 4), j < nSlots → shiftLive.blk.slot j ≠ pinOf shiftLive.cfg.digId[k]) ∧
    shiftLive.cfg.otherMasters = false := by
  have h : ∀ j, j < nSlots → ∀ k : Fin 4, shiftLive.blk.slot j ≠ pinOf shiftLive.cfg.digId[k] := by decide +kernel
  exact ⟨ready_shiftLive, by decide, by decide, by decide, fun j k hj => h j hj k, by decide⟩
theorem witness_MxswSwitchesToTheNextDigit : Ready live ∧ configWf live.cfg = true ∧ live.blk.mxLive = true ∧
    live.blk.srLive = true ∧ live.blk.cursor = 3 ∧ live.cfg.otherMasters = false :=
  ⟨ready_live, by decide, by decide, by decide, by decide, by decide⟩
theorem witness_MxtdTearsDownTheDigitSet : Admitted .mxtd (faulty live) ∧ configWf (faulty live).cfg = true ∧
    (faulty live).blk.mxLive = true ∧ (faulty live).cfg.otherMasters = false :=
  ⟨by unfold Admitted; decide, by decide, by decide, by decide⟩
theorem witness_DigitMuxFaultsInOrder : Ready bench ∧ bench.blk.mxLive = false ∧ Ready live ∧ live.blk.mxLive = true ∧
    Ready (benchSlot 6 63) ∧ (benchSlot 6 63).blk.slot (slotDig 3) ≠ .empty ∧ Ready (benchSlot 15 19) ∧
    (benchSlot 15 19).blk.mxLive = false ∧ (∀ k : Fin 4, (benchSlot 15 19).blk.slot (slotDig k) = .empty) ∧
    (benchSlot 15 19).blk.slot 15 = pinOf (benchSlot 15 19).cfg.digId[(3 : Fin 4)] :=
  ⟨ready_bench, by decide, ready_live, by decide, by unfold Ready; decide, by decide, by unfold Ready; decide, by decide,
    by decide, by decide⟩
theorem witness_SwitchesLightTheDigitsInTurn : Alone shiftLive ∧ Ready shiftLive ∧ shiftLive.blk.srLive = true ∧
    UniqueOwners shiftLive.blk ∧ ShiftPinsReady shiftLive ∧ exec .mxinit shiftLive = .next (after .mxinit shiftLive) ∧
    (after .mxinit shiftLive).blk.rspStatus = .ok ∧
    execAll (List.replicate 0 .mxsw) (after .mxinit shiftLive) = .next (after .mxinit shiftLive) ∧
    execAll (List.replicate 1 .mxsw) (after .mxinit shiftLive) = .next (after .mxsw (after .mxinit shiftLive)) :=
  ⟨by unfold Alone; decide, ready_shiftLive, by decide, uniqueOwners_shiftLive, shiftPinsReady_shiftLive, exec_after _ _,
    by decide, rfl, by simp only [List.replicate, execAll, exec_after]⟩
theorem witness_NeverTwoDigitsLit : Alone live ∧ UniqueOwners live.blk ∧ (live.blk.mxLive = true → MuxWorking live) ∧
    (live.blk.mxLive = false → AllDark live.cfg live.gpio) ∧ ShiftPinsReady live ∧
    Alone bench ∧ UniqueOwners bench.blk ∧ bench.blk.mxLive = false ∧ AllDark bench.cfg bench.gpio ∧
    (after .mxinit bench).blk.rspStatus = .ok :=
  ⟨alone_live, uniqueOwners_live, fun _ => muxWorking_live, fun h => absurd h (by decide), shiftPinsReady_live,
    alone_bench, uniqueOwners_bench, by decide, by unfold AllDark; decide, by decide⟩
theorem witness_LatchHappensInTheDark : Alone live ∧ Ready live ∧ live.blk.srLive = true ∧ UniqueOwners live.blk ∧
    MuxWorking live ∧ ShiftPinsReady live :=
  ⟨alone_live, ready_live, by decide, uniqueOwners_live, muxWorking_live, shiftPinsReady_live⟩
theorem witness_SwitchShowsThePattern : Alone live ∧ Ready live ∧ live.blk.srLive = true ∧ UniqueOwners live.blk ∧
    MuxWorking live ∧ ShiftPinsReady live ∧ ClocksLow live :=
  ⟨alone_live, ready_live, by decide, uniqueOwners_live, muxWorking_live, shiftPinsReady_live, clocksLow_live⟩
theorem witness_ShutdownEndState : Alone live ∧ Ready live ∧ live.blk.srLive = true ∧ UniqueOwners live.blk ∧
    MuxWorking live ∧ ShiftPinsReady live ∧ ClocksLow live ∧
    (let s := { live with cfg := { live.cfg with undrivenLine := .held } }
     Alone s ∧ Ready s ∧ s.blk.srLive = true ∧ UniqueOwners s.blk ∧ MuxWorking s ∧ ShiftPinsReady s ∧ ClocksLow s ∧
     s.cfg.undrivenLine = .held ∧ exec .mxtd s = .next (after .mxtd s) ∧
     let B := releaseSlot slotRclk (shiftOut 0xFF (after .mxtd s).accept)
     SawClocksLow B ∧ SawClocksLow (releaseSlot slotSrclk B) ∧ SawClocksLow (releaseSlot slotSer (releaseSlot slotSrclk B))) :=
  ⟨alone_live, ready_live, by decide, uniqueOwners_live, muxWorking_live, shiftPinsReady_live, clocksLow_live,
    by unfold Alone; decide, ready_live, by decide, uniqueOwners_live, muxWorking_live, shiftPinsReady_live,
    clocksLow_live, by decide, exec_after _ _, by unfold SawClocksLow; decide +kernel⟩
theorem witness_BusAccessCounts : configWf live.cfg = true ∧ exec .mxsw live = .next (after .mxsw live) ∧
    (after .mxsw live).blk.rspStatus = .ok ∧ (∀ j, j < 7 → (live.blk.slot j).effective = true) ∧
    (after .mxsw (faulty live)).blk.rspStatus ≠ .ok ∧ 1023 < live.cfg.blockWords ∧ 53 ≤ 53 ∧
    (after (.srwr 1) shiftLive).blk.rspStatus = .ok ∧ (after .srtd shiftLive).blk.rspStatus = .ok ∧
    (∀ j, j < 3 → (shiftLive.blk.slot j).effective = true) ∧ shiftLive.blk.slot 3 = .empty ∧
    (after .mxtd (after .mxinit bench)).blk.rspStatus = .ok ∧ (after .mxinit bench).blk.slot 0 = .empty :=
  ⟨by decide, exec_after _ _, by decide, by decide, by decide, by decide, by decide, by decide, by decide +kernel,
    by decide, by decide, by decide, by decide⟩

-- The other master and the host.
theorem witness_OtherMasterCannotTouchTheBlock :
    let s := liveShared [[.write 7 0xFFFFFFFF]]
    let s' := liveShared []
    s.blk = s'.blk ∧ s.cfg = s'.cfg ∧ s.host.mapped = s'.host.mapped ∧
    exec .mxsw s = .next (after .mxsw s) ∧ exec .mxsw s' = .next (after .mxsw s') :=
  ⟨rfl, rfl, rfl, exec_after _ _, exec_after _ _⟩
theorem witness_NibblesAreTheTimesDigits : 99 < 100 ∧ 0 < 100 := by decide
theorem witness_PointClearsExactlyOneBit : configWf bench.cfg = true ∧ 7 < 8 ∧ (-1 : Int) < 0 ∧ (15 : Int) < 16 := by decide
theorem witness_RefreshLoopShowsTheDisplayValue : let s := live.onHost (fun h => { h with phase := .refresh })
    Ready s ∧ configWf s.cfg = true ∧ s.blk.mxLive = true ∧ s.blk.srLive = true ∧ s.host.phase = .refresh ∧
    s.host.answers = [] :=
  ⟨by unfold Ready; decide, by decide, by decide, by decide, by decide, by decide⟩
theorem witness_HostBootsTheDisplay : let s := bench.onHost (fun h => { h with phase := .boot })
    Alone s ∧ s.blk = Block.reset ∧ s.host.mapped = true ∧ s.host.port = [] ∧ s.host.inputs = [] ∧
    s.host.phase = .boot ∧ s.host.stop = false :=
  ⟨by unfold Alone; decide, rfl, by decide, by decide, by decide, by decide, by decide⟩
theorem witness_StopLeadsToTeardown : let s := live.onHost (fun h => { h with phase := .refresh, stop := true })
    configWf s.cfg = true ∧ s.blk.busy = false ∧ s.host.port = [] ∧ s.host.inputs = [] ∧ s.host.phase = .refresh ∧
    s.host.stop = true := by decide

end Sys2Proof.Machine.Tests
end

section
/-! The step, one equation per case (00_scope.md R7, 60_exceptions.md R135, R136), and that every step of a well-configured
system answers a next state. -/

namespace Sys2Proof.Machine

open Sys2Proof

/-- An ill-formed configuration is refused rather than run (00_scope.md R7). -/
theorem step_of_illFormed (s : State) (hw : configWf s.cfg = false) : step s = .refused .illFormedConfiguration := by
  simp [step, hw]

/-- On a well-formed configuration a step is the system's (00_scope.md R7). -/
theorem step_of_wellFormed (s : State) (hw : configWf s.cfg = true) : step s = systemStep s := by
  simp [step, hw]

/-- While the block is busy only `Other` acts (60_exceptions.md R135). -/
theorem systemStep_of_busy (s : State) (hb : s.blk.busy = true) : systemStep s = .next (otherActs s) := by
  simp [systemStep, hb]

/-- A whole command at the front of the port is taken and executed (60_exceptions.md R136). -/
theorem systemStep_of_command (s : State) (i : Instr) (rest : List Word) (hb : s.blk.busy = false)
    (hd : decode s.host.port = .command i rest) : systemStep s = exec i ((otherActs s).withPort rest) := by
  simp [systemStep, hb, hd]

/-- An illegal word faults before admission (60_exceptions.md R136, R139). -/
theorem systemStep_of_illegal (s : State) (why : Illegal) (w0 : Word) (rest : List Word) (hb : s.blk.busy = false)
    (hd : decode s.host.port = .illegal why w0 rest) :
    systemStep s = .next (((otherActs s).withPort rest).faulted .illegalCmd w0) := by
  simp [systemStep, hb, hd, illegalCommand, accept_raise]

/-- When no whole command is presented the host has its turn (60_exceptions.md R135). -/
theorem systemStep_of_incomplete (s : State) (hb : s.blk.busy = false) (hd : decode s.host.port = .incomplete) :
    systemStep s = .next (hostTurn (otherActs s)) := by
  simp [systemStep, hb, hd]

/-- A step of the system always answers a next state: a fault is a response of the block and stops no run
(60_exceptions.md R139). -/
theorem systemStep_answers_next (s : State) : ∃ t, systemStep s = .next t := by
  cases hb : s.blk.busy with
  | true => exact ⟨_, systemStep_of_busy s hb⟩
  | false =>
    cases hd : decode s.host.port with
    | command i rest =>
      obtain ⟨t, ht⟩ := exec_next i ((otherActs s).withPort rest)
      exact ⟨t, (systemStep_of_command s i rest hb hd).trans ht⟩
    | illegal why w0 rest => exact ⟨_, systemStep_of_illegal s why w0 rest hb hd⟩
    | incomplete => exact ⟨_, systemStep_of_incomplete s hb hd⟩

/-- Settles O9: the configuration is the only thing a step looks at before it runs, and a running step never stops. -/
theorem onlyIllFormedConfigurationsAreRefused : Obligations.OnlyIllFormedConfigurationsAreRefused := by
  intro s
  refine ⟨step_of_illFormed s, fun hw => ?_⟩
  obtain ⟨t, ht⟩ := systemStep_answers_next s
  exact ⟨t, (step_of_wellFormed s hw).trans ht⟩

end Sys2Proof.Machine
end

section
/-! What a command does to the block (60_exceptions.md R136): a decoded command is well-formed (30_encoding.md R79), it is a
frame around its own checks and its body, and the body's effect on `S` is a function of the configuration and the block. -/

namespace Sys2Proof.Machine

open Sys2Proof

/-! ### Decoded commands are well-formed -/

/-- A field is as wide as it says (00_scope.md R8). -/
theorem fieldOf_lt (w : Word) (lo len : Nat) : fieldOf w lo len < 2 ^ len := (w.extractLsb' lo len).isLt

theorem fieldOf_le (w : Word) (lo len n : Nat) (h : 2 ^ len ≤ n + 1) : fieldOf w lo len ≤ n :=
  Nat.le_of_lt_succ ((fieldOf_lt w lo len).trans_le h)

/-- Every row of the opcode map cuts operands that fit their fields (30_encoding.md R71 to R76). -/
theorem opcodeTable_build_wf (r : Row) (hr : r ∈ opcodeTable) (w0 w1 : Word) : (r.build w0 w1).wf = true := by
  have hwidth : fieldOf w0 13 5 < 32 := fieldOf_lt w0 13 5
  revert r
  simp [opcodeTable, Instr.wf, fieldOf_le, hwidth]

theorem decodeWords_wf (w0 w1 : Word) (i : Instr) (h : decodeWords w0 w1 = .ok i) : i.wf = true := by
  unfold decodeWords at h
  split at h
  · cases h
  · rename_i r hr
    split at h
    · injection h with h
      exact h ▸ opcodeTable_build_wf r (List.mem_of_find?_eq_some hr) w0 w1
    · cases h

/-- The decoder answers well-formed commands only (30_encoding.md R78, R79). -/
theorem decode_wf (ws rest : List Word) (i : Instr) (h : decode ws = .command i rest) : i.wf = true := by
  cases ws with
  | nil => cases h
  | cons w0 ws =>
    simp only [decode] at h
    split at h
    · cases h
    · split at h
      · rename_i j hj
        injection h with hi _
        exact hi ▸ decodeWords_wf w0 _ j hj
      · cases h

/-! ### The checks and the body of each command -/

/-- The command's own checks, in order (60_exceptions.md R138). -/
def commandChecks (i : Instr) (s : State) : List (Bool × FaultCode) :=
  match i with
  | .wrf _ w p _ | .rdf _ w p => geometryCheck w p
  | .pclm slot id => pclmChecks slot id s
  | .prel slot | .pset slot | .pclr slot | .ppls slot => slotCheck slot
  | .pmov dst src => pmovChecks dst src s
  | .srinit => srinitChecks s
  | .srwr _ | .srfl | .srtd => srLiveCheck s
  | .mxinit => mxinitChecks s
  | .mxsw => mxswChecks s
  | .mxtd => mxtdChecks s

/-- What the command does once no check applies (60_exceptions.md R136). -/
def commandBody (i : Instr) (s : State) : State :=
  match i with
  | .wrf off w p value => wrfBody off w p value s
  | .rdf off w p => rdfBody off w p s
  | .pclm slot id => pclmBody slot id s
  | .prel slot => prelBody slot s
  | .pset slot => (slotSet slot s).setRspData 0
  | .pclr slot => (slotClear slot s).setRspData 0
  | .ppls slot => (slotPulse slot s).setRspData 0
  | .pmov dst src => pmovBody dst src s
  | .srinit => srinitBody s
  | .srwr byte => (shiftOut (BitVec.ofNat 8 byte) s).setRspData 0
  | .srfl => (latch s).setRspData 0
  | .srtd => srtdBody s
  | .mxinit => mxinitBody s
  | .mxsw => mxswBody s
  | .mxtd => mxtdBody s

/-- Every command is the frame around its checks and its body (60_exceptions.md R136). -/
theorem exec_eq_frame (i : Instr) (s : State) :
    exec i s = .next (frame i s (commandChecks i s) (commandBody i)) := by cases i <;> rfl

/-- The checks look at the configuration and the block only: no bus access can change their answer (10_state.md R27). -/
theorem commandChecks_congr (i : Instr) (s s' : State) (hc : s.cfg = s'.cfg) (hb : s.blk = s'.blk) :
    commandChecks i s = commandChecks i s' := by
  cases i <;> simp [commandChecks, pclmChecks, pmovChecks, srinitChecks, srLiveCheck, mxinitChecks, mxswChecks,
    mxtdChecks, hc, hb]

/-! ### What each body does to the block -/

/-- Handles written into slots, in order: pairs of a slot and an id. -/
def Block.fill (l : List (Nat × Nat)) (b : Block) : Block := l.foldl (fun b e => b.setSlot e.1 (pinOf e.2)) b

/-- Slots emptied, in order. -/
def Block.vacate (l : List Nat) (b : Block) : Block := l.foldl (fun b i => b.setSlot i .empty) b

/-- The three slots of the Shift Register Handle with their pins (42_shift_register.md R105). -/
def shiftSlots (c : Config) : List (Nat × Nat) := [(slotSer, c.serId), (slotSrclk, c.srclkId), (slotRclk, c.rclkId)]

/-- The four slots of the Digit Set with their pins (43_digit_mux.md R113). -/
def digitSlots (c : Config) : List (Nat × Nat) := digitsUp.map fun k => (slotDig k, c.digId[k])

/-- What a command's body does to the block, but for the response data (10_state.md R27). -/
def blockEffect (i : Instr) (c : Config) (b : Block) : Block :=
  match i with
  | .wrf _ _ _ _ | .rdf _ _ _ | .pset _ | .pclr _ | .ppls _ | .srwr _ | .srfl => b
  | .pclm slot id => b.setSlot slot (pinOf id)
  | .prel slot => b.setSlot slot .empty
  | .pmov dst src => if dst = src then b else (b.setSlot dst (b.slot src)).setSlot src .empty
  | .srinit => (b.fill (shiftSlots c)).setSrLive true
  | .srtd => (b.vacate [slotRclk, slotSrclk, slotSer]).setSrLive false
  | .mxinit => ((b.fill (digitSlots c)).setCursor muxInitCursor).setMxLive true
  | .mxsw => b.setCursor (b.cursor + 1)
  | .mxtd => ((b.vacate (digitsDown.map slotDig)).setCursor muxInitCursor).setMxLive false

theorem prelBody_blk (slot : Nat) (s : State) : (prelBody slot s).blk = (s.blk.setSlot slot .empty).setRspData 0 := by
  unfold prelBody
  split
  · rename_i h
    simp [setSlot_empty s.blk slot h]
  · simp

theorem pmovBody_blk (dst src : Nat) (s : State) :
    (pmovBody dst src s).blk = (blockEffect (.pmov dst src) s.cfg s.blk).setRspData 0 := by
  simp only [pmovBody, blockEffect]
  split <;> simp

/-- The block after a body whose response carries no data: the command's effect and response data 0. -/
theorem commandBody_blk (i : Instr) (s : State) (hi : ∀ off w p, i ≠ .rdf off w p) :
    (commandBody i s).blk = (blockEffect i s.cfg s.blk).setRspData 0 := by
  cases i with
  | rdf off w p => exact absurd rfl (hi off w p)
  | wrf off w p v => simp [commandBody, blockEffect, wrfBody]
  | pclm slot id => simp [commandBody, blockEffect, pclmBody]
  | prel slot => exact prelBody_blk slot s
  | pset slot => simp [commandBody, blockEffect]
  | pclr slot => simp [commandBody, blockEffect]
  | ppls slot => simp [commandBody, blockEffect]
  | pmov dst src => exact pmovBody_blk dst src s
  | srinit => simp [commandBody, blockEffect, srinitBody, Block.fill, shiftSlots]
  | srwr byte => simp [commandBody, blockEffect]
  | srfl => simp [commandBody, blockEffect]
  | srtd => simp [commandBody, blockEffect, srtdBody, Block.vacate]
  | mxinit => simp [commandBody, blockEffect, mxinitBody, Block.fill, digitSlots, digitsUp]
  | mxsw => simp [commandBody, blockEffect, mxswBody]
  | mxtd => simp [commandBody, blockEffect, mxtdBody, Block.vacate, digitsUp, digitsDown]

/-- The block after RDF's body: the response data alone, whatever the bus answered (40_register_writer.md R83). -/
theorem rdfBody_blk (off w p : Nat) (s : State) : ∃ data, (rdfBody off w p s).blk = s.blk.setRspData data := by
  unfold rdfBody
  split
  · exact ⟨extract (memRead off s).1 w p, by simp⟩
  · exact ⟨0, by simp⟩

/-- The block after any body. -/
theorem commandBody_blk_data (i : Instr) (s : State) :
    ∃ data, (commandBody i s).blk = (blockEffect i s.cfg s.blk).setRspData data := by
  by_cases hi : ∀ off w p, i ≠ .rdf off w p
  · exact ⟨0, commandBody_blk i s hi⟩
  · push Not at hi
    obtain ⟨off, w, p, rfl⟩ := hi
    exact rdfBody_blk off w p s

end Sys2Proof.Machine
end

section
/-! Single ownership of pins (10_state.md R17): it depends on the slots alone, and every write of a slot that claims no pin
held elsewhere keeps it. -/

namespace Sys2Proof.Machine

open Sys2Proof

/-! ### Ownership and the slots -/

theorem UniqueOwners.of_slots {b b' : Block} (h : UniqueOwners b) (hs : b'.slots = b.slots) : UniqueOwners b' := by
  unfold UniqueOwners Block.slot at h ⊢
  rwa [hs]

/-- Empty slots own nothing (10_state.md R37). -/
theorem uniqueOwners_reset : UniqueOwners Block.reset := by
  intro i j _ _ _ id _ hi
  rw [Block.reset_slot] at hi
  cases hi

/-- A slot may take a handle whose pin, if valid, no other slot holds. -/
theorem UniqueOwners.setSlot {b : Block} (h : UniqueOwners b) (i : Nat) (v : Slot)
    (hv : ∀ id : Fin 64, id.val ≤ 53 → v = .pin id → ∀ j, j < nSlots → j ≠ i → b.slot j ≠ .pin id) :
    UniqueOwners (b.setSlot i v) := by
  intro j k hj hk hjk id hid ej ek
  by_cases hij : i = j
  · subst hij
    rw [Block.setSlot_slot_self b i v hj] at ej
    rw [Block.setSlot_slot_ne b i k v hjk] at ek
    exact hv id hid ej k hk hjk.symm ek
  · rw [Block.setSlot_slot_ne b i j v hij] at ej
    by_cases hik : i = k
    · subst hik
      rw [Block.setSlot_slot_self b i v hk] at ek
      exact hv id hid ek j hj hjk ej
    · rw [Block.setSlot_slot_ne b i k v hik] at ek
      exact h j k hj hk hjk id hid ej ek

theorem UniqueOwners.setSlot_empty {b : Block} (h : UniqueOwners b) (i : Nat) : UniqueOwners (b.setSlot i .empty) :=
  h.setSlot i .empty (fun _ _ e => by cases e)

theorem UniqueOwners.vacate {b : Block} (h : UniqueOwners b) (l : List Nat) : UniqueOwners (b.vacate l) := by
  induction l generalizing b with
  | nil => exact h
  | cons i l ih => exact ih (h.setSlot_empty i)

/-! ### Claims -/

/-- An id that fits its field is the one its handle holds (10_state.md R15). -/
theorem val_of_pinOf_eq {id : Nat} {id' : Fin 64} (h : id < 64) (e : pinOf id = .pin id') : id'.val = id := by
  simp only [pinOf, Slot.pin.injEq] at e
  simp [← e, Nat.mod_eq_of_lt h]

theorem pinOf_injective {id id' : Nat} (h : id < 64) (h' : id' < 64) (e : pinOf id = pinOf id') : id = id' :=
  (val_of_pinOf_eq h e).symm.trans (Nat.mod_eq_of_lt h')

/-- A valid id that no slot holds stands in no slot (10_state.md R17). -/
theorem slot_ne_of_holds_false (b : Block) (id : Nat) (hid : id ≤ 53) (h : b.holds id = false) (j : Nat)
    (hj : j < nSlots) : b.slot j ≠ pinOf id := by
  intro e
  have hj16 : j < 16 := hj
  have hm : pinOf id ∈ b.slots := Vector.mem_iff_getElem.mpr ⟨j, hj16, by simpa [Block.slot, hj16] using e⟩
  simp [Block.holds, hid, hm] at h

/-- Filling slots with distinct valid pins that no slot holds keeps single ownership (42_shift_register.md R105,
43_digit_mux.md R113). -/
theorem UniqueOwners.fill {b : Block} (h : UniqueOwners b) (l : List (Nat × Nat)) (hv : ∀ e ∈ l, e.2 ≤ 53)
    (hd : (l.map Prod.snd).Nodup) (hh : ∀ e ∈ l, b.holds e.2 = false) : UniqueOwners (b.fill l) := by
  induction l generalizing b with
  | nil => exact h
  | cons e l ih =>
    simp only [List.map_cons, List.nodup_cons] at hd
    simp only [List.forall_mem_cons] at hv hh
    have hfree := slot_ne_of_holds_false b e.2 hv.1 hh.1
    have hset : UniqueOwners (b.setSlot e.1 (pinOf e.2)) :=
      h.setSlot e.1 (pinOf e.2) (fun id _ eid j hj _ => eid ▸ hfree j hj)
    refine ih hset hv.2 hd.2 (fun e' he' => holds_false _ _ (fun j hj hslot => ?_))
    rw [Block.setSlot_slot] at hslot
    split at hslot
    · have hle := hv.2 e' he'
      have heq := pinOf_injective (by omega) (by omega) hslot
      exact hd.1 (heq ▸ List.mem_map_of_mem he')
    · exact slot_ne_of_holds_false b e'.2 (hv.2 e' he') (hh.2 e' he') j hj hslot

/-- PCLM keeps single ownership when the id fits its field and no other slot holds it (41_pin.md R94). An id of 64 or more,
which no decoded command has, would wrap past the check (log 26). -/
theorem UniqueOwners.claim {b : Block} (h : UniqueOwners b) (slot id : Nat) (hid : id ≤ 63)
    (hfree : heldElsewhere b slot id = false) : UniqueOwners (b.setSlot slot (pinOf id)) := by
  refine h.setSlot slot (pinOf id) (fun id' hid' e j hj hne hslot => ?_)
  have hval : id'.val = id := val_of_pinOf_eq (by omega) e
  have hheld : heldElsewhere b slot id = true := by
    simp only [heldElsewhere, Bool.and_eq_true, decide_eq_true_eq, List.any_eq_true, List.mem_range]
    exact ⟨by omega, j, hj, hne, hslot.trans e.symm⟩
  rw [hheld] at hfree
  cases hfree

/-- Writes of different slots commute. -/
theorem Block.setSlot_comm (b : Block) (i j : Nat) (v w : Slot) (h : i ≠ j) :
    (b.setSlot i v).setSlot j w = (b.setSlot j w).setSlot i v := by
  have hslots : (b.slots.setIfInBounds i v).setIfInBounds j w = (b.slots.setIfInBounds j w).setIfInBounds i v := by
    apply Vector.ext
    intro k hk
    simp only [Vector.getElem_setIfInBounds]
    by_cases hik : i = k
    · simp [hik, show j ≠ k from fun hjk => h (hik.trans hjk.symm)]
    · simp [hik]
  simp only [Block.setSlot, hslots]

/-- PMOV moves a handle: the pin is owned by `dst` and no more by `src` (41_pin.md R99). -/
theorem UniqueOwners.move {b : Block} (h : UniqueOwners b) (dst src : Nat) (hsrc : src < nSlots) (hne : dst ≠ src) :
    UniqueOwners ((b.setSlot dst (b.slot src)).setSlot src .empty) := by
  have hswap : UniqueOwners ((b.setSlot src .empty).setSlot dst (b.slot src)) := by
    refine (h.setSlot_empty src).setSlot dst (b.slot src) (fun id hid e j hj _ hslot => ?_)
    rw [Block.setSlot_slot] at hslot
    split at hslot
    · cases hslot
    · rename_i hj'
      exact h src j hsrc hj (fun e' => hj' ⟨e', hj⟩) id hid e hslot
  rwa [Block.setSlot_comm b dst src _ _ hne]

/-! ### Commands and steps -/

/-- The pins of the Shift Register Handle are valid and distinct (00_scope.md R7). -/
theorem shiftSlots_valid (c : Config) (hw : configWf c = true) :
    (∀ e ∈ shiftSlots c, e.2 ≤ 53) ∧ ((shiftSlots c).map Prod.snd).Nodup := by
  obtain ⟨hd, hv⟩ := configWf_wiring c hw
  have hd' := (List.nodup_append.mp hd).1
  refine ⟨?_, hd'⟩
  simp only [shiftSlots, wiredIds, List.forall_mem_cons, List.cons_append, List.nil_append] at hv ⊢
  simp [hv.1, hv.2.1, hv.2.2.1]

/-- The pins of the Digit Set are valid and distinct (00_scope.md R7). -/
theorem digitSlots_valid (c : Config) (hw : configWf c = true) :
    (∀ e ∈ digitSlots c, e.2 ≤ 53) ∧ ((digitSlots c).map Prod.snd).Nodup := by
  obtain ⟨hd, hv⟩ := configWf_wiring c hw
  have hids : (digitSlots c).map Prod.snd = c.digId.toList := by rw [digId_toList]; rfl
  refine ⟨fun e he => hv e.2 ?_, hids ▸ (List.nodup_append.mp hd).2.1⟩
  exact List.mem_append_right _ (hids ▸ List.mem_map_of_mem he)

/-- What a well-formed command's body does to the slots keeps single ownership when none of its checks applies
(10_state.md R17, 41_pin.md R94, R99, 42_shift_register.md R105, 43_digit_mux.md R113). -/
theorem blockEffect_uniqueOwners (i : Instr) (s : State) (hw : configWf s.cfg = true) (hi : i.wf = true)
    (hc : ∀ e ∈ commandChecks i s, e.1 = false) (h : UniqueOwners s.blk) :
    UniqueOwners (blockEffect i s.cfg s.blk) := by
  cases i with
  | wrf | rdf | pset | pclr | ppls | srwr | srfl => exact h
  | pclm slot id =>
    simp only [commandChecks, pclmChecks, List.forall_mem_cons] at hc
    obtain ⟨_, _, hfree, _⟩ := hc
    exact h.claim slot id (of_decide_eq_true hi).2 hfree
  | prel slot => exact h.setSlot_empty slot
  | pmov dst src =>
    simp only [commandChecks, pmovChecks, List.forall_mem_cons, Bool.or_eq_false_iff, outOfRange,
      decide_eq_false_iff_not, Nat.not_le] at hc
    obtain ⟨⟨_, hsrc⟩, _⟩ := hc
    simp only [blockEffect]
    split
    · exact h
    · rename_i hne
      exact h.move dst src hsrc hne
  | srinit =>
    simp only [commandChecks, srinitChecks, List.forall_mem_cons, List.any_eq_false] at hc
    obtain ⟨_, _, hheld, _⟩ := hc
    obtain ⟨hv, hd⟩ := shiftSlots_valid s.cfg hw
    exact (h.fill (shiftSlots s.cfg) hv hd (by simpa [shiftSlots] using hheld)).of_slots rfl
  | srtd => exact (h.vacate _).of_slots rfl
  | mxinit =>
    simp only [commandChecks, mxinitChecks, List.forall_mem_cons, List.any_eq_false] at hc
    obtain ⟨_, _, hheld, _⟩ := hc
    obtain ⟨hv, hd⟩ := digitSlots_valid s.cfg hw
    refine (h.fill (digitSlots s.cfg) hv hd (fun e he => ?_)).of_slots rfl
    obtain ⟨k, hk, rfl⟩ := List.mem_map.mp he
    exact Bool.eq_false_of_not_eq_true (hheld k hk)
  | mxsw => exact h.of_slots rfl
  | mxtd => exact (h.vacate _).of_slots rfl

theorem exec_uniqueOwners (i : Instr) (s t : State) (hw : configWf s.cfg = true) (hi : i.wf = true)
    (h : UniqueOwners s.blk) (he : exec i s = .next t) : UniqueOwners t.blk := by
  rw [exec_eq_frame] at he
  injection he with he
  subst he
  rcases frame_cases i s (commandChecks i s) (commandBody i) with ⟨_, _, e⟩ | ⟨c, e⟩ | ⟨_, hc, e⟩
  · exact h.of_slots (by rw [e]; rfl)
  · exact h.of_slots (by rw [e]; rfl)
  · have hacc : UniqueOwners s.accept.blk := h.of_slots rfl
    have hchecks : ∀ e ∈ commandChecks i s.accept, e.1 = false := by
      have hsame : commandChecks i s.accept = commandChecks i s := by cases i <;> rfl
      rw [hsame]
      exact (firstFault_eq_none _).mp hc
    obtain ⟨data, hbody⟩ := commandBody_blk_data i s.accept
    have hdone := blockEffect_uniqueOwners i s.accept hw hi hchecks hacc
    exact hdone.of_slots (by rw [e, State.respond_blk, hbody]; rfl)

/-- Settles O16: of the step's cases only a command and the reset input write slots; a decoded command is well-formed, so that
its checks keep it from claiming a pin held elsewhere, and reset empties every slot. -/
theorem everyStepKeepsUniqueOwners : Obligations.EveryStepKeepsUniqueOwners := by
  intro s t h hstep
  obtain ⟨hw, hother | ⟨i, rest, hd, he⟩ | ⟨w, rest, hill⟩ | hhost⟩ := step_cases s t hstep
  · exact h.of_slots (by rw [hother, otherActs_blk])
  · exact exec_uniqueOwners i _ t (by simpa using hw) (decode_wf _ _ i hd) (by simpa using h) he
  · exact h.of_slots (by rw [hill]; simp [State.faulted])
  · obtain ⟨_, hsame | ⟨_, hreset⟩, _⟩ := hostTurn_cases (otherActs s)
    · exact h.of_slots (by rw [hhost, hsame, otherActs_blk])
    · rw [hhost, hreset]
      exact uniqueOwners_reset

/-- Settles O17: every slot is empty and the fault code is 0 after reset. -/
theorem resetHasUniqueOwners : Obligations.ResetHasUniqueOwners := by
  refine ⟨uniqueOwners_reset, ?_⟩
  unfold LegalFault
  decide

end Sys2Proof.Machine
end

section
/-! What a step leaves fixed, and that the block's own state does not depend on the bus (10_state.md R14, R27). -/

namespace Sys2Proof.Machine

open Sys2Proof

/-- Settles O15: no command's body, no fault and no host turn writes the configuration or `mapped`. -/
theorem configurationIsFixed : Obligations.ConfigurationIsFixed := by
  intro s t hstep
  obtain ⟨_, rfl | ⟨i, rest, _, he⟩ | ⟨w, rest, rfl⟩ | rfl⟩ := step_cases s t hstep
  · simp
  · obtain ⟨hcfg, _, hmapped, _⟩ := exec_untouched i _ t he
    exact ⟨by simpa using hcfg, by simpa using hmapped⟩
  · simp [State.faulted]
  · obtain ⟨hcfg, _, hmapped⟩ := hostTurn_cases (otherActs s)
    exact ⟨by simpa using hcfg, by simpa using hmapped⟩

/-! ### The other master and the block -/

/-- The frame of two runs that agree on the block and on `mapped` takes the same branch, so that a relation of the blocks
which every block has with itself need only hold after the bodies (60_exceptions.md R136). -/
theorem frame_blk_rel (R : Block → Block → Prop) (hR : ∀ b, R b b) (i : Instr) (s s' : State)
    (checks : List (Bool × FaultCode)) (body : State → State) (hb : s.blk = s'.blk)
    (hm : s.host.mapped = s'.host.mapped)
    (hbody : R ((body s.accept).respond .ok).blk ((body s'.accept).respond .ok).blk) :
    R (frame i s checks body).blk (frame i s' checks body).blk := by
  have hacc : s.accept.blk = s'.accept.blk := by simp [hb]
  have hmacc : s.accept.host.mapped = s'.accept.host.mapped := hm
  simp only [frame, hacc, hmacc]
  by_cases hr : s'.accept.blk.fault ≠ 0 ∧ admittedWhileFaulted i = false
  · simp only [if_pos hr, State.refuse, State.respond_blk, State.setRspData_blk, hacc]
    exact hR _
  · simp only [if_neg hr]
    cases firstFault ((!s'.accept.host.mapped, .unmapped) :: checks) with
    | some c =>
      simp only [State.raise, State.respond_blk, State.setRspData_blk, State.onBlk_blk, hacc]
      exact hR _
    | none => exact hbody

/-- Two blocks after command `i` agree: on everything but the response data, and on these too unless `i` is RDF. -/
def AgreeAfter (i : Instr) (b b' : Block) : Prop :=
  b = { b' with rspData := b.rspData } ∧ ((∀ off w p, i ≠ .rdf off w p) → b.rspData = b'.rspData)

/-- The bodies of two runs that agree on the configuration and the block leave blocks that agree. -/
theorem commandBody_agree (i : Instr) (u u' : State) (hc : u.cfg = u'.cfg) (hb : u.blk = u'.blk) :
    AgreeAfter i ((commandBody i u).respond .ok).blk ((commandBody i u').respond .ok).blk := by
  obtain ⟨data, e⟩ := commandBody_blk_data i u
  obtain ⟨data', e'⟩ := commandBody_blk_data i u'
  refine ⟨?_, fun hi => ?_⟩
  · rw [State.respond_blk, State.respond_blk, e, e', hc, hb]
    rfl
  · simp [commandBody_blk i _ hi]

/-- Settles O55: the checks and the body's effect on the block are functions of the configuration and the block. -/
theorem otherMasterCannotTouchTheBlock : Obligations.OtherMasterCannotTouchTheBlock := by
  intro i s s' t t' hb hc hm he he'
  rw [exec_eq_frame] at he he'
  injection he with he
  injection he' with he'
  rw [← commandChecks_congr i s s' hc hb] at he'
  subst he he'
  exact frame_blk_rel (AgreeAfter i) (fun b => ⟨rfl, fun _ => rfl⟩) i s s' (commandChecks i s) (commandBody i) hb hm
    (commandBody_agree i s.accept s'.accept hc (by simp [hb]))

end Sys2Proof.Machine
end

section
/-! One read or write of a register of the window (10_state.md R29, R31). -/

namespace Sys2Proof.Machine

open Sys2Proof

/-- A word written to set or clear register `k` names pin `id` exactly when the register is the pin's and its bit is 1
(10_state.md R31). -/
theorem levelPins_getLsbD (k : Fin 2) (v : Word) (id : Nat) (hid : id ≤ 53) :
    (levelPins k v).getLsbD id = (decide (id / 32 = k.val) && v.getLsbD (id % 32)) := by
  have hlt : id < 54 := by omega
  simp only [levelPins, BitVec.getLsbD_shiftLeft, BitVec.getLsbD_setWidth, hlt, decide_true, Bool.true_and]
  by_cases hk : id / 32 = k.val
  · have hsub : id - 32 * k.val = id % 32 := by omega
    have hge : ¬ id < 32 * k.val := by omega
    have hbit : id % 32 < 54 := by omega
    simp [hk, hsub, hge, hbit]
  · by_cases hlow : id < 32 * k.val
    · simp [hk, hlow]
    · have hhigh : 32 ≤ id - 32 * k.val := by omega
      simp [hk, BitVec.getLsbD_of_ge v _ hhigh]

/-- Settles O19: each register stands at its offset, and a written word names its pins bit by bit. -/
theorem setAndClearRegistersActPerBit : Obligations.SetAndClearRegistersActPerBit := by
  intro c g v drawn k id hw hid
  have hlt : id < 54 := by omega
  simp only [Gpio.write, Gpio.read, regAt_offSet c hw k, regAt_offClr c hw k, BitVec.getLsbD_or, BitVec.getLsbD_and,
    BitVec.getLsbD_not, levelPins_getLsbD k v id hid, hlt, decide_true, Bool.true_and, and_self]

/-- A read of a function-select register gives the stored bit at a function field, and at every bit when reserved bits read
as stored (10_state.md R29). -/
theorem Gpio.read_fsel_getLsbD (c : Config) (hw : configWf c = true) (g : Gpio) (drawn : Word) (n : Fin 6) (i : Nat)
    (hi : (functionMask n).getLsbD i = true ∨ c.reservedRead = .stored) :
    (g.read c c.offFsel[n] drawn).getLsbD i = g.fsel[n].getLsbD i := by
  simp only [Gpio.read, regAt_offFsel c hw n]
  cases hr : c.reservedRead with
  | stored => rfl
  | draw =>
    have hmask : (functionMask n).getLsbD i = true := hi.resolve_right (by simp [hr])
    simp [hmask]

/-- Settles O20: a write stores the whole word, and the read gives the stored bits. -/
theorem functionFieldsReadAsStored : Obligations.FunctionFieldsReadAsStored := by
  intro c g v drawn n i hw _ hi
  rw [Gpio.read_fsel_getLsbD c hw _ drawn n i hi, Gpio.write_fsel c hw]
  simp

end Sys2Proof.Machine
end

section
/-! A write of another master between the read and the write of a WRF (20_memory.md R51, 70_reset_and_hazards.md R159). -/

namespace Sys2Proof.Machine

open Sys2Proof

/-- An opportunity for which the schedule holds no access changes the schedule only (20_memory.md R52). -/
theorem otherActs_idle (s : State) (rest : List (List OtherAccess)) (ho : s.cfg.otherMasters = true)
    (hs : s.other = [] :: rest) : otherActs s = { s with other := rest } := by
  simp [otherActs, ho, hs]

/-- A read before which `Other` is idle returns what the register reads as at that moment (20_memory.md R40, R52). -/
theorem memRead_idle (off : Nat) (s : State) (rest : List (List OtherAccess)) (ho : s.cfg.otherMasters = true)
    (hs : s.other = [] :: rest) : (memRead off s).1 = s.readValue off := by
  simp only [memRead, otherActs_idle s rest ho hs]
  rfl

/-- A write to a function-select register stores its whole word, over anything `Other` stored there just before
(10_state.md R29, 20_memory.md R51). -/
theorem memWrite_fsel (s : State) (hw : configWf s.cfg = true) (n : Fin 6) (v : Word) :
    (memWrite s.cfg.offFsel[n] v s).gpio.fsel[n] = v := by
  have hg : (memWrite s.cfg.offFsel[n] v s).gpio = (otherActs s).gpio.write s.cfg s.cfg.offFsel[n] v := by
    simp only [memWrite, State.record_gpio, writeEffect_gpio, otherActs_cfg]
  rw [hg, Gpio.write_fsel s.cfg hw]
  simp

/-- A masked write leaves the merge of the value its own read returned, whatever `Other` does in between: the write takes
nothing from the register as it then stands (20_memory.md R51). -/
theorem maskedWrite_fsel (s : State) (hw : configWf s.cfg = true) (n : Fin 6) (w p : Nat) (v : Word) :
    (maskedWrite s.cfg.offFsel[n] w p v s).gpio.fsel[n] = merge (memRead s.cfg.offFsel[n] s).1 v w p := by
  have hstore := memWrite_fsel (memRead s.cfg.offFsel[n] s).2 (by simpa using hw) n
    (merge (memRead s.cfg.offFsel[n] s).1 v w p)
  rw [memRead_cfg] at hstore
  simpa only [maskedWrite, offFsel_lt s.cfg hw n, if_true] using hstore

/-- Settles O29: `Other` is idle before the read, so the block reads the register as the command found it, and the block's
write then stores the whole merged word over the one `Other` wrote between the two accesses. -/
theorem otherMastersWriteIsLost : Obligations.OtherMastersWriteIsLost := by
  intro s n w p v x rest hr hw ho hg hs
  refine ⟨_, wrf_runs _ w p v s hr hg, ?_⟩
  have hread : (memRead s.cfg.offFsel[n] s.accept).1 = s.readValue s.cfg.offFsel[n] :=
    memRead_idle _ s.accept _ ho hs
  have hstore := maskedWrite_fsel s.accept hw n w p v
  simp only [State.accept_cfg, hread] at hstore
  exact hstore

end Sys2Proof.Machine
end

section
/-! A command word as its fields side by side (30_encoding.md R70 to R75): for each format, a word is the fields put
together exactly when it matches the format's fixed bits and its operand fields are the operands. -/

namespace Sys2Proof

/-! ### Fields side by side -/

/-- A run of bits is two parts side by side exactly when each part stands at its place. -/
theorem extractLsb'_eq_append_iff {n : Nat} (x : BitVec n) (lo a b : Nat) (y : BitVec a) (z : BitVec b) :
    x.extractLsb' lo (a + b) = y ++ z ↔ x.extractLsb' (lo + b) a = y ∧ x.extractLsb' lo b = z := by
  rw [← BitVec.extractLsb'_append_extractLsb'_eq_extractLsb' rfl]
  constructor
  · intro h
    have hy := congrArg (BitVec.extractLsb' b a) h
    have hz := congrArg (BitVec.extractLsb' 0 b) h
    simp only [BitVec.extractLsb'_append_eq_left, BitVec.extractLsb'_append_eq_right] at hy hz
    exact ⟨hy, hz⟩
  · rintro ⟨rfl, rfl⟩
    rfl

/-- A word is two parts side by side exactly when each part stands at its place. -/
theorem eq_append_iff {a b : Nat} (x : BitVec (a + b)) (y : BitVec a) (z : BitVec b) :
    x = y ++ z ↔ x.extractLsb' b a = y ∧ x.extractLsb' 0 b = z := by
  simpa using extractLsb'_eq_append_iff x 0 a b y z

/-- A mask that covers the top `h` bits and the low `z` bits tests exactly these two fields (30_encoding.md R76). -/
theorem masked_eq_iff {h m z : Nat} (x : BitVec (h + m + z)) (top : BitVec h) :
    x &&& (BitVec.allOnes h ++ 0#m ++ BitVec.allOnes z) = top ++ 0#m ++ 0#z ↔
      x.extractLsb' (z + m) h = top ∧ x.extractLsb' 0 z = 0#z := by
  obtain ⟨a, b, c, rfl⟩ : ∃ a b c, x = a ++ b ++ c :=
    ⟨_, _, _, by rw [BitVec.extractLsb'_append_extractLsb', BitVec.extractLsb'_append_extractLsb']⟩
  have ha : (a ++ b ++ c).extractLsb' (z + m) h = a := by
    rw [BitVec.extractLsb'_append_eq_of_le (Nat.le_add_right z m), Nat.add_sub_cancel_left,
      BitVec.extractLsb'_append_eq_left]
  simp [ha, BitVec.extractLsb'_append_eq_right, BitVec.and_append, eq_append_iff,
    BitVec.extractLsb'_append_eq_left, BitVec.extractLsb'_append_eq_right]

/-- A field holds an operand that fits it exactly when it reads as that number (30_encoding.md R79). -/
theorem extractLsb'_eq_ofNat_iff (w : Word) (lo len n : Nat) (hn : n < 2 ^ len) :
    w.extractLsb' lo len = BitVec.ofNat len n ↔ fieldOf w lo len = n := by
  rw [fieldOf, ← BitVec.toNat_inj, BitVec.toNat_ofNat, Nat.mod_eq_of_lt hn]

/-! ### The formats -/

/-- Format F, WRF and RDF, whose width field holds the width less one (30_encoding.md R71). -/
theorem formatF_iff (w0 : Word) (op : BitVec 4) (off w p : Nat) (hf : off ≤ 1023 ∧ 1 ≤ w ∧ w ≤ 32 ∧ p ≤ 31) :
    w0 = op ++ BitVec.ofNat 10 off ++ BitVec.ofNat 5 (w - 1) ++ BitVec.ofNat 5 p ++ 0#8 ↔
      w0 &&& 0xF00000FF = op ++ 0#20 ++ 0#8 ∧
        fieldOf w0 18 10 = off ∧ fieldOf w0 13 5 + 1 = w ∧ fieldOf w0 8 5 = p := by
  have hmatch : w0 &&& 0xF00000FF = op ++ 0#20 ++ 0#8 ↔ _ := masked_eq_iff (h := 4) (m := 20) (z := 8) w0 op
  have hwidth : fieldOf w0 13 5 + 1 = w ↔ fieldOf w0 13 5 = w - 1 := by omega
  rw [hmatch, hwidth, ← extractLsb'_eq_ofNat_iff w0 18 10 off (by omega),
    ← extractLsb'_eq_ofNat_iff w0 13 5 (w - 1) (by omega), ← extractLsb'_eq_ofNat_iff w0 8 5 p (by omega)]
  refine (eq_append_iff (a := 4 + 10 + 5 + 5) (b := 8) w0 _ _).trans ?_
  simp only [extractLsb'_eq_append_iff]
  tauto

/-- Format P with a slot and an id, PCLM (30_encoding.md R72). -/
theorem formatP_id_iff (w0 : Word) (op : BitVec 4) (slot id : Nat) (hf : slot ≤ 15 ∧ id ≤ 63) :
    w0 = op ++ BitVec.ofNat 4 slot ++ BitVec.ofNat 6 id ++ 0#18 ↔
      w0 &&& 0xF003FFFF = op ++ 0#10 ++ 0#18 ∧ fieldOf w0 24 4 = slot ∧ fieldOf w0 18 6 = id := by
  have hmatch : w0 &&& 0xF003FFFF = op ++ 0#10 ++ 0#18 ↔ _ := masked_eq_iff (h := 4) (m := 10) (z := 18) w0 op
  rw [hmatch, ← extractLsb'_eq_ofNat_iff w0 24 4 slot (by omega), ← extractLsb'_eq_ofNat_iff w0 18 6 id (by omega)]
  refine (eq_append_iff (a := 4 + 4 + 6) (b := 18) w0 _ _).trans ?_
  simp only [extractLsb'_eq_append_iff]
  tauto

/-- Format P with a slot alone, PREL, PSET, PCLR and PPLS (30_encoding.md R72). -/
theorem formatP_iff (w0 : Word) (op : BitVec 4) (slot : Nat) (hslot : slot ≤ 15) :
    w0 = op ++ BitVec.ofNat 4 slot ++ 0#24 ↔ w0 &&& 0xF0FFFFFF = op ++ 0#4 ++ 0#24 ∧ fieldOf w0 24 4 = slot := by
  have hmatch : w0 &&& 0xF0FFFFFF = op ++ 0#4 ++ 0#24 ↔ _ := masked_eq_iff (h := 4) (m := 4) (z := 24) w0 op
  rw [hmatch, ← extractLsb'_eq_ofNat_iff w0 24 4 slot (by omega)]
  refine (eq_append_iff (a := 4 + 4) (b := 24) w0 _ _).trans ?_
  simp only [extractLsb'_eq_append_iff]
  tauto

/-- Format M, PMOV (30_encoding.md R73). -/
theorem formatM_iff (w0 : Word) (op : BitVec 4) (dst src : Nat) (hf : dst ≤ 15 ∧ src ≤ 15) :
    w0 = op ++ BitVec.ofNat 4 dst ++ BitVec.ofNat 4 src ++ 0#20 ↔
      w0 &&& 0xF00FFFFF = op ++ 0#8 ++ 0#20 ∧ fieldOf w0 24 4 = dst ∧ fieldOf w0 20 4 = src := by
  have hmatch : w0 &&& 0xF00FFFFF = op ++ 0#8 ++ 0#20 ↔ _ := masked_eq_iff (h := 4) (m := 8) (z := 20) w0 op
  rw [hmatch, ← extractLsb'_eq_ofNat_iff w0 24 4 dst (by omega), ← extractLsb'_eq_ofNat_iff w0 20 4 src (by omega)]
  refine (eq_append_iff (a := 4 + 4 + 4) (b := 20) w0 _ _).trans ?_
  simp only [extractLsb'_eq_append_iff]
  tauto

/-- Format B, SRWR (30_encoding.md R74). -/
theorem formatB_iff (w0 : Word) (op : BitVec 4) (byte : Nat) (hbyte : byte ≤ 255) :
    w0 = op ++ 0#20 ++ BitVec.ofNat 8 byte ↔ w0 &&& 0xFFFFFF00 = op ++ 0#20 ++ 0#8 ∧ fieldOf w0 0 8 = byte := by
  have hmatch : w0 &&& 0xFFFFFF00 = op ++ 0#20 ++ 0#8 ++ 0#0 ↔ _ :=
    masked_eq_iff (h := 24) (m := 8) (z := 0) w0 (op ++ 0#20)
  rw [BitVec.append_zero_width] at hmatch
  rw [hmatch, ← extractLsb'_eq_ofNat_iff w0 0 8 byte (by omega)]
  refine (eq_append_iff (a := 24) (b := 8) w0 _ _).trans ?_
  simp

/-- Format N, the six commands without an operand (30_encoding.md R75). -/
theorem formatN_iff (w0 : Word) (pattern : Word) : w0 = pattern ↔ w0 &&& 0xFFFFFFFF = pattern := by
  have hall : w0 &&& 0xFFFFFFFF = w0 := BitVec.and_allOnes
  rw [hall]

end Sys2Proof
end

section
/-! The decoder and the encoder (30_encoding.md R69, R76 to R79): a word matches at most one row, the decoder answers the
row it matches, and so it answers a command exactly on that command's words. -/

namespace Sys2Proof

open Sys2Proof.Machine

/-! ### The rows of the opcode map -/

/-- The opcodes of the map are distinct, so looking up a row's opcode finds that row (30_encoding.md R76). -/
theorem opcodeTable_find_op (r : Row) (hr : r ∈ opcodeTable) :
    opcodeTable.find? (fun r' => r'.op == r.op) = some r := by
  have hfind := find_of_nodup (opcodeTable.map fun r => (r.op, r)) (by decide) (r.op, r)
    (List.mem_map_of_mem hr)
  simpa [List.find?_map, Function.comp_def] using hfind

/-- Every row's mask covers the opcode, and its pattern has the row's opcode there (30_encoding.md R76). -/
theorem opcodeTable_opcode : ∀ r ∈ opcodeTable,
    r.mask.extractLsb' 28 4 = BitVec.allOnes 4 ∧ opcodeOf r.pattern = r.op := by decide

/-- A word that matches a row has the row's opcode (30_encoding.md R70, R76). -/
theorem opcodeOf_of_match (r : Row) (hr : r ∈ opcodeTable) (w0 : Word) (hm : w0 &&& r.mask = r.pattern) :
    opcodeOf w0 = r.op := by
  obtain ⟨hmask, hop⟩ := opcodeTable_opcode r hr
  rw [← hop, ← hm, opcodeOf, opcodeOf, fieldOf, fieldOf, BitVec.extractLsb'_and, hmask, BitVec.and_allOnes]

/-- The decoder answers the command of a row the word matches (30_encoding.md R78). -/
theorem decodeWords_of_match (r : Row) (hr : r ∈ opcodeTable) (w0 w1 : Word) (hm : w0 &&& r.mask = r.pattern) :
    decodeWords w0 w1 = .ok (r.build w0 w1) := by
  simp only [decodeWords, opcodeOf_of_match r hr w0 hm, opcodeTable_find_op r hr, hm, if_true]

/-- The decoder answers the command of a row the word matches, and nothing else (30_encoding.md R78). -/
theorem decodeWords_ok_iff_match (w0 w1 : Word) (i : Instr) : decodeWords w0 w1 = .ok i ↔
    ∃ r ∈ opcodeTable, w0 &&& r.mask = r.pattern ∧ r.build w0 w1 = i := by
  constructor
  · intro h
    unfold decodeWords at h
    split at h
    · cases h
    · rename_i r hfind
      split at h
      · rename_i hm
        exact ⟨r, List.mem_of_find?_eq_some hfind, hm, Except.ok.inj h⟩
      · cases h
  · rintro ⟨r, hr, hm, rfl⟩
    exact decodeWords_of_match r hr w0 w1 hm

/-- Settles O3: a word that matches a row has that row's opcode, so a second match has the same one, and the decoder
answers exactly the row that matches. -/
theorem everyWordIsOneCommandOrIllegal : Obligations.EveryWordIsOneCommandOrIllegal := by
  intro w0 w1
  by_cases h : ∃ r ∈ opcodeTable, w0 &&& r.mask = r.pattern
  · obtain ⟨r, hr, hm⟩ := h
    exact .inl ⟨r, hr, hm, decodeWords_of_match r hr w0 w1 hm, fun r' hr' hm' =>
      (opcodeOf_of_match r' hr' w0 hm').symm.trans (opcodeOf_of_match r hr w0 hm)⟩
  · push Not at h
    refine .inr ⟨h, ?_⟩
    cases hd : decodeWords w0 w1 with
    | error e => exact ⟨e, rfl⟩
    | ok i =>
      obtain ⟨r, hr, hm, _⟩ := (decodeWords_ok_iff_match w0 w1 i).mp hd
      exact absurd hm (h r hr)

/-! ### A command's words -/

/-- A well-formed command stands in the row a word matches exactly when the word is its encoding and the operand word, for
a command that has one, is its operand (30_encoding.md R71 to R76). -/
theorem match_build_iff (w0 w1 : Word) (i : Instr) (hi : i.wf = true) :
    (∃ r ∈ opcodeTable, w0 &&& r.mask = r.pattern ∧ r.build w0 w1 = i) ↔
      w0 = encodeWord0 i ∧ ∀ v ∈ operandWords i, w1 = v := by
  cases i with
  | wrf off w p v =>
    simpa [opcodeTable, encodeWord0, operandWords, and_assoc] using
      and_congr_left' (c := w1 = v) (formatF_iff w0 0x1#4 off w p (of_decide_eq_true hi)).symm
  | rdf off w p =>
    simpa [opcodeTable, encodeWord0, operandWords] using (formatF_iff w0 0x2#4 off w p (of_decide_eq_true hi)).symm
  | pclm slot id =>
    simpa [opcodeTable, encodeWord0, operandWords] using (formatP_id_iff w0 0x3#4 slot id (of_decide_eq_true hi)).symm
  | prel slot =>
    simpa [opcodeTable, encodeWord0, operandWords] using (formatP_iff w0 0x4#4 slot (of_decide_eq_true hi)).symm
  | pset slot =>
    simpa [opcodeTable, encodeWord0, operandWords] using (formatP_iff w0 0x5#4 slot (of_decide_eq_true hi)).symm
  | pclr slot =>
    simpa [opcodeTable, encodeWord0, operandWords] using (formatP_iff w0 0x6#4 slot (of_decide_eq_true hi)).symm
  | ppls slot =>
    simpa [opcodeTable, encodeWord0, operandWords] using (formatP_iff w0 0x7#4 slot (of_decide_eq_true hi)).symm
  | pmov dst src =>
    simpa [opcodeTable, encodeWord0, operandWords] using (formatM_iff w0 0x8#4 dst src (of_decide_eq_true hi)).symm
  | srinit => simpa [opcodeTable, encodeWord0, operandWords] using (formatN_iff w0 0x90000000#32).symm
  | srwr byte =>
    simpa [opcodeTable, encodeWord0, operandWords] using (formatB_iff w0 0xA#4 byte (of_decide_eq_true hi)).symm
  | srfl => simpa [opcodeTable, encodeWord0, operandWords] using (formatN_iff w0 0xB0000000#32).symm
  | srtd => simpa [opcodeTable, encodeWord0, operandWords] using (formatN_iff w0 0xC0000000#32).symm
  | mxinit => simpa [opcodeTable, encodeWord0, operandWords] using (formatN_iff w0 0xD0000000#32).symm
  | mxsw => simpa [opcodeTable, encodeWord0, operandWords] using (formatN_iff w0 0xE0000000#32).symm
  | mxtd => simpa [opcodeTable, encodeWord0, operandWords] using (formatN_iff w0 0xF0000000#32).symm

/-- The decoder answers a command on two words exactly when it is well-formed and they are its words
(30_encoding.md R78, R79). -/
theorem decodeWords_ok_iff (w0 w1 : Word) (i : Instr) : decodeWords w0 w1 = .ok i ↔
    i.wf = true ∧ w0 = encodeWord0 i ∧ ∀ v ∈ operandWords i, w1 = v := by
  constructor
  · intro h
    have hi := decodeWords_wf w0 w1 i h
    exact ⟨hi, (match_build_iff w0 w1 i hi).mp ((decodeWords_ok_iff_match w0 w1 i).mp h)⟩
  · rintro ⟨hi, h⟩
    exact (decodeWords_ok_iff_match w0 w1 i).mpr ((match_build_iff w0 w1 i hi).mpr h)

/-- A command is as many words as its opcode says (30_encoding.md R69). -/
theorem lengthOf_encodeWord0 (i : Instr) : lengthOf (encodeWord0 i) = (operandWords i).length + 1 := by
  have hlength : Laws.EncodedLength.Statement i := by
    cases i with
    | wrf off w p v => exact Laws.EncodedLength.wrf off w p v
    | rdf off w p => exact Laws.EncodedLength.rdf off w p
    | pclm slot id => exact Laws.EncodedLength.pclm slot id
    | prel slot => exact Laws.EncodedLength.prel slot
    | pset slot => exact Laws.EncodedLength.pset slot
    | pclr slot => exact Laws.EncodedLength.pclr slot
    | ppls slot => exact Laws.EncodedLength.ppls slot
    | pmov dst src => exact Laws.EncodedLength.pmov dst src
    | srinit => exact Laws.EncodedLength.srinit
    | srwr byte => exact Laws.EncodedLength.srwr byte
    | srfl => exact Laws.EncodedLength.srfl
    | srtd => exact Laws.EncodedLength.srtd
    | mxinit => exact Laws.EncodedLength.mxinit
    | mxsw => exact Laws.EncodedLength.mxsw
    | mxtd => exact Laws.EncodedLength.mxtd
  exact hlength.1.symm

/-- A command has at most one operand word (30_encoding.md R69). -/
theorem operandWords_cases (i : Instr) : operandWords i = [] ∨ ∃ v, operandWords i = [v] := by
  cases i with
  | wrf off w p v => exact .inr ⟨v, rfl⟩
  | _ => exact .inl rfl

/-- The words after `word0` begin with the command's operand words exactly when there are enough of them and the first is
the operand, for a command that has one. -/
theorem operandWords_append_iff (i : Instr) (tail rest : List Word) : tail = operandWords i ++ rest ↔
    (operandWords i).length ≤ tail.length ∧ (∀ v ∈ operandWords i, tail.headD 0 = v) ∧
      rest = tail.drop (operandWords i).length := by
  obtain h | ⟨v, h⟩ := operandWords_cases i
  · simp [h, eq_comm]
  · cases tail with
    | nil => simp [h]
    | cons w tail => simp [h, eq_comm]

/-- The decoder reads a command off a list of words exactly when `word0` and its operand words are all there
(30_encoding.md R69). -/
theorem decode_command_iff (w0 : Word) (tail rest : List Word) (i : Instr) :
    decode (w0 :: tail) = .command i rest ↔
      lengthOf w0 ≤ tail.length + 1 ∧ decodeWords w0 (tail.headD 0) = .ok i ∧ rest = tail.drop (lengthOf w0 - 1) := by
  simp only [decode]
  split
  · rename_i hshort
    simp [Nat.not_le.mpr hshort]
  · rename_i hlong
    cases decodeWords w0 (tail.headD 0) with
    | error e => simp
    | ok j => simp [Nat.not_lt.mp hlong, eq_comm]

/-- The decoder reads a command off a list of words exactly when the command is well-formed and the list is its encoding
and the rest (30_encoding.md R69, R78, R79). -/
theorem decode_eq_command_iff (ws rest : List Word) (i : Instr) :
    decode ws = .command i rest ↔ i.wf = true ∧ ws = encode i ++ rest := by
  cases ws with
  | nil => simp [decode, encode]
  | cons w0 tail =>
    have hsplit : w0 :: tail = encode i ++ rest ↔ w0 = encodeWord0 i ∧ tail = operandWords i ++ rest := by
      simp [encode]
    rw [decode_command_iff, decodeWords_ok_iff, hsplit, operandWords_append_iff]
    constructor
    · rintro ⟨hlen, ⟨hi, rfl, hv⟩, hrest⟩
      rw [lengthOf_encodeWord0] at hlen hrest
      exact ⟨hi, rfl, Nat.le_of_succ_le_succ hlen, hv, hrest⟩
    · rintro ⟨hi, rfl, hlen, hv, hrest⟩
      rw [lengthOf_encodeWord0]
      exact ⟨Nat.succ_le_succ hlen, ⟨hi, rfl, hv⟩, hrest⟩

/-- Settles O1: a command's encoding and the rest are words the decoder reads the command off. -/
theorem decodeInvertsEncode : Obligations.DecodeInvertsEncode :=
  fun i rest hi => (decode_eq_command_iff _ rest i).mpr ⟨hi, rfl⟩

/-- Settles O2: the words a command is read off are its encoding and the rest, so the decoder drops no bit. -/
theorem encodeInvertsDecode : Obligations.EncodeInvertsDecode :=
  fun ws rest i h => (decode_eq_command_iff ws rest i).mp h

/-- Settles O4: nine fixed lists of words, evaluated. -/
theorem writtenOutWordsDecode : Obligations.WrittenOutWordsDecode := by
  unfold Obligations.WrittenOutWordsDecode
  decide

end Sys2Proof
end

section
/-! The assembler's pseudo-instructions (30_encoding.md R80), and the two faults that answer malformed commands: an illegal
word (30_encoding.md R77) and an illegal geometry (30_encoding.md R68). -/

namespace Sys2Proof.Machine

open Sys2Proof

/-! ### The assembler -/

/-- The assembler encodes exactly the well-formed commands (30_encoding.md R79). -/
theorem assemble_isSome_iff (i : Instr) : (assemble i).isSome = true ↔ i.wf = true := by
  unfold assemble
  cases i.wf <;> simp

/-- A valid id has a function-select register and a position there (30_encoding.md R60, R61). -/
theorem resolveFsel_valid (id : Nat) (hid : id ≤ 53) :
    ∃ n : Fin 6, n.val = id / 10 ∧ resolveFsel id = some (n, id % 10) :=
  ⟨Fin.ofNat 6 (id / 10), Nat.mod_eq_of_lt (by omega), if_pos hid⟩

/-- A field of a function-select register has an encoding when the window's offsets fit the offset field
(30_encoding.md R61, R79, 20_memory.md R42). -/
theorem wrf_fsel_wf (c : Config) (hc : configWf c = true) (hwords : c.blockWords ≤ 1024) (n : Fin 6) (p : Nat)
    (hp : p ≤ 31) (v : Word) : (Instr.wrf c.offFsel[n] fselFieldW p v).wf = true := by
  have hoff := offFsel_lt c hc n
  exact decide_eq_true ⟨by omega, by decide, by decide, hp⟩

/-- Settles O5: a valid id resolves to a register of the window, whose offset and position fit their fields. -/
theorem pseudoInstructionsAssemble : Obligations.PseudoInstructionsAssemble := by
  intro c hc hwords
  refine ⟨fun id fn hid => ?_, fun id fn hid => ?_, fun byte => ⟨rfl, ?_⟩, rfl⟩
  · obtain ⟨n, hn, hres⟩ := resolveFsel_valid id hid
    refine ⟨n, hn, by simp only [expandPseudo, hres, fselFieldW], ?_⟩
    exact (assemble_isSome_iff _).mpr (wrf_fsel_wf c hc hwords n (id % 10) (by omega) _)
  · have hres : resolveFsel id = none := if_neg (by omega)
    simp only [expandPseudo, hres]
  · rw [assemble_isSome_iff]
    exact decide_eq_true_iff

/-! ### The faults -/

/-- A command with an illegal geometry, on a ready state, faults at its only check (30_encoding.md R68, 60_exceptions.md
R136). -/
theorem exec_badGeometry (i : Instr) (w p : Nat) (s : State) (hi : commandChecks i s = geometryCheck w p) (hr : Ready s)
    (hg : ¬ legalGeometry w p) : exec i s = .next (s.faulted .badGeometry (encodeWord0 i)) := by
  have hfirst : firstFault (commandChecks i s) = some .badGeometry := by
    rw [hi, geometryCheck, decide_eq_false hg]
    exact firstFault_true _ _
  rw [exec_eq_frame, frame_faults i s _ _ .badGeometry ⟨.inl hr.1, hr.2⟩ hfirst]

/-- Settles O28: the geometry is the only thing WRF and RDF check. -/
theorem illegalGeometryFaults : Obligations.IllegalGeometryFaults :=
  fun off w p v s hr hg =>
    ⟨exec_badGeometry (.wrf off w p v) w p s rfl hr hg, exec_badGeometry (.rdf off w p) w p s rfl hr hg⟩

/-- Settles O7: the step of a well-formed configuration on an illegal word, which no admission comes before. -/
theorem illegalWordFaults : Obligations.IllegalWordFaults :=
  fun s why w0 rest hw hb hd => (step_of_wellFormed s hw).trans (systemStep_of_illegal s why w0 rest hb hd)

end Sys2Proof.Machine
end

section
/-! The arithmetic of fields (40_register_writer.md R81 to R86): what a merge leaves of its own field and of another. -/

namespace Sys2Proof.Machine

open Sys2Proof

/-- Two fields without a common bit: one ends at or before the first bit of the other (40_register_writer.md R86). -/
abbrev DisjointFields (w p w' p' : Nat) : Prop := p * w + w ≤ p' * w' ∨ p' * w' + w' ≤ p * w

/-- Bit `i` lies in the field of width `w` at position `p` (30_encoding.md R67). -/
abbrev InField (w p i : Nat) : Prop := p * w ≤ i ∧ i < p * w + w

/-- A bit of one field is not in a field disjoint from it. -/
theorem DisjointFields.not_inField {w p w' p' i : Nat} (hd : DisjointFields w p w' p') (hi : InField w' p' i) :
    ¬ InField w p i := by
  omega

/-- A bit of a legal field is a bit of the word (30_encoding.md R68). -/
theorem lt_of_inField {w p i : Nat} (hg : legalGeometry w p) (hi : InField w p i) : i < 32 := by
  omega

/-- Settles O23: bit by bit, the field of the merged word is the low `w` bits of the value. -/
theorem fieldCorrectness : Obligations.FieldCorrectness := by
  intro w p r v hg
  apply BitVec.eq_of_getLsbD_eq
  intro i hi
  rw [extract_getLsbD, BitVec.getLsbD_ofNat, Nat.testBit_mod_two_pow, decide_eq_true hi, Bool.true_and]
  by_cases hiw : i < w
  · have hin : InField w p (p * w + i) := by omega
    rw [merge_getLsbD r v w p _ (lt_of_inField hg hin), if_pos hin, Nat.add_sub_cancel_left]
    rfl
  · simp only [hiw, decide_false, Bool.false_and]

/-- The bits outside the mask are the old word's (40_register_writer.md R84). -/
theorem merge_outside_mask (r v : Word) (w p : Nat) : merge r v w p &&& ~~~ maskOf w p = r &&& ~~~ maskOf w p := by
  apply BitVec.eq_of_getLsbD_eq
  intro i hi
  rw [BitVec.getLsbD_and, BitVec.getLsbD_and, BitVec.getLsbD_not, maskOf_getLsbD, merge_getLsbD r v w p i hi]
  by_cases hin : InField w p i
  · simp [hin, hi]
  · rw [if_neg hin]

/-- A field depends on its own bits only (40_register_writer.md R83). -/
theorem extract_congr (r r' : Word) (w p : Nat) (h : ∀ i, InField w p i → r.getLsbD i = r'.getLsbD i) :
    extract r w p = extract r' w p := by
  apply BitVec.eq_of_getLsbD_eq
  intro i _
  rw [extract_getLsbD, extract_getLsbD]
  by_cases hiw : i < w
  · rw [h (p * w + i) (by omega)]
  · simp only [hiw, decide_false, Bool.false_and]

/-- A merge keeps the bits of every legal field disjoint from its own (40_register_writer.md R84). -/
theorem merge_getLsbD_of_disjoint (r v : Word) {w p w' p' i : Nat} (hd : DisjointFields w p w' p')
    (hg' : legalGeometry w' p') (hi : InField w' p' i) : (merge r v w p).getLsbD i = r.getLsbD i := by
  rw [merge_getLsbD r v w p i (lt_of_inField hg' hi), if_neg (hd.not_inField hi)]

/-- A merge keeps every legal field disjoint from its own (40_register_writer.md R84). -/
theorem extract_merge_of_disjoint (r v : Word) {w p w' p' : Nat} (hd : DisjointFields w p w' p')
    (hg' : legalGeometry w' p') : extract (merge r v w p) w' p' = extract r w' p' :=
  extract_congr _ _ w' p' fun _ hi => merge_getLsbD_of_disjoint r v hd hg' hi

/-- Merges of disjoint fields commute (40_register_writer.md R86). -/
theorem merge_comm_of_disjoint (r v v' : Word) {w p w' p' : Nat} (hd : DisjointFields w p w' p') :
    merge (merge r v w p) v' w' p' = merge (merge r v' w' p') v w p := by
  apply BitVec.eq_of_getLsbD_eq
  intro i hi
  simp only [merge_getLsbD _ _ _ _ i hi]
  by_cases hin' : InField w' p' i
  · rw [if_pos hin', if_neg (hd.not_inField hin'), if_pos hin']
  · rw [if_neg hin', if_neg hin']

end Sys2Proof.Machine
end

section
/-! The Register Writer's two commands (40_register_writer.md R82, R83): their accesses, their response, and the
peripheral and the circuit after them. -/

namespace Sys2Proof.Machine

open Sys2Proof

/-! ### The masked write -/

/-- A masked write inside the window is a read and a write of the merged word (40_register_writer.md R82). -/
theorem maskedWrite_inside (off w p : Nat) (v : Word) (s : State) (hoff : off < s.cfg.blockWords) :
    maskedWrite off w p v s = memWrite off (merge (memRead off s).1 v w p) (memRead off s).2 := by
  simp only [maskedWrite, hoff, if_true]

/-- A masked write outside the window does nothing (20_memory.md R41). -/
theorem maskedWrite_outside (off w p : Nat) (v : Word) (s : State) (hoff : s.cfg.blockWords ≤ off) :
    maskedWrite off w p v s = s :=
  if_neg (Nat.not_lt.mpr hoff)

/-- The two events of a masked write (40_register_writer.md R82). -/
theorem maskedWrite_trace (off w p : Nat) (v : Word) (s : State) (hoff : off < s.cfg.blockWords) :
    (maskedWrite off w p v s).trace =
      s.trace ++ [.read off (memRead off s).1, .write off (merge (memRead off s).1 v w p)] := by
  rw [maskedWrite_inside off w p v s hoff, memWrite_trace, memRead_trace, List.append_assoc]
  rfl

/-- The `Draw()` values used after a read, when there is no other master. -/
theorem memRead_draws (off : Nat) (s : State) (ha : s.cfg.otherMasters = false) :
    (memRead off s).2.draws = (if readDraws s.cfg off then s.tick else s).draws := by
  simp only [memRead, otherActs_alone s ha, State.record_draws]

/-- The circuit after a masked write, when there is no other master: it samples once, after the write (20_memory.md R40,
R47). -/
theorem maskedWrite_ext (off w p : Nat) (v : Word) (s : State) (ha : s.cfg.otherMasters = false)
    (hoff : off < s.cfg.blockWords) :
    (maskedWrite off w p v s).ext =
      (writeEffect off (merge (s.readValue off) v w p) (if readDraws s.cfg off then s.tick else s)).ext := by
  obtain ⟨hvalue, hgpio, hext, _⟩ := memRead_alone off s ha
  rw [maskedWrite_inside off w p v s hoff, memWrite_alone _ _ _ (by simpa using ha), State.record_ext, hvalue]
  refine (writeEffect_ext_congr off _ _ _ ?_ ?_ ?_ (memRead_draws off s ha)).1
  · rw [memRead_cfg]; split <;> rfl
  · rw [hgpio]; split <;> rfl
  · rw [hext]; split <;> rfl

/-! ### The two commands -/

/-- Settles O25: the command is the masked write between its acceptance and its response. -/
theorem wrfMergesOneField : Obligations.WrfMergesOneField := by
  intro off w p v s hr hg
  refine ⟨_, wrf_runs off w p v s hr hg, ?_, ?_, ?_,
    fun hoff => ⟨(memRead off s.accept).1, ?_, fun ha => ?_⟩, fun hoff => ?_⟩
  · simp only [wrfBody, State.respond_blk, State.setRspData_blk, maskedWrite_blk]
    rfl
  · simp only [wrfBody, State.respond_host, State.setRspData_host, maskedWrite_host, State.accept_host]
  · simp only [wrfBody, State.respond_cfg, State.setRspData_cfg, maskedWrite_cfg, State.accept_cfg]
  · exact maskedWrite_trace off w p v s.accept hoff
  · rw [(memRead_alone off s.accept ha).1]
    refine ⟨rfl, maskedWrite_gpio off w p v s.accept ha hoff,
      (maskedWrite_ext off w p v s.accept ha hoff).trans (writeEffect_ext_congr off _ _ _ ?_ ?_ ?_ ?_).1⟩
    all_goals rw [State.accept_cfg]; split <;> rfl
  · rw [wrfBody, maskedWrite_outside off w p v s.accept hoff]
    rfl

/-- Settles O27: the command is one read between its acceptance and its response, and a read changes neither `P` nor
`E`. -/
theorem rdfReturnsOneField : Obligations.RdfReturnsOneField := by
  intro off w p s hr hg
  obtain hoff | hoff := Nat.lt_or_ge off s.cfg.blockWords
  · have hbody : rdfBody off w p s.accept =
        (memRead off s.accept).2.setRspData (extract (memRead off s.accept).1 w p) := if_pos hoff
    have hrun := rdf_runs off w p s hr hg
    rw [hbody] at hrun
    refine ⟨_, hrun, ?_, ?_, fun _ => ⟨(memRead off s.accept).1, ?_, ?_, fun ha => ?_⟩,
      fun hout => absurd hoff (Nat.not_lt.mpr hout)⟩
    · exact memRead_host off s.accept
    · exact memRead_cfg off s.accept
    · exact memRead_trace off s.accept
    · rw [State.respond_blk, State.setRspData_blk, memRead_blk]
      rfl
    · obtain ⟨hvalue, hgpio, hext, _⟩ := memRead_alone off s.accept ha
      exact ⟨hvalue, hgpio, hext⟩
  · have hbody : rdfBody off w p s.accept = s.accept.setRspData 0 := if_neg (Nat.not_lt.mpr hoff)
    refine ⟨_, rdf_runs off w p s hr hg, ?_⟩
    rw [hbody]
    exact ⟨rfl, rfl, fun hin => absurd hin (Nat.not_lt.mpr hoff), fun _ => rfl⟩

/-! ### The commands on a function-select register -/

/-- A command that completes leaves a ready block ready. -/
theorem Ready.of_completed {s t : State} {data : Word} (hr : Ready s) (hb : t.blk = s.blk.completed data)
    (hh : t.host = s.host) : Ready t := by
  obtain ⟨hfault, hmapped⟩ := hr
  exact ⟨by rw [hb]; exact hfault, by rw [hh]; exact hmapped⟩

/-- WRF on a function-select register replaces that register by the merged word (40_register_writer.md R82). -/
theorem wrf_fsel (s : State) (n : Fin 6) (w p : Nat) (v : Word) (hr : Ready s) (ha : Alone s)
    (hg : legalGeometry w p) :
    ∃ t, exec (.wrf s.cfg.offFsel[n] w p v) s = .next t ∧ Ready t ∧ t.cfg = s.cfg ∧
      t.gpio = { s.gpio with fsel := s.gpio.fsel.set n (merge (s.readValue s.cfg.offFsel[n]) v w p) } := by
  obtain ⟨hw, hm⟩ := ha
  obtain ⟨t, he, hblk, hhost, hcfg, hin, _⟩ := wrfMergesOneField s.cfg.offFsel[n] w p v s hr hg
  obtain ⟨r, _, halone⟩ := hin (offFsel_lt s.cfg hw n)
  obtain ⟨rfl, hgpio, _⟩ := halone hm
  exact ⟨t, he, hr.of_completed hblk hhost, hcfg, hgpio.trans (Gpio.write_fsel s.cfg hw s.gpio n _)⟩

/-- RDF on a function-select register answers a field of what the register reads as (40_register_writer.md R83). -/
theorem rdf_fsel (s : State) (n : Fin 6) (w p : Nat) (hr : Ready s) (ha : Alone s) (hg : legalGeometry w p) :
    ∃ t, exec (.rdf s.cfg.offFsel[n] w p) s = .next t ∧
      t.blk.rspData = extract (s.readValue s.cfg.offFsel[n]) w p := by
  obtain ⟨hw, hm⟩ := ha
  obtain ⟨t, he, _, _, hin, _⟩ := rdfReturnsOneField s.cfg.offFsel[n] w p s hr hg
  obtain ⟨r, _, hblk, halone⟩ := hin (offFsel_lt s.cfg hw n)
  obtain ⟨rfl, _⟩ := halone hm
  exact ⟨t, he, by rw [hblk]; rfl⟩

/-- Two commands that complete one after the other. -/
theorem execAll_pair {i j : Instr} {s t u : State} (hi : exec i s = .next t) (hj : exec j t = .next u) :
    execAll [i, j] s = .next u := by
  simp only [execAll, hi, hj]

/-- Settles O22: the merged word keeps the bits of the second field, and where that field has no reserved bit, or these
read as stored, both the WRF's read and the RDF's read return what is stored there. -/
theorem maskCorrectness : Obligations.MaskCorrectness := by
  refine ⟨fun w p r v _ => merge_outside_mask r v w p, ?_⟩
  intro s n w p w' p' v hr ha hres hg hg' hd
  obtain ⟨t, het, hrt, hct, hgt⟩ := wrf_fsel s n w p v hr ha hg
  have hat : Alone t := by rw [Alone, hct]; exact ha
  obtain ⟨u, heu, hdata⟩ := rdf_fsel t n w' p' hrt hat hg'
  rw [hct] at heu
  refine ⟨u, execAll_pair het heu, ?_⟩
  rw [hdata]
  refine extract_congr _ _ w' p' fun i hi => ?_
  have hstored : (functionMask n).getLsbD i = true ∨ s.cfg.reservedRead = .stored :=
    hres.symm.imp_left fun h => h i hi.1 hi.2
  calc (t.readValue t.cfg.offFsel[n]).getLsbD i
      = t.gpio.fsel[n].getLsbD i := Gpio.read_fsel_getLsbD t.cfg hat.1 t.gpio _ n i (by rw [hct]; exact hstored)
    _ = (merge (s.readValue s.cfg.offFsel[n]) v w p).getLsbD i := by rw [hgt]; simp
    _ = (s.readValue s.cfg.offFsel[n]).getLsbD i := merge_getLsbD_of_disjoint _ v hd hg' hi
    _ = s.gpio.fsel[n].getLsbD i := Gpio.read_fsel_getLsbD s.cfg ha.1 s.gpio _ n i hstored

/-- With reserved bits read as stored, a function-select register reads as the word it stores (10_state.md R29). -/
theorem readValue_fsel_stored (s : State) (hw : configWf s.cfg = true) (hs : s.cfg.reservedRead = .stored) (n : Fin 6) :
    s.readValue s.cfg.offFsel[n] = s.gpio.fsel[n] :=
  BitVec.eq_of_getLsbD_eq fun i _ => Gpio.read_fsel_getLsbD s.cfg hw s.gpio _ n i (.inr hs)

/-- Two WRF on one function-select register merge the one field and then the other (40_register_writer.md R82). -/
theorem wrf_wrf_fsel (s : State) (n : Fin 6) (w p w' p' : Nat) (v v' : Word) (hr : Ready s) (ha : Alone s)
    (hs : s.cfg.reservedRead = .stored) (hg : legalGeometry w p) (hg' : legalGeometry w' p') :
    ∃ t, execAll [.wrf s.cfg.offFsel[n] w p v, .wrf s.cfg.offFsel[n] w' p' v'] s = .next t ∧
      t.gpio = { s.gpio with
        fsel := s.gpio.fsel.set n (merge (merge s.gpio.fsel[n] v w p) v' w' p') } := by
  obtain ⟨t, het, hrt, hct, hgt⟩ := wrf_fsel s n w p v hr ha hg
  have hat : Alone t := by rw [Alone, hct]; exact ha
  obtain ⟨u, heu, _, _, hgu⟩ := wrf_fsel t n w' p' v' hrt hat hg'
  rw [readValue_fsel_stored s ha.1 hs] at hgt
  rw [readValue_fsel_stored t hat.1 (by rw [hct]; exact hs), hgt] at hgu
  rw [hct] at heu
  exact ⟨u, execAll_pair het heu, by rw [hgu]; simp⟩

/-- Settles O24: both orders store the same word, since merges of disjoint fields commute, and in it the field written
first is kept by the second merge. -/
theorem disjointFieldWritesCommute : Obligations.DisjointFieldWritesCommute := by
  intro s n w p w' p' v v' hr ha hs hg hg' hd
  obtain ⟨t, het, hgt⟩ := wrf_wrf_fsel s n w p w' p' v v' hr ha hs hg hg'
  obtain ⟨t', het', hgt'⟩ := wrf_wrf_fsel s n w' p' w p v' v hr ha hs hg' hg
  have hword : t.gpio.fsel[n] = merge (merge s.gpio.fsel[n] v w p) v' w' p' := by rw [hgt]; simp
  refine ⟨t, t', het, het', ?_, ?_, ?_⟩
  · rw [hgt, hgt', merge_comm_of_disjoint _ v v' hd]
  · rw [hword, extract_merge_of_disjoint _ v' hd.symm hg]
    exact fieldCorrectness w p _ v hg
  · rw [hword]
    exact fieldCorrectness w' p' _ v' hg'

/-! ### The stored bytes -/

/-- A function-select register stands at its own offset only (20_memory.md R42). -/
theorem eq_offFsel_of_regAt (c : Config) (off : Nat) (n : Fin 6) (h : regAt c off = .fsel n) : off = c.offFsel[n] := by
  unfold regAt at h
  split at h
  · rename_i e hfind
    have hoff : e.1 = off := by simpa using List.find?_some hfind
    have hmem : (off, Reg.fsel n) ∈ regMap c := by
      rw [← hoff, ← h]
      exact List.mem_of_find?_eq_some hfind
    fin_cases n <;> simpa [regMap] using hmem
  · cases h

/-- A bus write changes no byte the window stores outside the word it names (20_memory.md R44). -/
theorem Gpio.write_storedByte_of_ne (c : Config) (off : Nat) (v : Word) (g : Gpio) (a : Nat) (ha : a / 4 ≠ off) :
    (g.write c off v).storedByte c a = g.storedByte c a := by
  cases hreg : regAt c (a / 4) with
  | fsel m =>
    have hword : (g.write c off v).fsel[m] = g.fsel[m] := by
      unfold Gpio.write
      cases hoff : regAt c off with
      | fsel n =>
        have hne : n.val ≠ m.val := by
          intro hnm
          rw [eq_offFsel_of_regAt c _ m hreg, eq_offFsel_of_regAt c off n hoff, Fin.ext hnm] at ha
          exact ha rfl
        exact Vector.getElem_set_ne n.isLt m.isLt hne
      | set k => rfl
      | clr k => rfl
      | untracked => rfl
    simp only [Gpio.storedByte, hreg, hword]
  | set k => simp only [Gpio.storedByte, hreg]
  | clr k => simp only [Gpio.storedByte, hreg]
  | untracked => simp only [Gpio.storedByte, hreg]

/-- The bytes of a function-select register, little-endian (20_memory.md R44). -/
theorem Gpio.storedByte_fsel (c : Config) (hw : configWf c = true) (g : Gpio) (n : Fin 6) (b : Nat) (hb : b < 4) :
    g.storedByte c (4 * c.offFsel[n] + b) = some (g.fsel[n].extractLsb' (8 * b) 8) := by
  have hdiv : (4 * c.offFsel[n] + b) / 4 = c.offFsel[n] := by omega
  have hmod : (4 * c.offFsel[n] + b) % 4 = b := by omega
  simp only [Gpio.storedByte, hdiv, hmod, offFsel_lt c hw n, if_true, regAt_offFsel c hw n]

/-- Settles O26: the one write of a WRF stores nothing outside its word, and a WRF outside the window changes no part of
the peripheral. -/
theorem wrfStoresOnlyItsWord : Obligations.WrfStoresOnlyItsWord := by
  intro off w p v s t ha hr hg he
  refine ⟨fun a hne => ?_, ?_⟩
  · obtain ⟨t', he', _, _, hcfg, hin, hout⟩ := wrfMergesOneField off w p v s hr hg
    obtain rfl : t = t' := Host.Outcome.next.inj (he.symm.trans he')
    obtain hoff | hoff := Nat.lt_or_ge off s.cfg.blockWords
    · obtain ⟨r, _, halone⟩ := hin hoff
      obtain ⟨_, hgpio, _⟩ := halone ha.2
      rw [hcfg, hgpio]
      exact Gpio.write_storedByte_of_ne s.cfg off _ s.gpio a hne
    · rw [hout hoff]
      rfl
  · rintro n rfl
    obtain ⟨t', he', _, hcfg, hgpio⟩ := wrf_fsel s n w p v hr ha hg
    obtain rfl : t = t' := Host.Outcome.next.inj (he.symm.trans he')
    have hword : t.gpio.fsel[n] = merge (s.readValue s.cfg.offFsel[n]) v w p := by rw [hgpio]; simp
    refine ⟨hword, by rw [hgpio], fun b hb => ?_⟩
    rw [hcfg, Gpio.storedByte_fsel s.cfg ha.1 t.gpio n b hb, hword]

end Sys2Proof.Machine
end

section
/-! What every command does once it is admitted: it faults at the first check that applies, or it runs its body between its
acceptance and its response (60_exceptions.md R136, R138); and the pin commands that make no bus access. -/

namespace Sys2Proof.Machine

open Sys2Proof

/-! ### Commands and their checks -/

/-- The state after a command that gets through its checks: its body, between its acceptance and its response
(60_exceptions.md R136). -/
def State.ran (s : State) (i : Instr) : State := (commandBody i s.accept).respond .ok

/-- A ready block admits every command (60_exceptions.md R140). -/
theorem Ready.admitted {s : State} (hr : Ready s) (i : Instr) : Admitted i s := ⟨.inl hr.1, hr.2⟩

/-- An admitted command that no check stops runs. -/
theorem exec_runs (i : Instr) (s : State) (ha : Admitted i s) (hc : firstFault (commandChecks i s) = none) :
    exec i s = .next (s.ran i) := by
  rw [exec_eq_frame, frame_runs i s _ _ ha hc, State.ran]

/-- An admitted command faults at its first check that applies. -/
theorem exec_faults (i : Instr) (s : State) (c : FaultCode) (ha : Admitted i s)
    (hc : firstFault (commandChecks i s) = some c) : exec i s = .next (s.faulted c (encodeWord0 i)) := by
  rw [exec_eq_frame, frame_faults i s _ _ c ha hc]

/-- What a command does to the slots does not depend on `S.busy`, and its response covers that of the state before it. -/
theorem blockEffect_busy (i : Instr) (c : Config) (b : Block) (busy : Bool) :
    (blockEffect i c { b with busy := busy }).completed 0 = (blockEffect i c b).completed 0 := by
  cases i with
  | pmov dst src => by_cases h : dst = src <;> simp only [blockEffect, h, if_true, if_false] <;> rfl
  | wrf _ _ _ _ | rdf _ _ _ | pclm _ _ | prel _ | pset _ | pclr _ | ppls _ => rfl
  | srinit | srwr _ | srfl | srtd | mxinit | mxsw | mxtd => rfl

/-- The block after a command that runs: its effect on the block, and the response `OK` with no data. -/
theorem ran_blk (i : Instr) (s : State) (hi : ∀ off w p, i ≠ .rdf off w p) :
    (s.ran i).blk = (blockEffect i s.cfg s.blk).completed 0 := by
  rw [State.ran, State.respond_blk, commandBody_blk i s.accept hi]
  exact blockEffect_busy i s.cfg s.blk true

/-! ### The checks of the pin commands -/

theorem outOfRange_of_lt {i : Nat} (h : i < nSlots) : outOfRange i = false := decide_eq_false (Nat.not_le.mpr h)

theorem outOfRange_of_le {i : Nat} (h : nSlots ≤ i) : outOfRange i = true := decide_eq_true h

/-- When an id is held by a slot other than `i` (41_pin.md R94). -/
theorem heldElsewhere_iff (b : Block) (i id : Nat) :
    heldElsewhere b i id = true ↔ id ≤ 53 ∧ ∃ j, j < nSlots ∧ j ≠ i ∧ b.slot j = pinOf id := by
  simp only [heldElsewhere, Bool.and_eq_true, decide_eq_true_eq, List.any_eq_true, List.mem_range]

/-- A claim into an empty slot of the table is checked for another owner of its pin only (41_pin.md R94). -/
theorem pclmChecks_empty (slot id : Nat) (s : State) (hs : slot < nSlots) (he : s.blk.slot slot = .empty) :
    firstFault (pclmChecks slot id s) = firstFault [(heldElsewhere s.blk slot id, .doubleClaim)] := by
  simp only [pclmChecks, outOfRange_of_lt hs, he, ne_eq, not_true_eq_false, decide_false, firstFault_false]

/-- A move within the table is checked for a busy destination only (41_pin.md R99). -/
theorem pmovChecks_inRange (dst src : Nat) (s : State) (hd : dst < nSlots) (hs : src < nSlots) :
    firstFault (pmovChecks dst src s) =
      firstFault [(decide (dst ≠ src ∧ s.blk.slot dst ≠ .empty), .slotBusy)] := by
  simp only [pmovChecks, outOfRange_of_lt hd, outOfRange_of_lt hs, Bool.or_self, firstFault_false]

/-- A command on one slot of the table has nothing to check (41_pin.md R95 to R98). -/
theorem slotCheck_inRange {slot : Nat} (hs : slot < nSlots) : firstFault (slotCheck slot) = none := by
  rw [slotCheck, outOfRange_of_lt hs, firstFault_false, firstFault_nil]

/-- Settles O34: which check of each command is the first to apply. -/
theorem pinCommandsFaultInOrder : Obligations.PinCommandsFaultInOrder := by
  intro slot src id s hr
  refine ⟨fun hout i hi => ?_, fun hs hlive => ⟨?_, fun hsrc hne => ?_⟩, fun hs he hid hheld => ?_⟩
  · have hrange := outOfRange_of_le hout
    refine exec_faults i s .slotRange (hr.admitted i) ?_
    rcases hi with rfl | rfl | rfl | rfl | rfl | rfl | rfl
    all_goals simp [commandChecks, pclmChecks, slotCheck, pmovChecks, hrange]
  · refine exec_faults _ s .slotBusy (hr.admitted _) ?_
    simp [commandChecks, pclmChecks, outOfRange_of_lt hs, hlive]
  · refine exec_faults _ s .slotBusy (hr.admitted _) ?_
    rw [commandChecks, pmovChecks_inRange slot src s hs hsrc, decide_eq_true ⟨hne.symm, hlive⟩, firstFault_true]
  · obtain ⟨j, hj, hpin⟩ := hheld
    have hjs : j ≠ slot := by
      rintro rfl
      rw [he] at hpin
      cases hpin
    refine exec_faults _ s .doubleClaim (hr.admitted _) ?_
    rw [commandChecks, pclmChecks_empty slot id s hs he,
      (heldElsewhere_iff s.blk slot id).mpr ⟨hid, j, hj, hjs, hpin⟩, firstFault_true]

/-! ### The move -/

/-- Settles O33: the body of PMOV writes two slots and nothing else. -/
theorem pmovMovesTheHandle : Obligations.PmovMovesTheHandle := by
  intro dst src s hr hdst hsrc
  refine ⟨?_, fun hne hempty => ?_⟩
  · rintro rfl
    have hfirst : firstFault (pmovChecks dst dst s) = none := by simp [pmovChecks_inRange dst dst s hdst hdst]
    rw [exec_runs (.pmov dst dst) s (hr.admitted _) hfirst]
    have hbody : commandBody (.pmov dst dst) s.accept = s.accept.setRspData 0 := if_pos rfl
    rw [State.ran, hbody]
    rfl
  · have hfirst : firstFault (pmovChecks dst src s) = none := by simp [pmovChecks_inRange dst src s hdst hsrc, hempty]
    have hrun := exec_runs (.pmov dst src) s (hr.admitted _) hfirst
    have hbody : commandBody (.pmov dst src) s.accept =
        ((s.accept.setSlot dst (s.blk.slot src)).setSlot src .empty).setRspData 0 := if_neg hne
    have hslot : ∀ j, (s.ran (.pmov dst src)).blk.slot j =
        ((s.blk.setSlot dst (s.blk.slot src)).setSlot src .empty).slot j := fun j => by
      rw [State.ran, hbody]
      rfl
    refine ⟨_, hrun, ?_, ?_, fun j hjd hjs => ?_, ?_⟩
    · rw [hslot, Block.setSlot_slot_ne _ _ _ _ hne.symm, Block.setSlot_slot_self _ _ _ hdst]
    · rw [hslot, Block.setSlot_slot_self _ _ _ hsrc]
    · rw [hslot, Block.setSlot_slot_ne _ _ _ _ hjs.symm, Block.setSlot_slot_ne _ _ _ _ hjd.symm]
    · rw [State.ran, hbody]
      rfl

end Sys2Proof.Machine
end

section
/-! A pin id's two resolutions (30_encoding.md R59 to R66), and the commands that raise, lower and pulse the pin in a slot
(41_pin.md R96 to R98). -/

namespace Sys2Proof.Machine

open Sys2Proof

/-! ### Resolution -/

/-- Where a valid id's set and clear bit stands (30_encoding.md R64 to R66). -/
theorem resolveLevel_valid (id : Nat) (hid : id ≤ 53) :
    resolveLevel id = some (Fin.ofNat 2 (id / 32), BitVec.ofNat 32 (2 ^ (id % 32))) := if_pos hid

/-- An id from 54 on has no function field (30_encoding.md R59). -/
theorem resolveFsel_invalid (id : Nat) (hid : ¬ id ≤ 53) : resolveFsel id = none := if_neg hid

/-- An id from 54 on has no set and clear bit (30_encoding.md R64). -/
theorem resolveLevel_invalid (id : Nat) (hid : ¬ id ≤ 53) : resolveLevel id = none := if_neg hid

/-- Only a valid id resolves (30_encoding.md R64). -/
theorem valid_of_resolveLevel {id : Nat} {k : Fin 2} {bit : Word} (h : resolveLevel id = some (k, bit)) : id ≤ 53 := by
  by_contra hid
  rw [resolveLevel_invalid id hid] at h
  cases h

theorem pulseIO_invalid (id : Nat) (s : State) (hid : ¬ id ≤ 53) : pulseIO id s = s := by
  rw [pulseIO, setIO_invalid id s hid, clearIO_invalid id s hid]

/-- Settles O21: each resolution is an `if` on the id, and the procedures do nothing without an address. -/
theorem pinResolution : Obligations.PinResolution := by
  refine ⟨fun id hid => ⟨resolveFsel_valid id hid, _, _, resolveLevel_valid id hid, ?_, fun j => ?_⟩, fun id hge => ?_⟩
  · simp only [Fin.ofNat]
    split <;> omega
  · rw [BitVec.getLsbD_ofNat, Nat.testBit_two_pow]
    by_cases hj : id % 32 = j
    · subst hj
      simp [Nat.mod_lt]
    · simp [hj, Ne.symm hj]
  · have hid : ¬ id ≤ 53 := Nat.not_le.mpr hge
    exact ⟨resolveFsel_invalid id hid, resolveLevel_invalid id hid, fun s =>
      ⟨setIO_invalid id s hid, clearIO_invalid id s hid, pulseIO_invalid id s hid,
        programFunction_invalid id fnOutput s hid, programFunction_invalid id fnInput s hid⟩⟩

/-! ### Set, clear and pulse -/

/-- A slot procedure does nothing on an empty slot, nor on an inert one when it does nothing for an invalid id (41_pin.md
R93, R100). -/
theorem onSlot_ineffective (i : Nat) (io : Nat → State → State) (s : State) (h : (s.blk.slot i).effective = false)
    (hio : ∀ id, ¬ id ≤ 53 → io id s = s) : onSlot i io s = s := by
  unfold onSlot
  cases hslot : s.blk.slot i with
  | empty => rfl
  | pin id => exact hio id.val (by simpa [hslot, Slot.effective] using h)

/-- The slot procedures on a slot that holds a pin are the procedures on that pin (41_pin.md R93). -/
theorem onSlot_of_pin (i : Nat) (io : Nat → State → State) (s : State) (id : Fin 64) (h : s.blk.slot i = .pin id) :
    onSlot i io s = io id.val s := by
  rw [onSlot, h]

/-- A latch after a pulse (41_pin.md R92). -/
theorem pulseIO_out (id : Nat) (s : State) (ha : Alone s) (hid : id ≤ 53) (j : Nat) (hj : j ≤ 53) :
    (pulseIO id s).gpio.out.getLsbD j = (s.gpio.out.getLsbD j && !decide (j = id)) := by
  obtain ⟨hw, hm⟩ := ha
  rw [pulseIO, clearIO_gpio id (setIO id s) (by simpa using hw) (by simpa using hm) hid, out_clear _ _ _ hj,
    setIO_gpio id s hw hm hid, out_set _ _ _ hj]
  by_cases hji : j = id <;> simp [hji]

theorem pulseIO_same (id : Nat) (s : State) (ha : Alone s) (hid : id ≤ 53) : SameButLatches s (pulseIO id s) :=
  (setIO_same id s ha hid).trans (clearIO_same id _ (by simpa [Alone] using ha) hid)

/-- `SetIO` of a valid pin, when there is no other master, is its one write and the event of it (41_pin.md R90). -/
theorem setIO_alone (id : Nat) (s : State) (ha : Alone s) (k : Fin 2) (bit : Word)
    (hres : resolveLevel id = some (k, bit)) :
    setIO id s = (writeEffect s.cfg.offSet[k] bit s).record (.write s.cfg.offSet[k] bit) := by
  simp only [setIO, hres, regWrite, offSet_lt s.cfg ha.1 k, if_true, memWrite_alone _ _ _ ha.2]

/-- `ClearIO` of a valid pin, when there is no other master, is its one write and the event of it (41_pin.md R91). -/
theorem clearIO_alone (id : Nat) (s : State) (ha : Alone s) (k : Fin 2) (bit : Word)
    (hres : resolveLevel id = some (k, bit)) :
    clearIO id s = (writeEffect s.cfg.offClr[k] bit s).record (.write s.cfg.offClr[k] bit) := by
  simp only [clearIO, hres, regWrite, offClr_lt s.cfg ha.1 k, if_true, memWrite_alone _ _ _ ha.2]

/-- The circuit after a pulse, when there is no other master, has seen its two writes (41_pin.md R92). -/
theorem pulseIO_ext (id : Nat) (s : State) (ha : Alone s) (k : Fin 2) (bit : Word)
    (hres : resolveLevel id = some (k, bit)) :
    (pulseIO id s).ext = (writeEffect s.cfg.offClr[k] bit (writeEffect s.cfg.offSet[k] bit s)).ext := by
  rw [pulseIO, clearIO_alone id _ (by simpa [Alone] using ha) k bit hres, setIO_alone id s ha k bit hres,
    State.record_ext, State.record_cfg, writeEffect_cfg]
  refine (writeEffect_ext_congr _ bit (writeEffect s.cfg.offSet[k] bit s) _ ?_ ?_ ?_ ?_).1
  · exact State.record_cfg _ _
  · exact State.record_gpio _ _
  · exact State.record_ext _ _
  · exact State.record_draws _ _

/-- The events of the three level procedures on a valid pin (41_pin.md R90 to R92). -/
theorem levelIO_traces (id : Nat) (s : State) (hw : configWf s.cfg = true) (k : Fin 2) (bit : Word)
    (hres : resolveLevel id = some (k, bit)) :
    (setIO id s).trace = s.trace ++ [.write s.cfg.offSet[k] bit] ∧
    (clearIO id s).trace = s.trace ++ [.write s.cfg.offClr[k] bit] ∧
    (pulseIO id s).trace = s.trace ++ [.write s.cfg.offSet[k] bit, .write s.cfg.offClr[k] bit] := by
  have hset : (setIO id s).trace = s.trace ++ [.write s.cfg.offSet[k] bit] := by
    rw [setIO_trace id s hw, setEvents, hres]
  have hclr : ∀ u : State, u.cfg = s.cfg → (clearIO id u).trace = u.trace ++ [.write s.cfg.offClr[k] bit] :=
    fun u hu => by rw [clearIO_trace id u (by rw [hu]; exact hw), clearEvents, hres, hu]
  refine ⟨hset, hclr s rfl, ?_⟩
  rw [pulseIO, hclr _ (setIO_cfg id s), hset, List.append_assoc]
  rfl

/-- The circuit sees a write of an accepted command as it sees one before the acceptance. -/
theorem writeEffect_accept (off : Nat) (v : Word) (s : State) :
    (writeEffect off v s.accept).ext = (writeEffect off v s).ext ∧
    (writeEffect off v s.accept).draws = (writeEffect off v s).draws :=
  writeEffect_ext_congr off v s s.accept rfl rfl rfl rfl

/-! ### PSET, PCLR and PPLS -/

/-- A command on one slot of the table runs when it is admitted (41_pin.md R95 to R98). -/
theorem exec_slotCommand (i : Instr) (slot : Nat) (s : State) (ha : Admitted i s) (hi : commandChecks i s = slotCheck slot)
    (hs : slot < nSlots) : exec i s = .next (s.ran i) :=
  exec_runs i s ha (by rw [hi, slotCheck_inRange hs])

/-- Settles O32: each command is its slot procedure, which on an effective slot is the pin's one write or two, and nothing
otherwise. -/
theorem levelCommandsDriveThePin : Obligations.LevelCommandsDriveThePin := by
  intro slot s hr hw hs
  refine ⟨_, _, _, exec_slotCommand (.pset slot) slot s (hr.admitted _) rfl hs,
    exec_slotCommand (.pclr slot) slot s (hr.admitted _) rfl hs,
    exec_slotCommand (.ppls slot) slot s (hr.admitted _) rfl hs, fun hin => ?_, fun id k bit hslot hres => ?_, ?_⟩
  · simp only [State.ran, commandBody, slotSet, slotClear, slotPulse]
    rw [onSlot_ineffective slot setIO s.accept hin fun id => setIO_invalid id _,
      onSlot_ineffective slot clearIO s.accept hin fun id => clearIO_invalid id _,
      onSlot_ineffective slot pulseIO s.accept hin fun id => pulseIO_invalid id _]
    exact ⟨rfl, rfl, rfl⟩
  · have hid := valid_of_resolveLevel hres
    obtain ⟨htset, htclr, htpls⟩ := levelIO_traces id.val s.accept hw k bit hres
    simp only [State.ran, commandBody, slotSet, slotClear, slotPulse, onSlot_of_pin slot _ s.accept id hslot,
      State.respond_trace, State.setRspData_trace, State.respond_gpio, State.setRspData_gpio, State.respond_ext,
      State.setRspData_ext]
    refine ⟨htset, htclr, htpls, fun hm => ?_⟩
    have ha : Alone s.accept := ⟨hw, hm⟩
    obtain ⟨_, _, _, hfset⟩ := setIO_same id.val s.accept ha hid
    obtain ⟨_, _, _, hfclr⟩ := clearIO_same id.val s.accept ha hid
    obtain ⟨_, _, _, hfpls⟩ := pulseIO_same id.val s.accept ha hid
    refine ⟨hfset, hfclr, hfpls, fun j hj => ⟨?_, ?_, pulseIO_out id.val s.accept ha hid j hj⟩, ?_, ?_, ?_⟩
    · rw [setIO_gpio id.val s.accept hw hm hid]
      exact out_set _ _ j hj
    · rw [clearIO_gpio id.val s.accept hw hm hid]
      exact out_clear _ _ j hj
    · rw [setIO_alone id.val s.accept ha k bit hres]
      exact (writeEffect_accept _ bit s).1
    · rw [clearIO_alone id.val s.accept ha k bit hres]
      exact (writeEffect_accept _ bit s).1
    · rw [pulseIO_ext id.val s.accept ha k bit hres]
      obtain ⟨hext, hdraws⟩ := writeEffect_accept s.cfg.offSet[k] bit s
      exact (writeEffect_ext_congr _ bit _ _ (by simp) (by simp) hext hdraws).1
  · rintro t (rfl | rfl | rfl)
    · exact ⟨ran_blk _ s (by simp), slotSet_host slot s.accept, slotSet_cfg slot s.accept⟩
    · exact ⟨ran_blk _ s (by simp), slotClear_host slot s.accept, slotClear_cfg slot s.accept⟩
    · exact ⟨ran_blk _ s (by simp), slotPulse_host slot s.accept, slotPulse_cfg slot s.accept⟩

end Sys2Proof.Machine
end

section
/-! A claim and a release of a pin (41_pin.md R94, R95), and what is left of a claim once it is released, with and without
a move between (R101, R102). -/

namespace Sys2Proof.Machine

open Sys2Proof

/-! ### PCLM -/

/-- Settles O30: the command fills the slot and programs the pin's function to output. -/
theorem pclmClaimsThePin : Obligations.PclmClaimsThePin := by
  intro slot id s hr hw hs hempty hfree
  have hheld : heldElsewhere s.blk slot id = false := by
    rw [Bool.eq_false_iff, ne_eq, heldElsewhere_iff]
    rintro ⟨hid, j, hj, hne, hpin⟩
    exact hfree hid j hj hne hpin
  have hfirst : firstFault (pclmChecks slot id s) = none := by
    rw [pclmChecks_empty slot id s hs hempty, hheld, firstFault_false, firstFault_nil]
  refine ⟨_, exec_runs (.pclm slot id) s (hr.admitted _) hfirst, ran_blk _ s (by simp), claimIO_host id _,
    claimIO_cfg id _, fun n hid hn => ?_, fun hid => ?_⟩
  · exact prog_facts id fnOutput s (s.accept.setSlot slot (pinOf id)) hw hid n hn rfl rfl rfl rfl rfl
  · rw [State.ran, commandBody, pclmBody, claimIO, programFunction_invalid id fnOutput _ (Nat.not_le.mpr hid)]
    exact ⟨rfl, rfl, rfl⟩

/-! ### PREL -/

/-- PREL on an empty slot makes no access and writes no slot (41_pin.md R95). -/
theorem prelBody_empty (slot : Nat) (s : State) (h : s.blk.slot slot = .empty) : prelBody slot s = s.setRspData 0 := by
  simp only [prelBody, h]

/-- PREL on a live slot releases its pin and empties the slot (41_pin.md R95). -/
theorem prelBody_pin (slot : Nat) (s : State) (id : Fin 64) (h : s.blk.slot slot = .pin id) :
    prelBody slot s = ((releaseIO id.val s).setSlot slot .empty).setRspData 0 := by
  simp only [prelBody, h]

theorem prelBody_host (slot : Nat) (s : State) : (prelBody slot s).host = s.host := by
  cases h : s.blk.slot slot with
  | empty => rw [prelBody_empty slot s h, State.setRspData_host]
  | pin id => rw [prelBody_pin slot s id h, State.setRspData_host, State.setSlot_host, releaseIO_host]

theorem prelBody_cfg (slot : Nat) (s : State) : (prelBody slot s).cfg = s.cfg := by
  cases h : s.blk.slot slot with
  | empty => rw [prelBody_empty slot s h, State.setRspData_cfg]
  | pin id => rw [prelBody_pin slot s id h, State.setRspData_cfg, State.setSlot_cfg, releaseIO_cfg]

/-- Settles O31: the command programs the pin's function to input and empties the slot. -/
theorem prelReleasesThePin : Obligations.PrelReleasesThePin := by
  intro slot s ha hw hs
  refine ⟨s.ran (.prel slot), prel_runs slot s ha hs, ran_blk _ s (by simp), prelBody_host slot s.accept,
    prelBody_cfg slot s.accept, fun hempty => ?_, fun id hslot hid => ?_, fun id n hslot hid hn => ?_⟩
  · rw [State.ran, commandBody, prelBody_empty slot s.accept hempty]
    rfl
  · have hbody : releaseIO id.val s.accept = s.accept :=
      programFunction_invalid id.val fnInput s.accept (Nat.not_le.mpr hid)
    rw [State.ran, commandBody, prelBody_pin slot s.accept id hslot, hbody]
    exact ⟨rfl, rfl, rfl⟩
  · rw [State.ran, commandBody, prelBody_pin slot s.accept id hslot]
    exact prog_facts id.val fnInput s s.accept hw hid n hn rfl rfl rfl rfl rfl

/-! ### One pin's function programmed, when there is no other master -/

/-- The function-select registers of `t` hold the bits of `s` outside the field of pin `id`, wherever a read of the pin's
register returns what is stored (40_register_writer.md R84, 10_state.md R29). -/
def KeepsOtherBits (id : Nat) (s t : State) : Prop :=
  ∀ (m : Fin 6) (i : Nat), i < 32 → (m.val ≠ id / 10 ∨ ¬ InField 3 (id % 10) i) →
    (m.val ≠ id / 10 ∨ s.cfg.reservedRead = .stored ∨ (functionMask m).getLsbD i = true) →
    t.gpio.fsel[m].getLsbD i = s.gpio.fsel[m].getLsbD i

/-- From `s` to `t` the function of pin `id` was programmed to `fn`, by two accesses and with nothing else of the peripheral
changed that a read and a write back keep (41_pin.md R88, R89). -/
structure Programmed (id : Nat) (fn : BitVec 3) (s t : State) : Prop where
  accesses : t.trace.length = 2
  function : t.gpio.function id = fn
  out : t.gpio.out = s.gpio.out
  kept : KeepsOtherBits id s t

/-- Storing the merged word in the pin's register keeps every other bit that the read returned as stored. -/
theorem keepsOtherBits_of_merge {id : Nat} {s t : State} {n : Fin 6} (hw : configWf s.cfg = true) (hn : n.val = id / 10)
    (v : Word) (hother : ∀ m : Fin 6, m ≠ n → t.gpio.fsel[m] = s.gpio.fsel[m])
    (hreg : t.gpio.fsel[n] = merge (s.readValue s.cfg.offFsel[n]) v 3 (id % 10)) : KeepsOtherBits id s t := by
  intro m i hi hout hstored
  by_cases hmn : m = n
  · subst hmn
    have hfield := hout.resolve_left (not_not.mpr hn)
    have hread := hstored.resolve_left (not_not.mpr hn)
    rw [hreg, merge_getLsbD _ v 3 _ i hi, if_neg hfield]
    exact Gpio.read_fsel_getLsbD s.cfg hw s.gpio _ m i hread.symm
  · rw [hother m hmn]

/-- PCLM of a valid, unheld pin into an empty slot, when there is no other master (41_pin.md R94). -/
theorem pclm_alone (slot id : Nat) (s : State) (hr : Ready s) (ha : Alone s) (hs : slot < nSlots) (hid : id ≤ 53)
    (hempty : s.blk.slot slot = .empty) (hfree : ∀ j, j < nSlots → s.blk.slot j ≠ pinOf id) :
    ∃ t, exec (.pclm slot id) s = .next t ∧ t.blk = (s.blk.setSlot slot (pinOf id)).completed 0 ∧ Ready t ∧
      t.cfg = s.cfg ∧ Programmed id fnOutput s t := by
  obtain ⟨hw, hm⟩ := ha
  obtain ⟨t, he, hblk, hhost, hcfg, hvalid, _⟩ :=
    pclmClaimsThePin slot id s hr hw hs hempty fun _ j hj _ => hfree j hj
  obtain ⟨n, hn, _⟩ := resolveFsel_valid id hid
  obtain ⟨r, htrace, halone⟩ := hvalid n hid hn
  obtain ⟨rfl, hout, hfun, hother, hreg, _⟩ := halone hm
  have hready : Ready t := ⟨by rw [hblk]; exact hr.1, by rw [hhost]; exact hr.2⟩
  exact ⟨t, he, hblk, hready, hcfg, by rw [htrace]; rfl, by rw [hfun id hid, if_pos rfl], hout,
    keepsOtherBits_of_merge hw hn 1 hother hreg⟩

/-- PREL of a slot that holds a valid pin, when there is no other master (41_pin.md R95). -/
theorem prel_alone (slot id : Nat) (s : State) (hr : Admitted (.prel slot) s) (ha : Alone s) (hs : slot < nSlots)
    (hid : id ≤ 53) (hslot : s.blk.slot slot = pinOf id) :
    ∃ t, exec (.prel slot) s = .next t ∧ t.blk = (s.blk.setSlot slot .empty).completed 0 ∧ Programmed id fnInput s t := by
  obtain ⟨hw, hm⟩ := ha
  obtain ⟨t, he, hblk, _, _, _, _, hvalid⟩ := prelReleasesThePin slot s hr hw hs
  obtain ⟨n, hn, _⟩ := resolveFsel_valid id hid
  have hval := pinOf_val id hid
  obtain ⟨r, htrace, halone⟩ := hvalid (Fin.ofNat 64 id) n hslot (hval.le.trans hid) (by rw [hval]; exact hn)
  obtain ⟨rfl, hout, hfun, hother, hreg, _⟩ := halone hm
  rw [hval] at hreg hfun
  exact ⟨t, he, hblk, by rw [htrace]; rfl, by rw [hfun id hid, if_pos rfl], hout,
    keepsOtherBits_of_merge hw hn 0 hother hreg⟩

/-! ### Claim, then release -/

/-- A slot written twice holds what was written last. -/
theorem Block.setSlot_setSlot (b : Block) (i : Nat) (v w : Slot) : (b.setSlot i v).setSlot i w = b.setSlot i w := by
  have hslots : (b.slots.setIfInBounds i v).setIfInBounds i w = b.slots.setIfInBounds i w := by
    apply Vector.ext
    intro k hk
    simp only [Vector.getElem_setIfInBounds]
    split <;> rfl
  simp only [Block.setSlot, hslots]

/-- A claim into an empty slot and its release leave the block as one completed command does (10_state.md R16). -/
theorem Block.claim_release (b : Block) (slot : Nat) (v : Slot) (h : b.slot slot = .empty) :
    (((b.setSlot slot v).completed 0).setSlot slot .empty).completed 0 = b.completed 0 := by
  calc (((b.setSlot slot v).completed 0).setSlot slot .empty).completed 0
      = ((b.setSlot slot v).setSlot slot .empty).completed 0 := rfl
    _ = b.completed 0 := by rw [Block.setSlot_setSlot, setSlot_empty b slot h]

/-- Settles O35: the claim and the release each write the pin's field and keep the other bits. -/
theorem claimThenReleaseLeavesInput : Obligations.ClaimThenReleaseLeavesInput := by
  intro slot id s hr ha hs hid hempty hfree
  obtain ⟨t, het, hblk, hready, hcfg, hclaim⟩ := pclm_alone slot id s hr ha hs hid hempty hfree
  have hslot : t.blk.slot slot = pinOf id := by
    rw [hblk]
    exact Block.setSlot_slot_self s.blk slot (pinOf id) hs
  obtain ⟨u, heu, hublk, hrelease⟩ := prel_alone slot id t (hready.admitted _) (by rw [Alone, hcfg]; exact ha) hs
    hid hslot
  refine ⟨u, execAll_pair het heu, hrelease.function, fun m i hi hout hstored => ?_,
    hrelease.out.trans hclaim.out, ?_⟩
  · have hfield : m.val ≠ id / 10 ∨ ¬ InField 3 (id % 10) i := hout.imp_right fun h => by omega
    rw [hrelease.kept m i hi hfield (by rw [hcfg]; exact hstored), hclaim.kept m i hi hfield hstored]
  · rw [hublk, hblk, Block.claim_release s.blk slot _ hempty]

/-! ### Claim, move, then release -/

/-- Settles O36: after the move the claimed slot is empty, so that its release does nothing, and the pin is in the other. -/
theorem movedFromReleaseDoesNothing : Obligations.MovedFromReleaseDoesNothing := by
  intro a b id s hr ha hsa hsb hab hid hea heb hfree
  obtain ⟨t1, he1, hblk1, hr1, hcfg1, hclaim⟩ := pclm_alone a id s hr ha hsa hid hea hfree
  have hslot1 : ∀ j, t1.blk.slot j = (s.blk.setSlot a (pinOf id)).slot j := fun j => by rw [hblk1]; rfl
  obtain ⟨t2, he2, hb2, ha2, _, ht2⟩ := (pmovMovesTheHandle b a t1 hr1 hsb hsa).2 hab.symm
    (by rw [hslot1, Block.setSlot_slot_ne _ _ _ _ hab, heb])
  have hgpio2 : t2.gpio = t1.gpio := by rw [ht2]
  have hcfg2 : t2.cfg = s.cfg := by rw [ht2]; exact hcfg1
  have hmapped2 : t2.host.mapped = true := by rw [ht2]; exact hr1.2
  rw [hslot1, Block.setSlot_slot_self _ _ _ hsa] at hb2
  obtain ⟨t3, he3, _, _, _, hidle, _⟩ :=
    prelReleasesThePin a t2 ⟨.inr rfl, hmapped2⟩ (by rw [hcfg2]; exact ha.1) hsa
  obtain rfl := hidle ha2
  obtain ⟨t4, he4, hblk4, hrelease⟩ := prel_alone b id t2.completedOnly ⟨.inr rfl, hmapped2⟩
    (by rw [Alone]; exact hcfg2 ▸ ha) hsb hid hb2
  refine ⟨t1, t2, _, t4, he1, he2, he3, he4, hclaim.accesses, by rw [ht2], rfl, hrelease.accesses, hgpio2,
    ?_, hb2, ha2, hrelease.function, ?_⟩
  · exact (congrArg (·.function id) hgpio2).trans hclaim.function
  · rw [hblk4]
    exact Block.setSlot_slot_self _ b .empty hsb

end Sys2Proof.Machine
end

section
/-! The checks of the Shift Register Driver's commands (42_shift_register.md R105, 60_exceptions.md R137, R138), and the
three outcomes of any command (R136). -/

namespace Sys2Proof.Machine

open Sys2Proof

/-! ### The checks -/

/-- When an effective slot holds a valid id (10_state.md R16, R17). -/
theorem Block.holds_iff (b : Block) (id : Nat) (hid : id ≤ 53) :
    b.holds id = true ↔ ∃ j, j < nSlots ∧ b.slot j = pinOf id := by
  refine ⟨fun h => ?_, fun ⟨j, hj, hpin⟩ => ?_⟩
  · by_contra hnone
    have hfalse := holds_false b id fun j hj hpin => hnone ⟨j, hj, hpin⟩
    rw [h] at hfalse
    cases hfalse
  · by_contra hfree
    exact slot_ne_of_holds_false b id hid (Bool.eq_false_of_not_eq_true hfree) j hj hpin

/-- With the handle nothing stops SRWR, SRFL and SRTD (60_exceptions.md R137). -/
theorem srLiveCheck_live (s : State) (hl : s.blk.srLive = true) : firstFault (srLiveCheck s) = none := by
  simp [srLiveCheck, hl]

/-- Without the handle SRWR, SRFL and SRTD are stopped (60_exceptions.md R137). -/
theorem srLiveCheck_gone (s : State) (hl : s.blk.srLive = false) : firstFault (srLiveCheck s) = some .notInit := by
  simp [srLiveCheck, hl]

/-- With the handle SRINIT is stopped before it looks at a slot (60_exceptions.md R138). -/
theorem srinitChecks_live (s : State) (hl : s.blk.srLive = true) :
    firstFault (srinitChecks s) = some .alreadyInit := by
  rw [srinitChecks, hl, firstFault_true]

/-- Without the handle a live slot among its three stops SRINIT (60_exceptions.md R138). -/
theorem srinitChecks_busy (s : State) (hl : s.blk.srLive = false)
    (hlive : s.blk.slot slotSer ≠ .empty ∨ s.blk.slot slotSrclk ≠ .empty ∨ s.blk.slot slotRclk ≠ .empty) :
    firstFault (srinitChecks s) = some .slotBusy := by
  have hany : [slotSer, slotSrclk, slotRclk].any (fun i => decide (s.blk.slot i ≠ .empty)) = true := by
    simpa using hlive
  rw [srinitChecks, hl, firstFault_false, hany, firstFault_true]

/-- Without the handle and with its three slots empty SRINIT looks at the owners of its pins only
(42_shift_register.md R105). -/
theorem srinitChecks_empty (s : State) (hl : s.blk.srLive = false) (hser : s.blk.slot slotSer = .empty)
    (hsrclk : s.blk.slot slotSrclk = .empty) (hrclk : s.blk.slot slotRclk = .empty) :
    firstFault (srinitChecks s) =
      firstFault [([s.cfg.serId, s.cfg.srclkId, s.cfg.rclkId].any s.blk.holds, .doubleClaim)] := by
  have hany : [slotSer, slotSrclk, slotRclk].any (fun i => decide (s.blk.slot i ≠ .empty)) = false := by
    simp [hser, hsrclk, hrclk]
  rw [srinitChecks, hl, firstFault_false, hany, firstFault_false]

/-- Settles O41: which check of each command is the first to apply. -/
theorem shiftRegisterFaultsInOrder : Obligations.ShiftRegisterFaultsInOrder := by
  intro s hr
  refine ⟨fun hl i hi => ?_, fun hl => ?_, fun hl hlive => ?_, fun hl hser hsrclk hrclk hw ⟨j, hj, hpin⟩ => ?_⟩
  · refine exec_faults i s .notInit (hr.admitted i) ?_
    rcases hi with ⟨b, rfl⟩ | rfl | rfl
    all_goals exact srLiveCheck_gone s hl
  · exact exec_faults .srinit s .alreadyInit (hr.admitted _) (srinitChecks_live s hl)
  · exact exec_faults .srinit s .slotBusy (hr.admitted _) (srinitChecks_busy s hl hlive)
  · obtain ⟨hv0, hv1, hv2, _⟩ := wiring s.cfg hw
    have hheld : [s.cfg.serId, s.cfg.srclkId, s.cfg.rclkId].any s.blk.holds = true := by
      simp only [List.any_cons, List.any_nil, Bool.or_false, Bool.or_eq_true, Block.holds_iff _ _ hv0,
        Block.holds_iff _ _ hv1, Block.holds_iff _ _ hv2]
      exact hpin.imp (⟨j, hj, ·⟩) (Or.imp (⟨j, hj, ·⟩) (⟨j, hj, ·⟩))
    refine exec_faults .srinit s .doubleClaim (hr.admitted _) ?_
    rw [commandChecks, srinitChecks_empty s hl hser hsrclk hrclk, hheld, firstFault_true]

/-! ### Every outcome of a command -/

/-- Everything a command can do: it is turned away, it faults, or it runs (60_exceptions.md R136). -/
theorem exec_cases (i : Instr) (s t : State) (h : exec i s = .next t) :
    (∃ w, t = s.turnedAway w) ∨ (∃ c w, t = s.faulted c w) ∨ t = s.ran i := by
  rw [exec_eq_frame] at h
  injection h with h
  subst h
  rcases frame_cases i s (commandChecks i s) (commandBody i) with ⟨_, _, e⟩ | ⟨c, e⟩ | ⟨_, _, e⟩
  · exact .inl ⟨_, e⟩
  · exact .inr (.inl ⟨c, _, e⟩)
  · exact .inr (.inr e)

/-- A command that answers `OK` ran (60_exceptions.md R136). -/
theorem ran_of_ok (i : Instr) (s t : State) (h : exec i s = .next t) (hok : t.blk.rspStatus = .ok) : t = s.ran i := by
  rcases exec_cases i s t h with ⟨w, rfl⟩ | ⟨c, w, rfl⟩ | hran
  · cases hok
  · cases hok
  · exact hran

end Sys2Proof.Machine
end

section
/-! SRINIT: a construction lowers the latches of its pins and then makes them outputs (42_shift_register.md R105). -/

namespace Sys2Proof.Machine

open Sys2Proof

/-- `ClearIO` of a valid pin has one event (41_pin.md R91). -/
theorem clearEvents_length (c : Config) (id : Nat) (hid : id ≤ 53) : (clearEvents c id).length = 1 := by
  rw [clearEvents, resolveLevel_valid id hid]
  rfl

/-- The pins of a list lowered and then made outputs, as a construction does (42_shift_register.md R105, 43_digit_mux.md
R113). -/
def construct (ids : List Nat) (s : State) : State := programAll fnOutput ids (clearAll ids s)

theorem construct_keeps (ids : List Nat) (s : State) :
    (construct ids s).cfg = s.cfg ∧ (construct ids s).blk = s.blk ∧ (construct ids s).host = s.host := by
  obtain ⟨hcfg, hblk, hhost⟩ := clearAll_keeps ids s
  obtain ⟨hcfg', hblk', hhost'⟩ := programAll_keeps fnOutput ids (clearAll ids s)
  exact ⟨hcfg'.trans hcfg, hblk'.trans hblk, hhost'.trans hhost⟩

/-- The events of a construction: the clears, then two accesses for each claim. -/
theorem construct_trace (ids : List Nat) (s : State) (hw : configWf s.cfg = true) (hv : ∀ id ∈ ids, id ≤ 53) :
    ∃ claims, (construct ids s).trace = s.trace ++ ids.flatMap (clearEvents s.cfg) ++ claims ∧
      claims.length = 2 * ids.length := by
  obtain ⟨hcfg, _, _⟩ := clearAll_keeps ids s
  obtain ⟨claims, htrace, hlen, _⟩ := programAll_trace fnOutput ids (clearAll ids s) (by rw [hcfg]; exact hw) hv
  exact ⟨claims, by rw [construct, htrace, clearAll_trace ids s hw], hlen⟩

/-- A construction makes exactly its pins outputs and lowers exactly their latches, when there is no other master. -/
theorem construct_gpio (ids : List Nat) (s : State) (ha : Alone s) (hv : ∀ id ∈ ids, id ≤ 53) (j : Nat) (hj : j ≤ 53) :
    (construct ids s).gpio.function j = (if j ∈ ids then fnOutput else s.gpio.function j) ∧
    (construct ids s).gpio.out.getLsbD j = (s.gpio.out.getLsbD j && !decide (j ∈ ids)) := by
  obtain ⟨hcfg, _, _⟩ := clearAll_keeps ids s
  obtain ⟨hfsel, hlow⟩ := clearAll_gpio ids s ha hv
  obtain ⟨hout, hfun⟩ := programAll_gpio fnOutput ids (clearAll ids s) (by rw [Alone, hcfg]; exact ha) hv
  exact ⟨by rw [construct, hfun j hj, function_fsel hfsel], by rw [construct, hout, hlow j hj]⟩

/-- The three pins of the Shift Register Handle, in the order of their slots. -/
def shiftIds (c : Config) : List Nat := [c.serId, c.srclkId, c.rclkId]

theorem shiftIds_valid (c : Config) (hw : configWf c = true) : ∀ id ∈ shiftIds c, id ≤ 53 := by
  obtain ⟨hv0, hv1, hv2, _⟩ := wiring c hw
  simp [shiftIds, hv0, hv1, hv2]

theorem mem_shiftIds (c : Config) (j : Nat) : j ∈ shiftIds c ↔ j = c.serId ∨ j = c.srclkId ∨ j = c.rclkId := by
  simp [shiftIds]

/-- The state from which SRINIT constructs: its slots are filled (42_shift_register.md R105). -/
def State.srFilled (s : State) : State :=
  ((s.setSlot slotSer (pinOf s.cfg.serId)).setSlot slotSrclk (pinOf s.cfg.srclkId)).setSlot slotRclk
    (pinOf s.cfg.rclkId)

/-- SRINIT's peripheral, trace and host are those of the construction of its three pins. -/
theorem ran_srinit (s : State) :
    (s.ran .srinit).gpio = (construct (shiftIds s.cfg) s.accept.srFilled).gpio ∧
    (s.ran .srinit).trace = (construct (shiftIds s.cfg) s.accept.srFilled).trace ∧
    (s.ran .srinit).host = s.host ∧ (s.ran .srinit).cfg = s.cfg := by
  obtain ⟨hcfg, _, hhost⟩ := construct_keeps (shiftIds s.cfg) s.accept.srFilled
  exact ⟨rfl, rfl, hhost, hcfg⟩

/-- What SRINIT does to the functions and the latches when it runs without another master (42_shift_register.md R105). -/
theorem ran_srinit_gpio (s : State) (ha : Alone s) (j : Nat) (hj : j ≤ 53) :
    (s.ran .srinit).gpio.function j = (if j ∈ shiftIds s.cfg then fnOutput else s.gpio.function j) ∧
    (s.ran .srinit).gpio.out.getLsbD j = (s.gpio.out.getLsbD j && !decide (j ∈ shiftIds s.cfg)) := by
  obtain ⟨hgpio, _, _, _⟩ := ran_srinit s
  rw [hgpio]
  exact construct_gpio (shiftIds s.cfg) s.accept.srFilled ha (shiftIds_valid s.cfg ha.1) j hj

/-- Settles O37: none of the checks applies, and the body is the construction of the three pins. -/
theorem srinitConstructsTheHandle : Obligations.SrinitConstructsTheHandle := by
  intro s hr hw hl hser hsrclk hrclk hfree
  have hheld : [s.cfg.serId, s.cfg.srclkId, s.cfg.rclkId].any s.blk.holds = false := by
    simp only [List.any_cons, List.any_nil, holds_false s.blk _ fun j hj => (hfree j hj).1,
      holds_false s.blk _ fun j hj => (hfree j hj).2.1, holds_false s.blk _ fun j hj => (hfree j hj).2.2, Bool.or_false]
  have hfirst : firstFault (commandChecks .srinit s) = none := by
    rw [commandChecks, srinitChecks_empty s hl hser hsrclk hrclk, hheld, firstFault_false, firstFault_nil]
  obtain ⟨_, htrace, hhost, hcfg⟩ := ran_srinit s
  have hv := shiftIds_valid s.cfg hw
  obtain ⟨claims, hconstruct, hlen⟩ := construct_trace (shiftIds s.cfg) s.accept.srFilled hw hv
  have hclears : ((shiftIds s.cfg).flatMap (clearEvents s.cfg)).length = 3 := by
    simp only [shiftIds, List.forall_mem_cons] at hv ⊢
    obtain ⟨hv0, hv1, hv2, _⟩ := hv
    simp [clearEvents_length, hv0, hv1, hv2]
  have hevents : (s.ran .srinit).trace = (shiftIds s.cfg).flatMap (clearEvents s.cfg) ++ claims := htrace.trans hconstruct
  refine ⟨s.ran .srinit, exec_runs .srinit s (hr.admitted _) hfirst, hhost, hcfg, ran_blk _ s (by simp), ?_, ?_,
    fun hm => ?_⟩
  · rw [hevents, List.length_append, hclears, hlen]
    rfl
  · rw [hevents, List.take_left' hclears]
    simp [shiftIds]
  · have hgpio := ran_srinit_gpio s ⟨hw, hm⟩
    simp only [mem_shiftIds] at hgpio
    exact ⟨fun j hj => (hgpio j hj).1, fun j hj => (hgpio j hj).2⟩

end Sys2Proof.Machine
end

section
/-! SRWR and SRFL (42_shift_register.md R106, R107): their events and what they leave alone whatever their slots hold, and
the byte they carry to the device's outputs when the slots hold the driven wired pins (R109, R110). -/

namespace Sys2Proof.Machine

open Sys2Proof

/-! ### The two commands -/

/-- With the handle an admitted SRWR, SRFL or SRTD runs (42_shift_register.md R106 to R108). -/
theorem exec_shiftCommand (i : Instr) (s : State) (ha : Admitted i s) (hi : commandChecks i s = srLiveCheck s)
    (hl : s.blk.srLive = true) : exec i s = .next (s.ran i) :=
  exec_runs i s ha (by rw [hi, srLiveCheck_live s hl])

/-- Settles O38: the command is `ShiftOut` of the byte. -/
theorem srwrShiftsTheByte : Obligations.SrwrShiftsTheByte := by
  intro byte s hr hw hl
  have htrace : (s.ran (.srwr byte)).trace = shiftTrace s.cfg s.blk (BitVec.ofNat 8 byte) :=
    shiftOut_trace (BitVec.ofNat 8 byte) s.accept hw
  refine ⟨s.ran (.srwr byte), exec_shiftCommand _ s (hr.admitted _) rfl hl, ran_blk _ s (by simp),
    shiftOut_host _ s.accept, shiftOut_cfg _ s.accept, htrace, fun hm => ?_⟩
  obtain ⟨hfsel, hout⟩ := shiftOut_frame (BitVec.ofNat 8 byte) s.accept ⟨hw, hm⟩
  refine ⟨hfsel, ?_, hout⟩
  rw [htrace]
  exact shiftOut_replay (BitVec.ofNat 8 byte) s.accept hw hm

/-- Settles O39: the command is a pulse of the latch-clock slot. -/
theorem srflPulsesTheLatchClock : Obligations.SrflPulsesTheLatchClock := by
  intro s hr hw hl
  refine ⟨s.ran .srfl, exec_shiftCommand _ s (hr.admitted _) rfl hl, ran_blk _ s (by simp), latch_host s.accept,
    latch_cfg s.accept, latch_trace s.accept hw, fun hm => ⟨slotPulse_fsel slotRclk s.accept ⟨hw, hm⟩, fun j hj => ?_⟩⟩
  have hpin : (∃ id : Fin 64, s.blk.slot 2 = .pin id ∧ id.val = j) ↔ s.blk.slot 2 = .pin ⟨j, by omega⟩ :=
    ⟨fun ⟨id, hslot, hval⟩ => by subst hval; exact hslot, fun hslot => ⟨_, hslot, rfl⟩⟩
  simp only [hpin]
  exact slotPulse_out slotRclk s.accept ⟨hw, hm⟩ ⟨j, by omega⟩ hj

/-! ### The device between two commands -/

/-- Acceptance and response do not disturb a quiet device. -/
theorem Quiet.accept {s : State} (h : Quiet s) : Quiet s.accept := h.congr rfl (fun _ => rfl) rfl

theorem Quiet.respond {s : State} (h : Quiet s) (w : Word) (r : RspStatus) : Quiet ((s.setRspData w).respond r) :=
  h.congr rfl (fun _ => rfl) rfl

/-- SRWR on a quiet device loads the byte into the storage (42_shift_register.md R106, R109). -/
theorem ran_srwr_quiet (b : Nat) (s : State) (h : Quiet s) :
    Quiet (s.ran (.srwr b)) ∧ (s.ran (.srwr b)).ext =
      { stor := BitVec.ofNat 8 b, lat := s.ext.lat, srclkPrev := false, rclkPrev := false } := by
  obtain ⟨hq, _, hext, _⟩ := shiftOut_quiet (BitVec.ofNat 8 b) s.accept h.accept
  exact ⟨hq.respond 0 .ok, hext⟩

/-- SRFL on a quiet device copies the storage to the outputs, unless the device last saw the latch clock high
(42_shift_register.md R107, R109). -/
theorem ran_srfl_quiet (s : State) (h : Quiet s) :
    Quiet (s.ran .srfl) ∧ (s.ran .srfl).ext =
      { stor := s.ext.stor, lat := if s.ext.rclkPrev then s.ext.lat else s.ext.stor, srclkPrev := false,
        rclkPrev := false } := by
  obtain ⟨hq, _, hext, _⟩ := latch_quiet s.accept h.accept
  exact ⟨hq.respond 0 .ok, hext⟩

/-- Settles O42: SRWR loads the byte and leaves the device quiet, with the latch clock seen low, so that SRFL copies it. -/
theorem byteRoundTrip : Obligations.ByteRoundTrip := by
  intro b s _ hr ha hl hp hc
  obtain ⟨hq, hext⟩ := ran_srwr_quiet b s (quiet_of_clocksLow s ha hp hc)
  have hwrite := exec_shiftCommand (.srwr b) s (hr.admitted _) rfl hl
  have hblk := ran_blk (.srwr b) s (by simp)
  have hhost : (s.ran (.srwr b)).host = s.host := shiftOut_host _ s.accept
  have hready : Ready (s.ran (.srwr b)) := ⟨by rw [hblk]; exact hr.1, by rw [hhost]; exact hr.2⟩
  have hflush := exec_shiftCommand .srfl (s.ran (.srwr b)) (hready.admitted _) rfl (by rw [hblk]; exact hl)
  obtain ⟨hq', hext'⟩ := ran_srfl_quiet (s.ran (.srwr b)) hq
  rw [hext] at hext'
  exact ⟨_, execAll_pair hwrite hflush, by rw [hext'], by rw [hext']; rfl, hq'.clocksLow⟩

/-- Settles O43: what each of the two commands does to a quiet device. -/
theorem writeAndFlushAreSeparate : Obligations.WriteAndFlushAreSeparate := by
  intro b s hr ha hl hp hc
  have hq := quiet_of_clocksLow s ha hp hc
  obtain ⟨_, hwrite⟩ := ran_srwr_quiet b s hq
  obtain ⟨_, hflush⟩ := ran_srfl_quiet s hq
  refine ⟨⟨_, exec_shiftCommand _ s (hr.admitted _) rfl hl, by rw [hwrite], by rw [hwrite]⟩,
    ⟨_, exec_shiftCommand _ s (hr.admitted _) rfl hl, by rw [hflush], fun hlow => ?_⟩⟩
  rw [hflush, hlow]
  rfl

end Sys2Proof.Machine
end

section
/-! A run of releases, as a teardown makes them, and SRTD (42_shift_register.md R108). -/

namespace Sys2Proof.Machine

open Sys2Proof

/-! ### A run of releases -/

/-- Slots released and emptied, in order (42_shift_register.md R108, 43_digit_mux.md R115). -/
def releaseAll (l : List Nat) (s : State) : State := l.foldl (fun t i => releaseSlot i t) s

theorem releaseAll_keeps (l : List Nat) (s : State) :
    (releaseAll l s).cfg = s.cfg ∧ (releaseAll l s).blk = s.blk.vacate l ∧ (releaseAll l s).host = s.host := by
  induction l generalizing s with
  | nil => exact ⟨rfl, rfl, rfl⟩
  | cons i l ih => simpa [releaseAll, Block.vacate] using ih (releaseSlot i s)

/-- Each release reads and writes the register of the pin its slot held, if any (41_pin.md R89, R93). -/
theorem releaseAll_trace (l : List Nat) (s : State) (hw : configWf s.cfg = true) (hd : l.Nodup) :
    ∃ events, List.Forall₂ (fun i e => ReleaseEvents s.cfg (s.blk.slot i) e) l events ∧
      (releaseAll l s).trace = s.trace ++ events.flatten := by
  induction l generalizing s with
  | nil => exact ⟨[], .nil, by simp [releaseAll]⟩
  | cons i l ih =>
    obtain ⟨hi, hd'⟩ := List.nodup_cons.mp hd
    obtain ⟨e, htrace, he⟩ := releaseSlot_trace i s hw
    obtain ⟨events, hevents, htrace'⟩ := ih (releaseSlot i s) (by simpa using hw) hd'
    have hsame : ∀ j ∈ l, ∀ e', ReleaseEvents (releaseSlot i s).cfg ((releaseSlot i s).blk.slot j) e' →
        ReleaseEvents s.cfg (s.blk.slot j) e' := by
      intro j hj e' h
      have hij : i ≠ j := fun hij => hi (hij ▸ hj)
      rwa [releaseSlot_cfg, releaseSlot_blk, Block.setSlot_slot_ne _ _ _ _ hij] at h
    refine ⟨e :: events, .cons he ?_, ?_⟩
    · rw [List.forall₂_iff_zip] at hevents ⊢
      exact ⟨hevents.1, fun h => hsame _ (List.of_mem_zip h).1 _ (hevents.2 h)⟩
    · simp only [releaseAll] at htrace'
      rw [releaseAll, List.foldl_cons, htrace', htrace, List.flatten_cons, List.append_assoc]

/-- A run of releases makes exactly the pins its slots held inputs and touches no latch, when there is no other master. -/
theorem releaseAll_gpio (l : List Nat) (s : State) (ha : Alone s) :
    (releaseAll l s).gpio.out = s.gpio.out ∧
    ∀ j : Fin 64, j.val ≤ 53 → (releaseAll l s).gpio.function j.val =
      if ∃ i ∈ l, s.blk.slot i = .pin j then fnInput else s.gpio.function j.val := by
  induction l generalizing s with
  | nil => exact ⟨rfl, fun j _ => by simp [releaseAll]⟩
  | cons i l ih =>
    obtain ⟨hout, hfun⟩ := releaseSlot_gpio i s ha
    obtain ⟨hout', hfun'⟩ := ih (releaseSlot i s) (by simpa [Alone] using ha)
    simp only [releaseAll] at hout' hfun'
    refine ⟨hout'.trans hout, fun j hj => ?_⟩
    rw [releaseAll, List.foldl_cons, hfun' j hj, hfun j hj, releaseSlot_blk]
    by_cases hi : s.blk.slot i = .pin j
    · simp [hi]
    · have hslot : ∀ k, (s.blk.setSlot i .empty).slot k = .pin j ↔ s.blk.slot k = .pin j := by
        intro k
        by_cases hik : i = k
        · subst hik
          rw [Block.setSlot_slot]
          split <;> simp [hi]
        · rw [Block.setSlot_slot_ne _ _ _ _ hik]
      simp only [hslot, List.exists_mem_cons_iff, hi, false_or, if_false]

/-! ### SRTD -/

/-- The slots SRTD releases, in order (42_shift_register.md R108). -/
def srtdSlots : List Nat := [slotRclk, slotSrclk, slotSer]

theorem srtdBody_eq (s : State) : srtdBody s =
    ((releaseAll srtdSlots (shiftOut 0xFF s)).onBlk (Block.setSrLive false)).setRspData 0 := rfl

/-- SRTD's peripheral, trace, device and host are those of the blank pattern and the three releases. -/
theorem ran_srtd (s : State) :
    (s.ran .srtd).gpio = (releaseAll srtdSlots (shiftOut 0xFF s.accept)).gpio ∧
    (s.ran .srtd).trace = (releaseAll srtdSlots (shiftOut 0xFF s.accept)).trace ∧
    (s.ran .srtd).ext = (releaseAll srtdSlots (shiftOut 0xFF s.accept)).ext ∧
    (s.ran .srtd).host = s.host ∧ (s.ran .srtd).cfg = s.cfg := by
  obtain ⟨hcfg, _, hhost⟩ := releaseAll_keeps srtdSlots (shiftOut 0xFF s.accept)
  rw [shiftOut_host] at hhost
  rw [shiftOut_cfg] at hcfg
  rw [State.ran, commandBody, srtdBody_eq]
  generalize releaseAll srtdSlots (shiftOut 0xFF s.accept) = t at hcfg hhost ⊢
  exact ⟨rfl, rfl, rfl, hhost, hcfg⟩

/-- The events of SRTD: the blank pattern, then the releases of slots 2, 1 and 0 (42_shift_register.md R108). -/
theorem ran_srtd_trace (s : State) (hw : configWf s.cfg = true) :
    ∃ e2 e1 e0, ReleaseEvents s.cfg (s.blk.slot 2) e2 ∧ ReleaseEvents s.cfg (s.blk.slot 1) e1 ∧
      ReleaseEvents s.cfg (s.blk.slot 0) e0 ∧
      (s.ran .srtd).trace = shiftTrace s.cfg s.blk 0xFF ++ e2 ++ e1 ++ e0 := by
  obtain ⟨_, htrace, _⟩ := ran_srtd s
  obtain ⟨events, hevents, hreleases⟩ := releaseAll_trace srtdSlots (shiftOut 0xFF s.accept)
    (by rw [shiftOut_cfg]; exact hw) (by decide)
  have hshift : (shiftOut 0xFF s.accept).trace = shiftTrace s.cfg s.blk 0xFF :=
    shiftOut_trace 0xFF s.accept hw
  simp only [srtdSlots, shiftOut_cfg, shiftOut_blk, List.forall₂_cons_left_iff, List.forall₂_nil_left_iff] at hevents
  obtain ⟨e2, _, h2, ⟨e1, _, h1, ⟨e0, _, h0, rfl, rfl⟩, rfl⟩, rfl⟩ := hevents
  exact ⟨e2, e1, e0, h2, h1, h0, by rw [htrace, hreleases, hshift]; simp⟩

/-- SRTD makes exactly the pins of its slots inputs, and its releases touch no latch, when there is no other master. -/
theorem ran_srtd_gpio (s : State) (ha : Alone s) :
    (s.ran .srtd).gpio.out = (shiftOut 0xFF s.accept).gpio.out ∧
    ∀ j : Fin 64, j.val ≤ 53 → (s.ran .srtd).gpio.function j.val =
      if s.blk.slot 0 = .pin j ∨ s.blk.slot 1 = .pin j ∨ s.blk.slot 2 = .pin j then fnInput
      else s.gpio.function j.val := by
  obtain ⟨hgpio, _⟩ := ran_srtd s
  obtain ⟨hfsel, _⟩ := shiftOut_frame 0xFF s.accept ha
  obtain ⟨hout, hfun⟩ := releaseAll_gpio srtdSlots (shiftOut 0xFF s.accept) (by simpa [Alone] using ha)
  rw [hgpio]
  refine ⟨hout, fun j hj => ?_⟩
  have hslots : (∃ i ∈ srtdSlots, (shiftOut 0xFF s.accept).blk.slot i = .pin j) ↔
      (s.blk.slot 0 = .pin j ∨ s.blk.slot 1 = .pin j ∨ s.blk.slot 2 = .pin j) := by
    simp only [srtdSlots, slotRclk, slotSrclk, slotSer, List.exists_mem_cons_iff, List.not_mem_nil, shiftOut_blk,
      State.accept_blk, Block.busy_slot, false_and, exists_false, or_false]
    exact or_rotate.trans or_left_comm
  rw [hfun j hj, function_fsel hfsel]
  simp only [hslots, State.accept_gpio]

/-- SRTD's three releases, written out (42_shift_register.md R108). -/
theorem releaseAll_srtdSlots (s : State) :
    releaseAll srtdSlots s = releaseSlot slotSer (releaseSlot slotSrclk (releaseSlot slotRclk s)) := rfl

/-- What a quiet device shows after the blank pattern and the three releases: the storage is the blank pattern before
serial-in is released, and has at most a 0 shifted in by that; the output latch is as it was or the blank pattern
(42_shift_register.md R108, 10_state.md R35; log 32). -/
theorem blank_releases_device (s : State) (hq : Quiet s) :
    let B := releaseSlot slotRclk (shiftOut 0xFF s)
    let C := releaseSlot slotSrclk B
    let D := releaseSlot slotSer C
    C.ext.stor = 0xFF ∧ (D.ext.stor = 0xFF ∨ D.ext.stor = 0x7F) ∧ (D.ext.lat = s.ext.lat ∨ D.ext.lat = 0xFF) ∧
    (SawClocksLow B → SawClocksLow C → SawClocksLow D → D.ext.stor = 0xFF ∧ D.ext.lat = s.ext.lat) ∧
    (s.cfg.undrivenLine = .held → D.ext.stor = 0xFF ∧ D.ext.lat = s.ext.lat) := by
  obtain ⟨hqA, _, hext, hout⟩ := shiftOut_quiet 0xFF s hq
  have hheld := srtdBody_device s hq
  rw [srtdBody_eq, State.setRspData_ext, State.onBlk_ext, releaseAll_srtdSlots] at hheld
  have hser : (shiftOut 0xFF s).gpio.out.getLsbD (shiftOut 0xFF s).cfg.serId = true := by
    rw [shiftOut_cfg, hout _ (wiring s.cfg hq.1.1).1, if_pos rfl]
    decide
  have hlat : (shiftOut 0xFF s).ext.lat = s.ext.lat := by rw [hext]
  have hstor : (shiftOut 0xFF s).ext.stor = 0xFF := by rw [hext]
  generalize shiftOut 0xFF s = A at *
  obtain ⟨_, hstorC, hstorD, hlatD, hsaw⟩ := releases_device A hqA hstor hser
  rw [hlat] at hlatD hsaw
  exact ⟨hstorC, hstorD, hlatD, hsaw, hheld⟩

/-- Settles O40: the body is `ShiftOut` of the blank pattern and a run of three releases. -/
theorem srtdDestroysTheHandle : Obligations.SrtdDestroysTheHandle := by
  intro s hr hw hl
  obtain ⟨_, _, hext, hhost, hcfg⟩ := ran_srtd s
  rw [releaseAll_srtdSlots] at hext
  refine ⟨s.ran .srtd, exec_shiftCommand .srtd s hr rfl hl, hhost, hcfg, ran_blk _ s (by simp), ran_srtd_trace s hw,
    fun hm => ?_, hext⟩
  obtain ⟨hout, hfun⟩ := ran_srtd_gpio s ⟨hw, hm⟩
  refine ⟨hfun, ?_, fun hp hc => ?_⟩
  · rw [hout, shiftOut_replay 0xFF s.accept hw hm]
    rfl
  · rw [hext]
    exact blank_releases_device s.accept (quiet_of_clocksLow s ⟨hw, hm⟩ hp hc).accept

end Sys2Proof.Machine
end

section
/-! The two clock latches after the Shift Register Driver's commands: every pulse ends with a clear, so that the latch of its
pin is low after it (42_shift_register.md R111). -/

namespace Sys2Proof.Machine

open Sys2Proof

/-- A low latch of a pin that is not the one in the serial-in slot stays low through a shifted bit: the only other latch
written is the shift clock's, which ends low. -/
theorem shiftBit_low (b : Bool) (s : State) (ha : Alone s) (j : Fin 64) (hj : j.val ≤ 53)
    (hser : s.blk.slot slotSer ≠ .pin j) (hlow : s.gpio.out.getLsbD j.val = false) :
    (shiftBit b s).gpio.out.getLsbD j.val = false := by
  have hdata : (if b then slotSet slotSer s else slotClear slotSer s).gpio.out.getLsbD j.val = false := by
    cases b
    · exact (slotClear_out slotSer s ha j hj).trans (by simp [hlow])
    · exact (slotSet_out slotSer s ha j hj).trans (by simp [hlow, hser])
  have haf : Alone (if b then slotSet slotSer s else slotClear slotSer s) := by
    cases b <;> simpa [Alone] using ha
  rw [shiftBit, slotPulse_out slotSrclk _ haf j hj, hdata, Bool.false_and]

theorem shiftBits_low (n : Nat) (v : Byte) (s : State) (ha : Alone s) (j : Fin 64) (hj : j.val ≤ 53)
    (hser : s.blk.slot slotSer ≠ .pin j) (hlow : s.gpio.out.getLsbD j.val = false) :
    (shiftBits n v s).gpio.out.getLsbD j.val = false := by
  induction n generalizing v s with
  | zero => exact hlow
  | succ n ih =>
    exact ih (v >>> 1) (shiftBit (v.getLsbD 0) s) (by simpa [Alone] using ha) (by simpa using hser)
      (shiftBit_low _ s ha j hj hser hlow)

theorem shiftOut_low (v : Byte) (s : State) (ha : Alone s) (j : Fin 64) (hj : j.val ≤ 53)
    (hser : s.blk.slot slotSer ≠ .pin j) (hlow : s.gpio.out.getLsbD j.val = false) :
    (shiftOut v s).gpio.out.getLsbD j.val = false := shiftBits_low 8 v s ha j hj hser hlow

/-- SRWR, SRFL and SRTD leave a low latch low when its pin is not the one in the serial-in slot. -/
theorem ran_shiftCommand_low (i : Instr) (hi : (∃ b, i = .srwr b) ∨ i = .srfl ∨ i = .srtd) (s : State) (ha : Alone s)
    (j : Fin 64) (hj : j.val ≤ 53) (hser : s.blk.slot slotSer ≠ .pin j) (hlow : s.gpio.out.getLsbD j.val = false) :
    (s.ran i).gpio.out.getLsbD j.val = false := by
  rcases hi with ⟨b, rfl⟩ | rfl | rfl
  · exact shiftOut_low (BitVec.ofNat 8 b) s.accept ha j hj hser hlow
  · refine (slotPulse_out slotRclk s.accept ha j hj).trans ?_
    rw [State.accept_gpio, hlow, Bool.false_and]
  · obtain ⟨hout, _⟩ := ran_srtd_gpio s ha
    rw [hout]
    exact shiftOut_low 0xFF s.accept ha j hj hser hlow

/-- SRWR, SRFL and SRTD, whatever they answer, leave a low latch low when its pin is not serial-in: a refusal and a fault
touch no latch at all (60_exceptions.md R139, R140). -/
theorem shiftCommand_low (i : Instr) (hi : (∃ b, i = .srwr b) ∨ i = .srfl ∨ i = .srtd) (s t : State) (ha : Alone s)
    (he : exec i s = .next t) (hpin : s.blk.slot slotSer = pinOf s.cfg.serId) (id : Nat) (hid : id ≤ 53)
    (hne : id ≠ s.cfg.serId) (hlow : s.gpio.out.getLsbD id = false) : t.gpio.out.getLsbD id = false := by
  have hval := pinOf_val id hid
  have hser : s.blk.slot slotSer ≠ .pin (Fin.ofNat 64 id) := by
    obtain ⟨hv, _⟩ := wiring s.cfg ha.1
    intro h
    exact hne (pinOf_injective (by omega) (by omega) (h.symm.trans hpin))
  rcases exec_cases i s t he with ⟨w, rfl⟩ | ⟨c, w, rfl⟩ | rfl
  · exact hlow
  · exact hlow
  · rw [← hval]
    exact ran_shiftCommand_low i hi s ha (Fin.ofNat 64 id) (hval.le.trans hid) hser (by rw [hval]; exact hlow)

/-- Settles O44: SRINIT lowers both latches, and no other command of the driver leaves one of them high that was low. -/
theorem shiftCommandsLeaveClockLatchesLow : Obligations.ShiftCommandsLeaveClockLatchesLow := by
  intro s t ha _
  obtain ⟨_, hv1, hv2, _, hn1, hn2, _⟩ := wiring s.cfg ha.1
  refine ⟨fun he hok => ?_, fun i hi he hser _ _ hlow1 hlow2 => ?_⟩
  · obtain rfl := ran_of_ok .srinit s t he hok
    obtain ⟨_, _, _, hcfg⟩ := ran_srinit s
    rw [hcfg, (ran_srinit_gpio s ha _ hv1).2, (ran_srinit_gpio s ha _ hv2).2]
    simp [shiftIds]
  · exact ⟨shiftCommand_low i hi s t ha he hser _ hv1 hn1.symm hlow1,
      shiftCommand_low i hi s t ha he hser _ hv2 hn2.symm hlow2⟩

end Sys2Proof.Machine
end

section
/-! The checks of the Digit Multiplexer's commands (43_digit_mux.md R113 to R115, 60_exceptions.md R137, R138), and the slots
a construction fills and a teardown empties. -/

namespace Sys2Proof.Machine

open Sys2Proof

/-! ### The digit positions -/

theorem mem_digitsUp (k : Fin 4) : k ∈ digitsUp := by
  revert k
  decide

/-- The digit pins are those at the four positions. -/
theorem mem_digIds_iff (c : Config) (j : Nat) : j ∈ digIds c ↔ ∃ k : Fin 4, j = c.digId[k] := by
  rw [← digId_toList, Vector.mem_toList_iff, Vector.mem_iff_getElem]
  exact ⟨fun ⟨i, hi, e⟩ => ⟨⟨i, hi⟩, e.symm⟩, fun ⟨k, e⟩ => ⟨k.val, k.isLt, e.symm⟩⟩

theorem digIds_valid (c : Config) (hw : configWf c = true) : ∀ id ∈ digIds c, id ≤ 53 := by
  obtain ⟨_, _, _, hv, _⟩ := wiring c hw
  intro id hid
  obtain ⟨k, rfl⟩ := (mem_digIds_iff c id).mp hid
  exact hv k

/-! ### The checks -/

/-- With both components nothing stops MXSW (43_digit_mux.md R114). -/
theorem mxswChecks_iff (s : State) :
    firstFault (mxswChecks s) = none ↔ s.blk.mxLive = true ∧ s.blk.srLive = true := by
  simp [firstFault_eq_none, mxswChecks]

/-- Without either component MXSW is stopped (43_digit_mux.md R114). -/
theorem mxswChecks_missing (s : State) (h : s.blk.mxLive = false ∨ s.blk.srLive = false) :
    firstFault (mxswChecks s) = some .notInit := by
  have happly : (!s.blk.mxLive || !s.blk.srLive) = true := by simpa using h
  rw [mxswChecks, happly, firstFault_true]

/-- With the Digit Set nothing stops MXTD (43_digit_mux.md R115). -/
theorem mxtdChecks_live (s : State) (hl : s.blk.mxLive = true) : firstFault (mxtdChecks s) = none := by
  simp [mxtdChecks, hl]

/-- Without the Digit Set MXTD is stopped (43_digit_mux.md R115). -/
theorem mxtdChecks_gone (s : State) (hl : s.blk.mxLive = false) : firstFault (mxtdChecks s) = some .notInit := by
  simp [mxtdChecks, hl]

/-- With the Digit Set MXINIT is stopped before it looks at a slot (60_exceptions.md R138). -/
theorem mxinitChecks_live (s : State) (hl : s.blk.mxLive = true) :
    firstFault (mxinitChecks s) = some .alreadyInit := by
  rw [mxinitChecks, hl, firstFault_true]

/-- Without the Digit Set a live slot among its four stops MXINIT (60_exceptions.md R138). -/
theorem mxinitChecks_busy (s : State) (hl : s.blk.mxLive = false) (hlive : ∃ k : Fin 4, s.blk.slot (slotDig k) ≠ .empty) :
    firstFault (mxinitChecks s) = some .slotBusy := by
  obtain ⟨k, hk⟩ := hlive
  have hany : digitsUp.any (fun k => decide (s.blk.slot (slotDig k) ≠ .empty)) = true :=
    List.any_eq_true.mpr ⟨k, mem_digitsUp k, decide_eq_true hk⟩
  rw [mxinitChecks, hl, firstFault_false, hany, firstFault_true]

/-- Without the Digit Set and with its four slots empty MXINIT looks at the owners of its pins only (43_digit_mux.md
R113). -/
theorem mxinitChecks_empty (s : State) (hl : s.blk.mxLive = false) (he : ∀ k : Fin 4, s.blk.slot (slotDig k) = .empty) :
    firstFault (mxinitChecks s) = firstFault [(digitsUp.any (fun k => s.blk.holds s.cfg.digId[k]), .doubleClaim)] := by
  have hany : digitsUp.any (fun k => decide (s.blk.slot (slotDig k) ≠ .empty)) = false := by
    simp [he]
  rw [mxinitChecks, hl, firstFault_false, hany, firstFault_false]

/-- Settles O48: which check of each command is the first to apply. -/
theorem digitMuxFaultsInOrder : Obligations.DigitMuxFaultsInOrder := by
  intro s hr
  refine ⟨fun hmissing => ?_, fun hl => ?_, fun hl => ?_, fun hl hlive => ?_, fun hl he hw ⟨j, k, hj, hpin⟩ => ?_⟩
  · exact exec_faults .mxsw s .notInit (hr.admitted _) (mxswChecks_missing s hmissing)
  · exact exec_faults .mxtd s .notInit (hr.admitted _) (mxtdChecks_gone s hl)
  · exact exec_faults .mxinit s .alreadyInit (hr.admitted _) (mxinitChecks_live s hl)
  · exact exec_faults .mxinit s .slotBusy (hr.admitted _) (mxinitChecks_busy s hl hlive)
  · obtain ⟨_, _, _, hv, _⟩ := wiring s.cfg hw
    have hheld : digitsUp.any (fun k => s.blk.holds s.cfg.digId[k]) = true :=
      List.any_eq_true.mpr ⟨k, mem_digitsUp k, (Block.holds_iff s.blk _ (hv k)).mpr ⟨j, hj, hpin⟩⟩
    refine exec_faults .mxinit s .doubleClaim (hr.admitted _) ?_
    rw [commandChecks, mxinitChecks_empty s hl he, hheld, firstFault_true]

/-! ### Filled and emptied slots -/

/-- Filling and emptying slots write nothing of the block but its slots. -/
theorem Block.fill_eq (l : List (Nat × Nat)) (b : Block) : b.fill l = { b with slots := (b.fill l).slots } := by
  induction l generalizing b with
  | nil => rfl
  | cons e l ih => exact (ih (b.setSlot e.1 (pinOf e.2))).trans rfl

theorem Block.vacate_eq (l : List Nat) (b : Block) : b.vacate l = { b with slots := (b.vacate l).slots } := by
  induction l generalizing b with
  | nil => rfl
  | cons i l ih => exact (ih (b.setSlot i .empty)).trans rfl

/-- A slot that is not filled holds what it held. -/
theorem Block.fill_slot_ne (l : List (Nat × Nat)) (b : Block) (j : Nat) (h : ∀ e ∈ l, e.1 ≠ j) :
    (b.fill l).slot j = b.slot j := by
  induction l generalizing b with
  | nil => rfl
  | cons e l ih =>
    obtain ⟨he, hl⟩ := List.forall_mem_cons.mp h
    exact (ih (b.setSlot e.1 (pinOf e.2)) hl).trans (Block.setSlot_slot_ne b e.1 j _ he)

/-- Each of several distinct slots of the table holds the pin it was filled with. -/
theorem Block.fill_slot_mem (l : List (Nat × Nat)) (b : Block) (hd : (l.map Prod.fst).Nodup) (e : Nat × Nat)
    (he : e ∈ l) (hlt : e.1 < nSlots) : (b.fill l).slot e.1 = pinOf e.2 := by
  induction l generalizing b with
  | nil => cases he
  | cons x l ih =>
    obtain ⟨hx, hd'⟩ := List.nodup_cons.mp hd
    rcases List.mem_cons.mp he with rfl | he
    · have hrest : ∀ e' ∈ l, e'.1 ≠ e.1 := fun e' he' heq => hx (heq ▸ List.mem_map_of_mem he')
      exact (Block.fill_slot_ne l _ e.1 hrest).trans (Block.setSlot_slot_self b e.1 _ hlt)
    · exact ih (b.setSlot x.1 (pinOf x.2)) hd' he

/-- An emptied slot reads as `Empty`, inside the table or not. -/
theorem Block.setSlot_empty_slot (b : Block) (i j : Nat) :
    (b.setSlot i .empty).slot j = if i = j then .empty else b.slot j := by
  rw [Block.setSlot_slot]
  by_cases hij : i = j
  · by_cases hj : j < nSlots
    · simp [hij, hj]
    · have hout : b.slot j = .empty := by simp [Block.slot, show ¬ j < 16 from hj]
      simp [hout]
  · simp [hij]

theorem Block.vacate_slot (l : List Nat) (b : Block) (j : Nat) :
    (b.vacate l).slot j = if j ∈ l then .empty else b.slot j := by
  induction l generalizing b with
  | nil => simp [Block.vacate]
  | cons i l ih =>
    refine (ih (b.setSlot i .empty)).trans ?_
    rw [Block.setSlot_empty_slot]
    by_cases hij : i = j
    · simp [hij]
    · simp [hij, Ne.symm hij]

theorem slotDig_lt (k : Fin 4) : slotDig k < nSlots := by
  simp only [slotDig, nSlots]
  omega

/-- The slots of the Digit Set are filled with the pins of their positions (43_digit_mux.md R113). -/
theorem fill_digitSlots_slotDig (c : Config) (b : Block) (k : Fin 4) :
    (b.fill (digitSlots c)).slot (slotDig k) = pinOf c.digId[k] :=
  Block.fill_slot_mem (digitSlots c) b (show [3, 4, 5, 6].Nodup by decide) (slotDig k, c.digId[k])
    (List.mem_map_of_mem (f := fun k => (slotDig k, c.digId[k])) (mem_digitsUp k)) (slotDig_lt k)

/-- Filling the slots of the Digit Set leaves every other slot alone. -/
theorem fill_digitSlots_ne (c : Config) (b : Block) (j : Nat) (hj : ∀ k : Fin 4, j ≠ slotDig k) :
    (b.fill (digitSlots c)).slot j = b.slot j := by
  refine Block.fill_slot_ne (digitSlots c) b j fun e he => ?_
  obtain ⟨k, _, rfl⟩ := List.mem_map.mp he
  exact (hj k).symm

end Sys2Proof.Machine
end

section
/-! MXINIT: the construction of the four digit pins (43_digit_mux.md R113). -/

namespace Sys2Proof.Machine

open Sys2Proof

/-- The state from which MXINIT constructs: its slots are filled (43_digit_mux.md R113). -/
def State.mxFilled (s : State) : State :=
  (((s.setSlot 3 (pinOf s.cfg.digId[0])).setSlot 4 (pinOf s.cfg.digId[1])).setSlot 5 (pinOf s.cfg.digId[2])).setSlot 6
    (pinOf s.cfg.digId[3])

@[simp] theorem State.mxFilled_cfg (s : State) : s.mxFilled.cfg = s.cfg := by simp [State.mxFilled]
@[simp] theorem State.mxFilled_gpio (s : State) : s.mxFilled.gpio = s.gpio := by simp [State.mxFilled]
@[simp] theorem State.mxFilled_host (s : State) : s.mxFilled.host = s.host := by simp [State.mxFilled]
@[simp] theorem State.mxFilled_trace (s : State) : s.mxFilled.trace = s.trace := by simp [State.mxFilled]

/-- MXINIT's peripheral, trace and host are those of the construction of its four pins. -/
theorem ran_mxinit (s : State) :
    (s.ran .mxinit).gpio = (construct (digIds s.cfg) s.accept.mxFilled).gpio ∧
    (s.ran .mxinit).trace = (construct (digIds s.cfg) s.accept.mxFilled).trace ∧
    (s.ran .mxinit).host = s.host ∧ (s.ran .mxinit).cfg = s.cfg := by
  obtain ⟨hcfg, _, hhost⟩ := construct_keeps (digIds s.cfg) s.accept.mxFilled
  rw [State.mxFilled_cfg, State.accept_cfg] at hcfg
  rw [State.mxFilled_host, State.accept_host] at hhost
  have hbody : mxinitBody s.accept = (((construct (digIds s.cfg) s.accept.mxFilled).onBlk (Block.setCursor 3)).onBlk
      (Block.setMxLive true)).setRspData 0 := mxinitBody_eq s.accept
  rw [State.ran, commandBody, hbody]
  generalize construct (digIds s.cfg) s.accept.mxFilled = t at hcfg hhost ⊢
  exact ⟨rfl, rfl, hhost, hcfg⟩

/-- What MXINIT does to the functions and the latches when it runs without another master (43_digit_mux.md R113). -/
theorem ran_mxinit_gpio (s : State) (ha : Alone s) (j : Nat) (hj : j ≤ 53) :
    (s.ran .mxinit).gpio.function j = (if j ∈ digIds s.cfg then fnOutput else s.gpio.function j) ∧
    (s.ran .mxinit).gpio.out.getLsbD j = (s.gpio.out.getLsbD j && !decide (j ∈ digIds s.cfg)) := by
  obtain ⟨hgpio, _⟩ := ran_mxinit s
  have hconstruct := construct_gpio (digIds s.cfg) s.accept.mxFilled (by simpa [Alone] using ha)
    (digIds_valid s.cfg ha.1) j hj
  rwa [← hgpio, State.mxFilled_gpio, State.accept_gpio] at hconstruct

/-- The block after MXINIT: the four slots, the cursor and the live bit (43_digit_mux.md R113). -/
theorem ran_mxinit_blk (s : State) : (s.ran .mxinit).blk =
    { s.blk.completed 0 with slots := (s.blk.fill (digitSlots s.cfg)).slots, cursor := 3, mxLive := true } := by
  rw [ran_blk .mxinit s (by simp), blockEffect, Block.fill_eq]
  generalize (s.blk.fill (digitSlots s.cfg)).slots = slots
  rfl

theorem ran_mxinit_slot (s : State) (j : Nat) :
    (s.ran .mxinit).blk.slot j = (s.blk.fill (digitSlots s.cfg)).slot j := by
  rw [ran_mxinit_blk]
  rfl

/-- Settles O45: none of the checks applies, and the body is the construction of the four pins. -/
theorem mxinitConstructsTheDigitSet : Obligations.MxinitConstructsTheDigitSet := by
  intro s hr hw hl he hfree
  have hheld : digitsUp.any (fun k => s.blk.holds s.cfg.digId[k]) = false :=
    List.any_eq_false.mpr fun k _ => Bool.not_eq_true _ ▸ holds_false s.blk _ fun j hj => hfree j k hj
  have hfirst : firstFault (commandChecks .mxinit s) = none := by
    rw [commandChecks, mxinitChecks_empty s hl he, hheld, firstFault_false, firstFault_nil]
  obtain ⟨_, htrace, hhost, hcfg⟩ := ran_mxinit s
  have hv := digIds_valid s.cfg hw
  obtain ⟨claims, hconstruct, hlen⟩ := construct_trace (digIds s.cfg) s.accept.mxFilled (by simpa using hw) hv
  have hclears : ((digIds s.cfg).flatMap (clearEvents s.cfg)).length = 4 := by
    simp only [digIds, List.forall_mem_cons] at hv ⊢
    obtain ⟨hv0, hv1, hv2, hv3, _⟩ := hv
    simp [clearEvents_length, hv0, hv1, hv2, hv3]
  have hevents : (s.ran .mxinit).trace = (digIds s.cfg).flatMap (clearEvents s.cfg) ++ claims := by
    simpa [htrace] using hconstruct
  refine ⟨s.ran .mxinit, exec_runs .mxinit s (hr.admitted _) hfirst, hhost, hcfg, fun k => ?_, fun j hj => ?_, ?_, ?_, ?_,
    fun hm => ?_⟩
  · rw [ran_mxinit_slot, fill_digitSlots_slotDig]
  · rw [ran_mxinit_slot, fill_digitSlots_ne s.cfg s.blk j hj]
  · rw [ran_mxinit_blk]
  · rw [hevents, List.length_append, hclears, hlen]
    rfl
  · rw [hevents, List.take_left' hclears]
    simp [digIds]
  · rw [digId_toList]
    have hgpio := ran_mxinit_gpio s ⟨hw, hm⟩
    exact ⟨fun j hj => (hgpio j hj).1, fun j hj => (hgpio j hj).2⟩

end Sys2Proof.Machine
end

section
/-! MXSW: the four stages of its body, in the order of the algorithm, and the events of each (43_digit_mux.md R114). -/

namespace Sys2Proof.Machine

open Sys2Proof

/-! ### The pattern port -/

/-- Acceptance does not change the host's answer (43_digit_mux.md R112). -/
theorem hostPattern_accept (next : Fin 4) (s : State) : hostPattern next s.accept = hostPattern next s := rfl

/-- The host gives at most one answer, the oldest (43_digit_mux.md R112). -/
theorem patternAnswered_host (s : State) :
    (patternAnswered s).host = { s.host with answers := s.host.answers.tail } := by
  unfold patternAnswered
  split
  · rename_i h
    rw [h]
    rfl
  · rename_i h
    have hnone : s.host.answers.tail = s.host.answers := by rw [h]; rfl
    rw [hnone]
    split <;> rfl

theorem patternAnswered_accept_host (s : State) : (patternAnswered s.accept).host = (patternAnswered s).host := by
  rw [patternAnswered_host, patternAnswered_host, State.accept_host]

/-! ### The stages -/

/-- Steps 1 and 2: the pattern of the next digit is answered and shifted out (43_digit_mux.md R114). -/
def State.mxShifted (s : State) : State := shiftOut (hostPattern (s.blk.cursor + 1) s) (patternAnswered s)

/-- Step 3: the old digit's slot is cleared (43_digit_mux.md R114). -/
def State.mxDarkened (s : State) : State := slotClear (slotDig s.blk.cursor) s.mxShifted

/-- Step 4: the pattern is latched (43_digit_mux.md R114). -/
def State.mxLatched (s : State) : State := latch s.mxDarkened

/-- Step 5: the next digit's slot is set (43_digit_mux.md R114). -/
def State.mxSwitched (s : State) : State := slotSet (slotDig (s.blk.cursor + 1)) s.mxLatched

theorem mxswBody_eq (s : State) : mxswBody s =
    (s.mxSwitched.onBlk (Block.setCursor (s.blk.cursor + 1))).setRspData 0 := rfl

@[simp] theorem State.mxShifted_cfg (s : State) : s.mxShifted.cfg = s.cfg := by simp [State.mxShifted]
@[simp] theorem State.mxShifted_blk (s : State) : s.mxShifted.blk = s.blk := by simp [State.mxShifted]
@[simp] theorem State.mxShifted_host (s : State) : s.mxShifted.host = (patternAnswered s).host := by
  simp [State.mxShifted]
@[simp] theorem State.mxDarkened_cfg (s : State) : s.mxDarkened.cfg = s.cfg := by simp [State.mxDarkened]
@[simp] theorem State.mxDarkened_blk (s : State) : s.mxDarkened.blk = s.blk := by simp [State.mxDarkened]
@[simp] theorem State.mxDarkened_host (s : State) : s.mxDarkened.host = (patternAnswered s).host := by
  simp [State.mxDarkened]
@[simp] theorem State.mxLatched_cfg (s : State) : s.mxLatched.cfg = s.cfg := by simp [State.mxLatched]
@[simp] theorem State.mxLatched_blk (s : State) : s.mxLatched.blk = s.blk := by simp [State.mxLatched]
@[simp] theorem State.mxLatched_host (s : State) : s.mxLatched.host = (patternAnswered s).host := by
  simp [State.mxLatched]
@[simp] theorem State.mxSwitched_cfg (s : State) : s.mxSwitched.cfg = s.cfg := by simp [State.mxSwitched]
@[simp] theorem State.mxSwitched_blk (s : State) : s.mxSwitched.blk = s.blk := by simp [State.mxSwitched]
@[simp] theorem State.mxSwitched_host (s : State) : s.mxSwitched.host = (patternAnswered s).host := by
  simp [State.mxSwitched]

/-- The events of the first three steps: the pattern and the clear of the old digit. -/
theorem mxDarkened_trace (s : State) (hw : configWf s.cfg = true) : s.mxDarkened.trace =
    s.trace ++ shiftTrace s.cfg s.blk (hostPattern (s.blk.cursor + 1) s) ++
      clearTrace s.cfg s.blk (slotDig s.blk.cursor) := by
  rw [State.mxDarkened, slotClear_trace _ _ (by simpa using hw), State.mxShifted_cfg, State.mxShifted_blk,
    State.mxShifted, shiftOut_trace _ _ (by simpa using hw), patternAnswered_cfg, patternAnswered_blk,
    patternAnswered_trace]

/-- The events of the latch and of the set of the next digit. -/
theorem mxSwitched_trace (s : State) (hw : configWf s.cfg = true) : s.mxSwitched.trace =
    s.mxDarkened.trace ++ pulseTrace s.cfg s.blk slotRclk ++ setTrace s.cfg s.blk (slotDig (s.blk.cursor + 1)) := by
  rw [State.mxSwitched, slotSet_trace _ _ (by simpa using hw), State.mxLatched_cfg, State.mxLatched_blk,
    State.mxLatched, latch_trace _ (by simpa using hw), State.mxDarkened_cfg, State.mxDarkened_blk]

/-- The peripheral after the first three steps is the replay of their events, when there is no other master. -/
theorem mxDarkened_replay (s : State) (ha : Alone s) : s.mxDarkened.gpio = replay s.cfg s.gpio
    (shiftTrace s.cfg s.blk (hostPattern (s.blk.cursor + 1) s) ++ clearTrace s.cfg s.blk (slotDig s.blk.cursor)) := by
  obtain ⟨hw, hm⟩ := ha
  rw [State.mxDarkened, slotClear_replay _ _ (by simpa using hw) (by simpa using hm), State.mxShifted_cfg,
    State.mxShifted_blk, State.mxShifted, shiftOut_replay _ _ (by simpa using hw) (by simpa using hm),
    patternAnswered_cfg, patternAnswered_blk, patternAnswered_gpio, replay_append]

theorem mxSwitched_replay (s : State) (ha : Alone s) : s.mxSwitched.gpio = replay s.cfg s.mxDarkened.gpio
    (pulseTrace s.cfg s.blk slotRclk ++ setTrace s.cfg s.blk (slotDig (s.blk.cursor + 1))) := by
  obtain ⟨hw, hm⟩ := ha
  rw [State.mxSwitched, slotSet_replay _ _ (by simpa using hw) (by simpa using hm), State.mxLatched_cfg,
    State.mxLatched_blk, State.mxLatched, latch_replay _ (by simpa using hw) (by simpa using hm), State.mxDarkened_cfg,
    State.mxDarkened_blk, replay_append]

/-- No stage of MXSW touches a function-select register, when there is no other master. -/
theorem mxSwitched_fsel (s : State) (ha : Alone s) : s.mxSwitched.gpio.fsel = s.gpio.fsel := by
  obtain ⟨hshift, _⟩ := shiftOut_frame (hostPattern (s.blk.cursor + 1) s) (patternAnswered s) (by simpa [Alone] using ha)
  calc s.mxSwitched.gpio.fsel
      = s.mxLatched.gpio.fsel := slotSet_fsel _ _ (by simpa [Alone] using ha)
    _ = s.mxDarkened.gpio.fsel := slotPulse_fsel _ _ (by simpa [Alone] using ha)
    _ = s.mxShifted.gpio.fsel := slotClear_fsel _ _ (by simpa [Alone] using ha)
    _ = (patternAnswered s).gpio.fsel := hshift
    _ = s.gpio.fsel := by rw [patternAnswered_gpio]

/-! ### The command -/

/-- MXSW's peripheral, trace and device are those of its last stage, and of the block only the cursor and the response
change (43_digit_mux.md R114). -/
theorem ran_mxsw (s : State) :
    (s.ran .mxsw).gpio = s.accept.mxSwitched.gpio ∧ (s.ran .mxsw).trace = s.accept.mxSwitched.trace ∧
    (s.ran .mxsw).host = (patternAnswered s).host ∧ (s.ran .mxsw).cfg = s.cfg ∧
    (s.ran .mxsw).blk = (s.blk.setCursor (s.blk.cursor + 1)).completed 0 := by
  have hcfg := State.mxSwitched_cfg s.accept
  have hhost := (State.mxSwitched_host s.accept).trans (patternAnswered_accept_host s)
  have hblk := ran_blk .mxsw s (by simp)
  rw [State.ran, commandBody, mxswBody_eq] at hblk ⊢
  generalize s.accept.mxSwitched = t at hcfg hhost hblk ⊢
  exact ⟨rfl, rfl, hhost, hcfg, hblk⟩

/-- The events of MXSW, in the order of R114. -/
theorem ran_mxsw_trace (s : State) (hw : configWf s.cfg = true) : (s.ran .mxsw).trace =
    shiftTrace s.cfg s.blk (hostPattern (s.blk.cursor + 1) s) ++ clearTrace s.cfg s.blk (slotDig s.blk.cursor) ++
      pulseTrace s.cfg s.blk slotRclk ++ setTrace s.cfg s.blk (slotDig (s.blk.cursor + 1)) := by
  obtain ⟨_, htrace, _⟩ := ran_mxsw s
  rw [htrace, mxSwitched_trace s.accept hw, mxDarkened_trace s.accept hw]
  rfl

theorem ran_mxsw_replay (s : State) (ha : Alone s) :
    (s.ran .mxsw).gpio = replay s.cfg s.gpio (s.ran .mxsw).trace := by
  obtain ⟨hgpio, _⟩ := ran_mxsw s
  rw [hgpio, ran_mxsw_trace s ha.1, mxSwitched_replay s.accept ha, mxDarkened_replay s.accept ha, ← replay_append,
    ← List.append_assoc]
  rfl

/-- With both components a ready block runs MXSW. -/
theorem exec_mxsw (s : State) (hr : Ready s) (hm : s.blk.mxLive = true) (hl : s.blk.srLive = true) :
    exec .mxsw s = .next (s.ran .mxsw) :=
  exec_runs .mxsw s (hr.admitted _) ((mxswChecks_iff s).mpr ⟨hm, hl⟩)

/-- Settles O46: the command is its four stages, whatever its slots hold. -/
theorem mxswSwitchesToTheNextDigit : Obligations.MxswSwitchesToTheNextDigit := by
  intro s hr hw hm hl
  obtain ⟨hgpio, _, hhost, hcfg, hblk⟩ := ran_mxsw s
  have hcursor : (s.ran .mxsw).blk.cursor = s.blk.cursor + 1 := by rw [hblk]; rfl
  refine ⟨s.ran .mxsw, exec_mxsw s hr hm hl, hcfg, by rw [hcursor, Fin.val_add]; rfl, by rw [hblk]; rfl, hhost, ?_,
    fun hother => ⟨?_, ran_mxsw_replay s ⟨hw, hother⟩⟩⟩
  · rw [hcursor, ran_mxsw_trace s hw]
  · rw [hgpio]
    exact mxSwitched_fsel s.accept ⟨hw, hother⟩

end Sys2Proof.Machine
end

section
/-! A run of clears of slots, and MXTD: four clears and then four releases (43_digit_mux.md R115). -/

namespace Sys2Proof.Machine

open Sys2Proof

/-! ### A run of clears -/

/-- Slots cleared, in order (43_digit_mux.md R115). -/
def clearSlots (l : List Nat) (s : State) : State := l.foldl (fun t i => slotClear i t) s

theorem clearSlots_keeps (l : List Nat) (s : State) :
    (clearSlots l s).cfg = s.cfg ∧ (clearSlots l s).blk = s.blk ∧ (clearSlots l s).host = s.host := by
  induction l generalizing s with
  | nil => exact ⟨rfl, rfl, rfl⟩
  | cons i l ih => simpa [clearSlots] using ih (slotClear i s)

@[simp] theorem clearSlots_cfg (l : List Nat) (s : State) : (clearSlots l s).cfg = s.cfg := (clearSlots_keeps l s).1
@[simp] theorem clearSlots_blk (l : List Nat) (s : State) : (clearSlots l s).blk = s.blk := (clearSlots_keeps l s).2.1
@[simp] theorem clearSlots_host (l : List Nat) (s : State) : (clearSlots l s).host = s.host :=
  (clearSlots_keeps l s).2.2

theorem clearSlots_trace (l : List Nat) (s : State) (hw : configWf s.cfg = true) :
    (clearSlots l s).trace = s.trace ++ l.flatMap (clearTrace s.cfg s.blk) := by
  induction l generalizing s with
  | nil => simp [clearSlots]
  | cons i l ih =>
    have hrest := ih (slotClear i s) (by simpa using hw)
    rw [slotClear_cfg, slotClear_blk, slotClear_trace i s hw] at hrest
    rw [List.flatMap_cons, ← List.append_assoc]
    exact hrest

/-- A run of clears lowers exactly the latches of the pins its slots hold and touches no function, when there is no other
master. -/
theorem clearSlots_gpio (l : List Nat) (s : State) (ha : Alone s) :
    (clearSlots l s).gpio.fsel = s.gpio.fsel ∧
    ∀ j : Fin 64, j.val ≤ 53 → (clearSlots l s).gpio.out.getLsbD j.val =
      (s.gpio.out.getLsbD j.val && !decide (∃ i ∈ l, s.blk.slot i = .pin j)) := by
  induction l generalizing s with
  | nil => exact ⟨rfl, fun j _ => by simp [clearSlots]⟩
  | cons i l ih =>
    obtain ⟨hfsel, hout⟩ := ih (slotClear i s) (by simpa [Alone] using ha)
    refine ⟨hfsel.trans (slotClear_fsel i s ha), fun j hj => (hout j hj).trans ?_⟩
    rw [slotClear_out i s ha j hj, slotClear_blk]
    simp only [List.exists_mem_cons_iff, Bool.decide_or, Bool.not_or, Bool.and_assoc]

/-! ### MXTD -/

/-- The slots MXTD clears, in order (43_digit_mux.md R115). -/
def mxtdClears : List Nat := digitsUp.map slotDig

/-- The slots MXTD releases, in order (43_digit_mux.md R115). -/
def mxtdReleases : List Nat := digitsDown.map slotDig

theorem mxtdBody_eq (s : State) : mxtdBody s =
    (((releaseAll mxtdReleases (clearSlots mxtdClears s)).onBlk (Block.setCursor 3)).onBlk
      (Block.setMxLive false)).setRspData 0 := rfl

theorem mem_mxtdClears (i : Nat) : i ∈ mxtdClears ↔ ∃ k : Fin 4, i = slotDig k := by
  simp [mxtdClears, mem_digitsUp, eq_comm]

theorem mem_mxtdReleases (i : Nat) : i ∈ mxtdReleases ↔ ∃ k : Fin 4, i = slotDig k := by
  have hall : ∀ k : Fin 4, k ∈ digitsDown := by decide
  simp [mxtdReleases, hall, eq_comm]

/-- MXTD's peripheral, trace and host are those of the four clears and the four releases, and the block is without the
Digit Set. -/
theorem ran_mxtd (s : State) :
    (s.ran .mxtd).gpio = (releaseAll mxtdReleases (clearSlots mxtdClears s.accept)).gpio ∧
    (s.ran .mxtd).trace = (releaseAll mxtdReleases (clearSlots mxtdClears s.accept)).trace ∧
    (s.ran .mxtd).host = s.host ∧ (s.ran .mxtd).cfg = s.cfg ∧
    (s.ran .mxtd).blk =
      { s.blk.completed 0 with slots := (s.blk.vacate mxtdReleases).slots, cursor := 3, mxLive := false } := by
  obtain ⟨hcfg, _, hhost⟩ := releaseAll_keeps mxtdReleases (clearSlots mxtdClears s.accept)
  rw [clearSlots_cfg] at hcfg
  rw [clearSlots_host] at hhost
  have hblk := ran_blk .mxtd s (by simp)
  rw [blockEffect, ← mxtdReleases, Block.vacate_eq] at hblk
  generalize (s.blk.vacate mxtdReleases).slots = slots at hblk ⊢
  rw [State.ran, commandBody, mxtdBody_eq] at hblk ⊢
  generalize releaseAll mxtdReleases (clearSlots mxtdClears s.accept) = t at hcfg hhost hblk ⊢
  exact ⟨rfl, rfl, hhost, hcfg, hblk⟩

/-- The events of MXTD: the four clears, then the releases of slots 6, 5, 4 and 3 (43_digit_mux.md R115). -/
theorem ran_mxtd_trace (s : State) (hw : configWf s.cfg = true) :
    ∃ e3 e2 e1 e0, ReleaseEvents s.cfg (s.blk.slot (slotDig 3)) e3 ∧ ReleaseEvents s.cfg (s.blk.slot (slotDig 2)) e2 ∧
      ReleaseEvents s.cfg (s.blk.slot (slotDig 1)) e1 ∧ ReleaseEvents s.cfg (s.blk.slot (slotDig 0)) e0 ∧
      (s.ran .mxtd).trace = clearTrace s.cfg s.blk (slotDig 0) ++ clearTrace s.cfg s.blk (slotDig 1) ++
        clearTrace s.cfg s.blk (slotDig 2) ++ clearTrace s.cfg s.blk (slotDig 3) ++ e3 ++ e2 ++ e1 ++ e0 := by
  obtain ⟨_, htrace, _⟩ := ran_mxtd s
  obtain ⟨events, hevents, hreleases⟩ := releaseAll_trace mxtdReleases (clearSlots mxtdClears s.accept)
    (by rw [clearSlots_cfg]; exact hw) (by decide)
  have hclears : (clearSlots mxtdClears s.accept).trace = mxtdClears.flatMap (clearTrace s.cfg s.blk) :=
    clearSlots_trace mxtdClears s.accept hw
  simp only [mxtdReleases, digitsDown, List.map_cons, List.map_nil, clearSlots_cfg, clearSlots_blk,
    List.forall₂_cons_left_iff, List.forall₂_nil_left_iff] at hevents
  obtain ⟨e3, _, h3, ⟨e2, _, h2, ⟨e1, _, h1, ⟨e0, _, h0, rfl, rfl⟩, rfl⟩, rfl⟩, rfl⟩ := hevents
  exact ⟨e3, e2, e1, e0, h3, h2, h1, h0, by rw [htrace, hreleases, hclears]; simp [mxtdClears, digitsUp]⟩

/-- MXTD makes exactly the pins of its slots inputs and lowers exactly their latches, when there is no other master. -/
theorem ran_mxtd_gpio (s : State) (ha : Alone s) (j : Fin 64) (hj : j.val ≤ 53) :
    (s.ran .mxtd).gpio.function j.val =
      (if ∃ k : Fin 4, s.blk.slot (slotDig k) = .pin j then fnInput else s.gpio.function j.val) ∧
    (s.ran .mxtd).gpio.out.getLsbD j.val =
      (s.gpio.out.getLsbD j.val && !decide (∃ k : Fin 4, s.blk.slot (slotDig k) = .pin j)) := by
  obtain ⟨hgpio, _⟩ := ran_mxtd s
  obtain ⟨hfsel, hlow⟩ := clearSlots_gpio mxtdClears s.accept ha
  obtain ⟨hout, hfun⟩ := releaseAll_gpio mxtdReleases (clearSlots mxtdClears s.accept) (by simpa [Alone] using ha)
  have hcleared : (∃ i ∈ mxtdClears, s.accept.blk.slot i = .pin j) ↔ ∃ k : Fin 4, s.blk.slot (slotDig k) = .pin j := by
    simp [mem_mxtdClears]
  have hreleased : (∃ i ∈ mxtdReleases, (clearSlots mxtdClears s.accept).blk.slot i = .pin j) ↔
      ∃ k : Fin 4, s.blk.slot (slotDig k) = .pin j := by
    simp [mem_mxtdReleases]
  rw [hgpio, hfun j hj, hout, hlow j hj, function_fsel hfsel]
  simp only [hcleared, hreleased, State.accept_gpio, and_self]

/-- Settles O47: the body is a run of four clears and a run of four releases. -/
theorem mxtdTearsDownTheDigitSet : Obligations.MxtdTearsDownTheDigitSet := by
  intro s hr hw hl
  obtain ⟨_, _, hhost, hcfg, hblk⟩ := ran_mxtd s
  have hslot : ∀ j, (s.ran .mxtd).blk.slot j = if j ∈ mxtdReleases then .empty else s.blk.slot j := fun j => by
    rw [hblk]
    exact Block.vacate_slot mxtdReleases s.blk j
  refine ⟨s.ran .mxtd, exec_runs .mxtd s hr (mxtdChecks_live s hl), hhost, hcfg, fun k => ?_, fun j hj => ?_, ?_,
    ran_mxtd_trace s hw, fun hm => ran_mxtd_gpio s ⟨hw, hm⟩⟩
  · rw [hslot, if_pos ((mem_mxtdReleases _).mpr ⟨k, rfl⟩)]
  · rw [hslot, if_neg fun hmem => ?_]
    obtain ⟨k, hk⟩ := (mem_mxtdReleases j).mp hmem
    exact hj k hk
  · rw [hblk]

end Sys2Proof.Machine
end

section
/-! What a run of operations shows between any two of its bus writes: its events account for the peripheral, and a property
of the peripheral holds after any number of them (43_digit_mux.md R117). -/

namespace Sys2Proof.Machine

open Sys2Proof

/-- Between `s` and `t` the events that `t` has recorded beyond those of `s` account for the peripheral of `t`, and the
peripheral meets `P` after any number of them. -/
def Throughout (P : Gpio → Prop) (s t : State) : Prop :=
  t.cfg = s.cfg ∧ ∃ events, t.trace = s.trace ++ events ∧ t.gpio = replay s.cfg s.gpio events ∧
    ∀ n, P (replay s.cfg s.gpio (events.take n))

/-- Two states that agree on the configuration, the trace and the peripheral have no event between them. -/
theorem throughout_of_eq {P : Gpio → Prop} {s t : State} (hc : t.cfg = s.cfg) (ht : t.trace = s.trace)
    (hg : t.gpio = s.gpio) (hP : P s.gpio) : Throughout P s t :=
  ⟨hc, [], by rw [ht, List.append_nil], hg, fun n => by rw [List.take_nil]; exact hP⟩

theorem Throughout.trans {P : Gpio → Prop} {s t u : State} (h : Throughout P s t) (h' : Throughout P t u) :
    Throughout P s u := by
  obtain ⟨hc, e, ht, hg, hP⟩ := h
  obtain ⟨hc', e', ht', hg', hP'⟩ := h'
  rw [hc, hg] at hg' hP'
  refine ⟨hc'.trans hc, e ++ e', by rw [ht', ht, List.append_assoc], by rw [hg', replay_append], fun n => ?_⟩
  rcases Nat.le_total n e.length with hn | hn
  · rw [List.take_append_of_le_length hn]
    exact hP n
  · obtain ⟨m, rfl⟩ := Nat.exists_eq_add_of_le hn
    rw [List.take_length_add_append, replay_append]
    exact hP' m

theorem Throughout.mono {P Q : Gpio → Prop} {s t : State} (h : Throughout P s t) (hPQ : ∀ g, P g → Q g) :
    Throughout Q s t := by
  obtain ⟨hc, e, ht, hg, hP⟩ := h
  exact ⟨hc, e, ht, hg, fun n => hPQ _ (hP n)⟩

/-- The property holds of the peripheral at the end. -/
theorem Throughout.last {P : Gpio → Prop} {s t : State} (h : Throughout P s t) : P t.gpio := by
  obtain ⟨_, e, _, hg, hP⟩ := h
  have hall := hP e.length
  rwa [List.take_length, ← hg] at hall

/-- The peripheral is the replay of the events between, whatever way they are written. -/
theorem Throughout.replay_eq {P : Gpio → Prop} {s t : State} (h : Throughout P s t) {events : List BusEvent}
    (ht : t.trace = s.trace ++ events) : t.gpio = replay s.cfg s.gpio events := by
  obtain ⟨_, e, ht', hg, _⟩ := h
  obtain rfl := List.append_cancel_left (ht'.symm.trans ht)
  exact hg

/-- The property holds after any number of the events between, whatever way they are written. -/
theorem Throughout.replay_take {P : Gpio → Prop} {s t : State} (h : Throughout P s t) {events : List BusEvent}
    (ht : t.trace = s.trace ++ events) (n : Nat) : P (replay s.cfg s.gpio (events.take n)) := by
  obtain ⟨_, e, ht', _, hP⟩ := h
  obtain rfl := List.append_cancel_left (ht'.symm.trans ht)
  exact hP n

/-- Of an operation with at most one event only the peripherals before and after matter. -/
theorem throughout_of_single {P : Gpio → Prop} {s t : State} {events : List BusEvent} (hc : t.cfg = s.cfg)
    (ht : t.trace = s.trace ++ events) (hg : t.gpio = replay s.cfg s.gpio events) (hlen : events.length ≤ 1)
    (hP : P s.gpio) (hP' : P t.gpio) : Throughout P s t := by
  refine ⟨hc, events, ht, hg, fun n => ?_⟩
  cases n with
  | zero => exact hP
  | succ n =>
    rw [List.take_of_length_le (by omega), ← hg]
    exact hP'

/-! ### The pin procedures -/

theorem setEvents_length_le (c : Config) (id : Nat) : (setEvents c id).length ≤ 1 := by
  unfold setEvents
  cases resolveLevel id <;> simp

theorem clearEvents_length_le (c : Config) (id : Nat) : (clearEvents c id).length ≤ 1 := by
  unfold clearEvents
  cases resolveLevel id <;> simp

theorem setTrace_length_le (c : Config) (b : Block) (i : Nat) : (setTrace c b i).length ≤ 1 := by
  unfold setTrace slotEvents
  cases b.slot i with
  | empty => exact Nat.zero_le 1
  | pin id => exact setEvents_length_le c id.val

theorem clearTrace_length_le (c : Config) (b : Block) (i : Nat) : (clearTrace c b i).length ≤ 1 := by
  unfold clearTrace slotEvents
  cases b.slot i with
  | empty => exact Nat.zero_le 1
  | pin id => exact clearEvents_length_le c id.val

theorem throughout_clearIO {P : Gpio → Prop} (id : Nat) (s : State) (ha : Alone s) (hP : P s.gpio)
    (hP' : P (clearIO id s).gpio) : Throughout P s (clearIO id s) :=
  throughout_of_single (clearIO_cfg id s) (clearIO_trace id s ha.1) (clearIO_replay id s ha.1 ha.2)
    (clearEvents_length_le s.cfg id) hP hP'

theorem throughout_slotSet {P : Gpio → Prop} (i : Nat) (s : State) (ha : Alone s) (hP : P s.gpio)
    (hP' : P (slotSet i s).gpio) : Throughout P s (slotSet i s) :=
  throughout_of_single (slotSet_cfg i s) (slotSet_trace i s ha.1) (slotSet_replay i s ha.1 ha.2)
    (setTrace_length_le s.cfg s.blk i) hP hP'

theorem throughout_slotClear {P : Gpio → Prop} (i : Nat) (s : State) (ha : Alone s) (hP : P s.gpio)
    (hP' : P (slotClear i s).gpio) : Throughout P s (slotClear i s) :=
  throughout_of_single (slotClear_cfg i s) (slotClear_trace i s ha.1) (slotClear_replay i s ha.1 ha.2)
    (clearTrace_length_le s.cfg s.blk i) hP hP'

/-- Programming a function reads, which changes nothing, and then writes once (41_pin.md R88, R89). -/
theorem throughout_programFunction {P : Gpio → Prop} (id : Nat) (fn : BitVec 3) (s : State) (ha : Alone s)
    (hP : P s.gpio) (hP' : P (programFunction id fn s).gpio) : Throughout P s (programFunction id fn s) := by
  by_cases hid : id ≤ 53
  · obtain ⟨r, htrace, hr⟩ := programFunction_trace id fn s ha.1 hid
    have hgpio := programFunction_gpio id fn s ha.1 ha.2 hid
    rw [← hr ha.2] at hgpio
    have hwrite := (Gpio.write_fsel s.cfg ha.1 s.gpio (Fin.ofNat 6 (id / 10))
      (merge r (fn.setWidth 32) fselFieldW (id % 10))).symm
    refine ⟨programFunction_cfg id fn s, _, htrace, hgpio.trans hwrite, fun n => ?_⟩
    match n with
    | 0 => exact hP
    | 1 => exact hP
    | n + 2 =>
      rw [hgpio, hwrite] at hP'
      simpa [replay] using hP'
  · rw [programFunction_invalid id fn s hid]
    exact throughout_of_eq rfl rfl rfl hP

theorem throughout_releaseSlot {P : Gpio → Prop} (i : Nat) (s : State) (ha : Alone s) (hP : P s.gpio)
    (hP' : P (releaseSlot i s).gpio) : Throughout P s (releaseSlot i s) := by
  have hrelease : Throughout P s (slotRelease i s) := by
    unfold releaseSlot at hP'
    unfold slotRelease onSlot at hP' ⊢
    cases hs : s.blk.slot i with
    | empty => exact throughout_of_eq rfl rfl rfl hP
    | pin id =>
      rw [hs] at hP'
      exact throughout_programFunction id.val fnInput s ha hP hP'
  exact hrelease.trans (throughout_of_eq rfl rfl rfl hrelease.last)

/-- A run of operations, each of which keeps a condition on the state that gives the property, keeps both. -/
theorem throughout_foldl {α : Type} {P : Gpio → Prop} (I : State → Prop) (op : α → State → State)
    (hI : ∀ t, I t → P t.gpio) (hop : ∀ a t, I t → Throughout P t (op a t) ∧ I (op a t)) (l : List α) (s : State)
    (hs : I s) : Throughout P s (l.foldl (fun t a => op a t) s) ∧ I (l.foldl (fun t a => op a t) s) := by
  induction l generalizing s with
  | nil => exact ⟨throughout_of_eq rfl rfl rfl (hI s hs), hs⟩
  | cons a l ih =>
    obtain ⟨hstep, hnext⟩ := hop a s hs
    obtain ⟨hrest, hlast⟩ := ih (op a s) hnext
    exact ⟨hstep.trans hrest, hlast⟩

end Sys2Proof.Machine
end

section
/-! Which digits are lit (10_state.md R33, R36): what set, clear, claim and release of a slot do to the enable lines. -/

namespace Sys2Proof.Machine

open Sys2Proof

/-- A position is enabled when its pin is an output with a high latch (10_state.md R33, R36). -/
theorem enabled_eq_and (c : Config) (g : Gpio) (k : Fin 4) :
    enabled c g k = (decide (g.function c.digId[k] = fnOutput) && g.out.getLsbD c.digId[k]) := by
  simp [enabled, Gpio.line]

/-- A low latch enables nothing, whatever the function of its pin. -/
theorem allDark_of_low {c : Config} {g : Gpio} (h : ∀ k : Fin 4, g.out.getLsbD c.digId[k] = false) : AllDark c g := by
  intro k
  rw [enabled_eq_and, h k, Bool.and_false]

theorem AllDark.atMostOne {c : Config} {g : Gpio} (h : AllDark c g) : AtMostOneEnabled c g := by
  intro j k hj _
  rw [h j] at hj
  cases hj

/-- With one position alone possibly enabled at most one is. -/
theorem atMostOne_of_only {c : Config} {g : Gpio} (d : Fin 4) (h : ∀ k : Fin 4, k ≠ d → enabled c g k = false) :
    AtMostOneEnabled c g := by
  have honly : ∀ k, enabled c g k = true → k = d := fun k hk => by
    by_contra hne
    rw [h k hne] at hk
    cases hk
  exact fun j k hj hk => (honly j hj).trans (honly k hk).symm

/-- No position is enabled in `g'` that is not enabled in `g`. -/
def LightsNothing (c : Config) (g g' : Gpio) : Prop := ∀ k : Fin 4, enabled c g' k = true → enabled c g k = true

theorem LightsNothing.atMostOne {c : Config} {g g' : Gpio} (h : LightsNothing c g g') (hg : AtMostOneEnabled c g) :
    AtMostOneEnabled c g' := fun j k hj hk => hg j k (h j hj) (h k hk)

/-- The same positions are enabled in `g'` as in `g`. -/
def SameEnables (c : Config) (g g' : Gpio) : Prop := ∀ k : Fin 4, enabled c g' k = enabled c g k

theorem SameEnables.lightsNothing {c : Config} {g g' : Gpio} (h : SameEnables c g g') : LightsNothing c g g' :=
  fun k hk => (h k).symm.trans hk

theorem SameEnables.allDark {c : Config} {g g' : Gpio} (h : SameEnables c g g') (hg : AllDark c g) : AllDark c g' :=
  fun k => (h k).trans (hg k)

/-! ### Set and clear of a slot -/

/-- The enables after the set of a slot: that of the pin it holds goes high, when the pin is an output. -/
theorem enabled_slotSet (i : Nat) (s : State) (ha : Alone s) (k : Fin 4) : enabled s.cfg (slotSet i s).gpio k =
    (enabled s.cfg s.gpio k ||
      decide (s.gpio.function s.cfg.digId[k] = fnOutput) && decide (s.blk.slot i = pinOf s.cfg.digId[k])) := by
  obtain ⟨_, _, _, hv, _⟩ := wiring s.cfg ha.1
  have hval := pinOf_val s.cfg.digId[k] (hv k)
  have hout := slotSet_out i s ha (Fin.ofNat 64 s.cfg.digId[k]) (hval.le.trans (hv k))
  rw [hval] at hout
  rw [enabled_eq_and, enabled_eq_and, function_fsel (slotSet_fsel i s ha), hout, Bool.and_or_distrib_left]
  rfl

/-- The enables after the clear of a slot: that of the pin it holds goes low. -/
theorem enabled_slotClear (i : Nat) (s : State) (ha : Alone s) (k : Fin 4) : enabled s.cfg (slotClear i s).gpio k =
    (enabled s.cfg s.gpio k && !decide (s.blk.slot i = pinOf s.cfg.digId[k])) := by
  obtain ⟨_, _, _, hv, _⟩ := wiring s.cfg ha.1
  have hval := pinOf_val s.cfg.digId[k] (hv k)
  have hout := slotClear_out i s ha (Fin.ofNat 64 s.cfg.digId[k]) (hval.le.trans (hv k))
  rw [hval] at hout
  rw [enabled_eq_and, enabled_eq_and, function_fsel (slotClear_fsel i s ha), hout, Bool.and_assoc]
  rfl

theorem slotClear_lightsNothing (i : Nat) (s : State) (ha : Alone s) :
    LightsNothing s.cfg s.gpio (slotClear i s).gpio := by
  intro k hk
  rw [enabled_slotClear i s ha k, Bool.and_eq_true] at hk
  exact hk.1

/-- A release makes a pin an input or leaves it as it is, and touches no latch. -/
theorem releaseSlot_lightsNothing (i : Nat) (s : State) (ha : Alone s) :
    LightsNothing s.cfg s.gpio (releaseSlot i s).gpio := by
  intro k hk
  obtain ⟨_, _, _, hv, _⟩ := wiring s.cfg ha.1
  obtain ⟨hout, hfun⟩ := releaseSlot_gpio i s ha
  have hval := pinOf_val s.cfg.digId[k] (hv k)
  have hk' := hfun (Fin.ofNat 64 s.cfg.digId[k]) (hval.le.trans (hv k))
  rw [hval] at hk'
  rw [enabled_eq_and, hout, hk'] at hk
  rw [enabled_eq_and]
  split at hk
  · cases hk
  · exact hk

/-- A slot holds no digit pin. -/
def HoldsNoDigit (i : Nat) (s : State) : Prop := ∀ k : Fin 4, s.blk.slot i ≠ pinOf s.cfg.digId[k]

theorem slotSet_sameEnables {i : Nat} {s : State} (ha : Alone s) (hi : HoldsNoDigit i s) :
    SameEnables s.cfg s.gpio (slotSet i s).gpio := by
  intro k
  rw [enabled_slotSet i s ha k, decide_eq_false (hi k), Bool.and_false, Bool.or_false]

theorem slotClear_sameEnables {i : Nat} {s : State} (ha : Alone s) (hi : HoldsNoDigit i s) :
    SameEnables s.cfg s.gpio (slotClear i s).gpio := by
  intro k
  rw [enabled_slotClear i s ha k, decide_eq_false (hi k), Bool.not_false, Bool.and_true]

/-! ### Shifting and latching -/

/-- The slots of the shift register hold its wired pins, which are no digit pins (00_scope.md R7). -/
theorem ShiftPinsReady.holdNoDigit {s : State} (hp : ShiftPinsReady s) (hw : configWf s.cfg = true) :
    HoldsNoDigit slotSer s ∧ HoldsNoDigit slotSrclk s ∧ HoldsNoDigit slotRclk s := by
  obtain ⟨hser, hsrclk, hrclk, _⟩ := hp
  obtain ⟨v0, v1, v2, hv, _, _, _, hne, _⟩ := wiring s.cfg hw
  have hpin : ∀ {i id : Nat}, s.blk.slot i = pinOf id → id ≤ 53 → (∀ k : Fin 4, s.cfg.digId[k] ≠ id) →
      HoldsNoDigit i s := by
    intro i id hslot hid hdig k heq
    have hk := hv k
    exact hdig k (pinOf_injective (by omega) (by omega) (heq.symm.trans hslot))
  exact ⟨hpin hser v0 fun k => (hne k).1, hpin hsrclk v1 fun k => (hne k).2.1, hpin hrclk v2 fun k => (hne k).2.2⟩

/-- Throughout a pulse of a slot that holds no digit pin the enables are as they were. -/
theorem throughout_slotPulse (i : Nat) (s : State) (ha : Alone s) (hi : HoldsNoDigit i s) (g : Gpio)
    (hg : SameEnables s.cfg g s.gpio) : Throughout (SameEnables s.cfg g) s (slotPulse i s) := by
  have hset : SameEnables s.cfg g (slotSet i s).gpio := fun k => (slotSet_sameEnables ha hi k).trans (hg k)
  have ha' : Alone (slotSet i s) := by simpa [Alone] using ha
  have hi' : HoldsNoDigit i (slotSet i s) := by simpa [HoldsNoDigit] using hi
  have hsame := slotClear_sameEnables ha' hi'
  rw [slotSet_cfg] at hsame
  have hclear : SameEnables s.cfg g (slotClear i (slotSet i s)).gpio := fun k => (hsame k).trans (hset k)
  rw [slotPulse_eq]
  exact (throughout_slotSet i s ha hg hset).trans (throughout_slotClear i _ ha' hset hclear)

/-- Throughout a shifted bit the enables are as they were. -/
theorem throughout_shiftBit (b : Bool) (s : State) (ha : Alone s) (hser : HoldsNoDigit slotSer s)
    (hsrclk : HoldsNoDigit slotSrclk s) (g : Gpio) (hg : SameEnables s.cfg g s.gpio) :
    Throughout (SameEnables s.cfg g) s (shiftBit b s) := by
  have hdata : Throughout (SameEnables s.cfg g) s (if b then slotSet slotSer s else slotClear slotSer s) := by
    cases b
    · exact throughout_slotClear slotSer s ha hg fun k => (slotClear_sameEnables ha hser k).trans (hg k)
    · exact throughout_slotSet slotSer s ha hg fun k => (slotSet_sameEnables ha hser k).trans (hg k)
  have hcfg : (if b then slotSet slotSer s else slotClear slotSer s).cfg = s.cfg := by cases b <;> simp
  have hblk : (if b then slotSet slotSer s else slotClear slotSer s).blk = s.blk := by cases b <;> simp
  have hlast := hdata.last
  unfold shiftBit
  generalize (if b then slotSet slotSer s else slotClear slotSer s) = u at *
  have hpulse := throughout_slotPulse slotSrclk u (by rw [Alone, hcfg]; exact ha)
    (by rw [HoldsNoDigit, hcfg, hblk]; exact hsrclk) g (by rw [hcfg]; exact hlast)
  rw [hcfg] at hpulse
  exact hdata.trans hpulse

theorem throughout_shiftBits (n : Nat) (v : Byte) (s : State) (ha : Alone s) (hser : HoldsNoDigit slotSer s)
    (hsrclk : HoldsNoDigit slotSrclk s) (g : Gpio) (hg : SameEnables s.cfg g s.gpio) :
    Throughout (SameEnables s.cfg g) s (shiftBits n v s) := by
  induction n generalizing v s with
  | zero => exact throughout_of_eq rfl rfl rfl hg
  | succ n ih =>
    have hbit := throughout_shiftBit (v.getLsbD 0) s ha hser hsrclk g hg
    have hrest := ih (v >>> 1) (shiftBit (v.getLsbD 0) s) (by simpa [Alone] using ha)
      (by simpa [HoldsNoDigit] using hser) (by simpa [HoldsNoDigit] using hsrclk) (by simpa using hbit.last)
    rw [shiftBit_cfg] at hrest
    exact hbit.trans hrest

end Sys2Proof.Machine
end

section
/-! The enable lines through the stages of MXSW (43_digit_mux.md R117): as they were while the pattern is shifted in, dark
from the clear of the old digit on, and the next digit's alone at the end. -/

namespace Sys2Proof.Machine

open Sys2Proof

/-- What MXSW needs for its digits: no other master, a working Digit Set and the shift register's pins (43_digit_mux.md R116,
R117). -/
structure Switchable (s : State) : Prop where
  alone : Alone s
  mux : MuxWorking s
  shift : ShiftPinsReady s

theorem Switchable.accept {s : State} (h : Switchable s) : Switchable s.accept := ⟨h.alone, h.mux, h.shift⟩

/-- The slot of a position holds the pin of that position and of no other. -/
theorem Switchable.slotDig_iff {s : State} (h : Switchable s) (j k : Fin 4) :
    s.blk.slot (slotDig j) = pinOf s.cfg.digId[k] ↔ k = j := by
  obtain ⟨_, hpins, _⟩ := h.mux
  obtain ⟨_, _, _, hv, _, _, _, _, hinj⟩ := wiring s.cfg h.alone.1
  rw [(hpins j).1]
  refine ⟨fun heq => ?_, fun heq => by rw [heq]⟩
  have hj := hv j
  have hk := hv k
  by_contra hne
  exact hinj k j hne (pinOf_injective (by omega) (by omega) heq.symm)

/-- While the pattern is shifted in the enables are as they were. -/
theorem Switchable.throughout_shifted {s : State} (h : Switchable s) :
    Throughout (SameEnables s.cfg s.gpio) s s.mxShifted := by
  obtain ⟨hser, hsrclk, _⟩ := h.shift.holdNoDigit h.alone.1
  have hanswer : Throughout (SameEnables s.cfg s.gpio) s (patternAnswered s) :=
    throughout_of_eq (patternAnswered_cfg s) (patternAnswered_trace s) (patternAnswered_gpio s) fun _ => rfl
  have hshift := throughout_shiftBits 8 (hostPattern (s.blk.cursor + 1) s) (patternAnswered s)
    (by simpa [Alone] using h.alone) (by simpa [HoldsNoDigit] using hser) (by simpa [HoldsNoDigit] using hsrclk) s.gpio
    (by simpa using hanswer.last)
  rw [patternAnswered_cfg] at hshift
  exact hanswer.trans hshift

/-- After the clear of the old digit no position is enabled. -/
theorem Switchable.darkened_allDark {s : State} (h : Switchable s) : AllDark s.cfg s.mxDarkened.gpio := by
  intro k
  obtain ⟨_, _, honly⟩ := h.mux
  have hclear := enabled_slotClear (slotDig s.blk.cursor) s.mxShifted (by simpa [Alone] using h.alone) k
  simp only [State.mxShifted_cfg, State.mxShifted_blk, h.slotDig_iff] at hclear
  rw [State.mxDarkened, hclear, h.throughout_shifted.last k]
  by_cases hk : k = s.blk.cursor
  · simp [hk]
  · simp [honly k hk]

/-- While the pattern is latched no position is enabled (70_reset_and_hazards.md R153). -/
theorem Switchable.throughout_latched {s : State} (h : Switchable s) :
    Throughout (AllDark s.cfg) s.mxDarkened s.mxLatched := by
  obtain ⟨_, _, hrclk⟩ := h.shift.holdNoDigit h.alone.1
  have hpulse := throughout_slotPulse slotRclk s.mxDarkened (by simpa [Alone] using h.alone)
    (by simpa [HoldsNoDigit] using hrclk) s.mxDarkened.gpio fun _ => rfl
  rw [State.mxDarkened_cfg] at hpulse
  exact hpulse.mono fun _ hsame => hsame.allDark h.darkened_allDark

/-- At the end the next digit alone is enabled. -/
theorem Switchable.enabled_switched {s : State} (h : Switchable s) (k : Fin 4) :
    enabled s.cfg s.mxSwitched.gpio k = decide (k = s.blk.cursor + 1) := by
  obtain ⟨_, hpins, _⟩ := h.mux
  have hfun : s.mxLatched.gpio.function s.cfg.digId[k] = fnOutput := by
    have hfsel : s.mxSwitched.gpio.fsel = s.mxLatched.gpio.fsel := slotSet_fsel _ _ (by simpa [Alone] using h.alone)
    rw [← function_fsel hfsel, function_fsel (mxSwitched_fsel s h.alone), (hpins k).2]
  have hset := enabled_slotSet (slotDig (s.blk.cursor + 1)) s.mxLatched (by simpa [Alone] using h.alone) k
  simp only [State.mxLatched_cfg, State.mxLatched_blk, h.slotDig_iff, hfun] at hset
  rw [State.mxSwitched, hset, h.throughout_latched.last k]
  simp

/-- At no time during MXSW are two positions enabled (43_digit_mux.md R117). -/
theorem Switchable.throughout_switched {s : State} (h : Switchable s) :
    Throughout (AtMostOneEnabled s.cfg) s s.mxSwitched := by
  obtain ⟨_, _, honly⟩ := h.mux
  have hstart : AtMostOneEnabled s.cfg s.gpio := atMostOne_of_only s.blk.cursor honly
  have hshifted : Throughout (AtMostOneEnabled s.cfg) s s.mxShifted :=
    h.throughout_shifted.mono fun _ hsame => hsame.lightsNothing.atMostOne hstart
  have hdarkened : Throughout (AtMostOneEnabled s.cfg) s.mxShifted s.mxDarkened :=
    throughout_slotClear _ _ (by simpa [Alone] using h.alone) hshifted.last h.darkened_allDark.atMostOne
  have hlatched : Throughout (AtMostOneEnabled s.cfg) s.mxDarkened s.mxLatched :=
    h.throughout_latched.mono fun _ hdark => hdark.atMostOne
  have hnext : AtMostOneEnabled s.cfg s.mxSwitched.gpio := atMostOne_of_only (s.blk.cursor + 1) fun k hk => by
    rw [h.enabled_switched k, decide_eq_false hk]
  have hswitched : Throughout (AtMostOneEnabled s.cfg) s.mxLatched s.mxSwitched :=
    throughout_slotSet _ _ (by simpa [Alone] using h.alone) hlatched.last hnext
  exact ((hshifted.trans hdarkened).trans hlatched).trans hswitched

/-- After MXSW exactly the cursor's digit is enabled (43_digit_mux.md R117). -/
theorem Switchable.enabled_ran {s : State} (h : Switchable s) (k : Fin 4) :
    enabled (s.ran .mxsw).cfg (s.ran .mxsw).gpio k = decide (k = (s.ran .mxsw).blk.cursor) := by
  obtain ⟨hgpio, _, _, hcfg, hblk⟩ := ran_mxsw s
  rw [hcfg, hgpio, hblk]
  exact h.accept.enabled_switched k

end Sys2Proof.Machine
end

section
/-! At most one digit is lit at any time (43_digit_mux.md R117): MXTD only ever darkens, and MXINIT lowers the four latches
before it makes their pins outputs. -/

namespace Sys2Proof.Machine

open Sys2Proof

/-- A state of the command, under its configuration and without another master, with at most one position enabled. -/
structure AtMostOneLit (c : Config) (t : State) : Prop where
  cfg : t.cfg = c
  alone : Alone t
  atMostOne : AtMostOneEnabled c t.gpio

/-- An operation that lights nothing keeps at most one position enabled. -/
theorem AtMostOneLit.of_lightsNothing {c : Config} {t u : State} (h : AtMostOneLit c t) (hcfg : u.cfg = t.cfg)
    (hl : LightsNothing t.cfg t.gpio u.gpio) : AtMostOneLit c u := by
  obtain ⟨rfl, ha, hone⟩ := h
  exact ⟨hcfg, by rw [Alone, hcfg]; exact ha, hl.atMostOne hone⟩

/-! ### MXTD -/

theorem throughout_clearSlots (l : List Nat) (s : State) (h : AtMostOneLit s.cfg s) :
    Throughout (AtMostOneEnabled s.cfg) s (clearSlots l s) ∧ AtMostOneLit s.cfg (clearSlots l s) := by
  refine throughout_foldl (AtMostOneLit s.cfg) slotClear (fun t ht => ht.atMostOne) (fun i t ht => ?_) l s h
  have hnext := ht.of_lightsNothing (slotClear_cfg i t) (slotClear_lightsNothing i t ht.alone)
  exact ⟨throughout_slotClear i t ht.alone ht.atMostOne hnext.atMostOne, hnext⟩

theorem throughout_releaseAll (l : List Nat) (s : State) (c : Config) (h : AtMostOneLit c s) :
    Throughout (AtMostOneEnabled c) s (releaseAll l s) ∧ AtMostOneLit c (releaseAll l s) := by
  refine throughout_foldl (AtMostOneLit c) releaseSlot (fun t ht => ht.atMostOne) (fun i t ht => ?_) l s h
  have hnext := ht.of_lightsNothing (releaseSlot_cfg i t) (releaseSlot_lightsNothing i t ht.alone)
  exact ⟨throughout_releaseSlot i t ht.alone ht.atMostOne hnext.atMostOne, hnext⟩

/-- At no time during MXTD are two positions enabled, when at most one was before it. -/
theorem throughout_ran_mxtd (s : State) (ha : Alone s) (h : AtMostOneEnabled s.cfg s.gpio) :
    Throughout (AtMostOneEnabled s.cfg) s.accept (s.ran .mxtd) := by
  obtain ⟨hgpio, htrace, _, hcfg, _⟩ := ran_mxtd s
  obtain ⟨hclears, hlit⟩ := throughout_clearSlots mxtdClears s.accept ⟨rfl, ha, h⟩
  obtain ⟨hreleases, _⟩ := throughout_releaseAll mxtdReleases (clearSlots mxtdClears s.accept) s.cfg hlit
  have hall := hclears.trans hreleases
  have hcfg' : (releaseAll mxtdReleases (clearSlots mxtdClears s.accept)).cfg = s.cfg := by
    obtain ⟨hkeep, _⟩ := releaseAll_keeps mxtdReleases (clearSlots mxtdClears s.accept)
    rw [hkeep, clearSlots_cfg, State.accept_cfg]
  exact hall.trans (throughout_of_eq (hcfg.trans hcfg'.symm) htrace hgpio hall.last)

/-! ### MXINIT -/

/-- A clear of a pin lights nothing. -/
theorem clearIO_lightsNothing (id : Nat) (s : State) (ha : Alone s) :
    LightsNothing s.cfg s.gpio (clearIO id s).gpio := by
  intro k hk
  obtain ⟨_, _, _, hv, _⟩ := wiring s.cfg ha.1
  by_cases hid : id ≤ 53
  · rw [enabled_eq_and, function_fsel (clearIO_fsel id s ha), clearIO_gpio id s ha.1 ha.2 hid, out_clear _ _ _ (hv k),
      ← Bool.and_assoc, Bool.and_eq_true] at hk
    rw [enabled_eq_and]
    exact hk.1
  · rwa [clearIO_invalid id s hid] at hk

theorem throughout_clearAll (ids : List Nat) (s : State) (h : AtMostOneLit s.cfg s) :
    Throughout (AtMostOneEnabled s.cfg) s (clearAll ids s) := by
  refine (throughout_foldl (AtMostOneLit s.cfg) clearIO (fun t ht => ht.atMostOne) (fun id t ht => ?_) ids s h).1
  have hnext := ht.of_lightsNothing (clearIO_cfg id t) (clearIO_lightsNothing id t ht.alone)
  exact ⟨throughout_clearIO id t ht.alone ht.atMostOne hnext.atMostOne, hnext⟩

/-- A state of the command, under its configuration and without another master, with the latches of the four digit pins
low. -/
structure DigitsLow (c : Config) (t : State) : Prop where
  cfg : t.cfg = c
  alone : Alone t
  low : ∀ k : Fin 4, t.gpio.out.getLsbD c.digId[k] = false

theorem DigitsLow.atMostOne {c : Config} {t : State} (h : DigitsLow c t) : AtMostOneEnabled c t.gpio :=
  (allDark_of_low h.low).atMostOne

/-- Programming functions touches no latch, and so lights nothing while the digits' latches are low. -/
theorem throughout_programAll (fn : BitVec 3) (ids : List Nat) (c : Config) (s : State) (h : DigitsLow c s) :
    Throughout (AtMostOneEnabled c) s (programAll fn ids s) := by
  refine (throughout_foldl (DigitsLow c) (fun id t => programFunction id fn t) (fun t ht => ht.atMostOne)
    (fun id t ht => ?_) ids s h).1
  have hout := programFunction_out id fn t ht.alone.1 ht.alone.2
  have hnext : DigitsLow c (programFunction id fn t) :=
    ⟨by rw [programFunction_cfg, ht.cfg], by simpa [Alone] using ht.alone, by rw [hout]; exact ht.low⟩
  exact ⟨throughout_programFunction id fn t ht.alone ht.atMostOne hnext.atMostOne, hnext⟩

/-- At no time during the construction of the digit pins are two positions enabled, when at most one was before it. -/
theorem throughout_construct (c : Config) (s : State) (h : AtMostOneLit c s) :
    Throughout (AtMostOneEnabled c) s (construct (digIds c) s) := by
  obtain ⟨rfl, ha, hone⟩ := h
  obtain ⟨hcfg, _⟩ := clearAll_keeps (digIds s.cfg) s
  obtain ⟨_, _, _, hv, _⟩ := wiring s.cfg ha.1
  obtain ⟨_, hout⟩ := clearAll_gpio (digIds s.cfg) s ha (digIds_valid s.cfg ha.1)
  have hlow : DigitsLow s.cfg (clearAll (digIds s.cfg) s) :=
    ⟨hcfg, by rw [Alone, hcfg]; exact ha, fun k => by
      rw [hout _ (hv k), decide_eq_true (mem_digIds s.cfg k), Bool.not_true, Bool.and_false]⟩
  exact (throughout_clearAll (digIds s.cfg) s ⟨rfl, ha, hone⟩).trans
    (throughout_programAll fnOutput (digIds s.cfg) s.cfg _ hlow)

/-- At no time during MXINIT are two positions enabled, when at most one was before it. -/
theorem throughout_ran_mxinit (s : State) (ha : Alone s) (h : AtMostOneEnabled s.cfg s.gpio) :
    Throughout (AtMostOneEnabled s.cfg) s.accept (s.ran .mxinit) := by
  obtain ⟨hgpio, htrace, _, hcfg⟩ := ran_mxinit s
  obtain ⟨hcfg', _⟩ := construct_keeps (digIds s.cfg) s.accept.mxFilled
  rw [State.mxFilled_cfg, State.accept_cfg] at hcfg'
  have hfilled : Throughout (AtMostOneEnabled s.cfg) s.accept s.accept.mxFilled :=
    throughout_of_eq (State.mxFilled_cfg _) (State.mxFilled_trace _) (State.mxFilled_gpio _) h
  have hall := hfilled.trans (throughout_construct s.cfg s.accept.mxFilled
    ⟨by simp, by simpa [Alone] using ha, hfilled.last⟩)
  exact hall.trans (throughout_of_eq (hcfg.trans hcfg'.symm) htrace hgpio hall.last)

/-! ### MXSW -/

theorem throughout_ran_mxsw (s : State) (h : Switchable s) :
    Throughout (AtMostOneEnabled s.cfg) s.accept (s.ran .mxsw) := by
  obtain ⟨hgpio, htrace, _, hcfg, _⟩ := ran_mxsw s
  have hall : Throughout (AtMostOneEnabled s.cfg) s.accept s.accept.mxSwitched := h.accept.throughout_switched
  exact hall.trans (throughout_of_eq (hcfg.trans (State.mxSwitched_cfg s.accept).symm) htrace hgpio hall.last)

/-! ### Whatever the command answers -/

/-- A command makes no bus access, or no check stops it and it runs (60_exceptions.md R136). -/
theorem exec_silent_or_runs (i : Instr) (s : State) :
    (∃ t, exec i s = .next t ∧ t.trace = [] ∧ t.gpio = s.gpio) ∨
    (firstFault (commandChecks i s) = none ∧ exec i s = .next (s.ran i)) := by
  rw [exec_eq_frame]
  rcases frame_cases i s (commandChecks i s) (commandBody i) with ⟨_, _, e⟩ | ⟨c, e⟩ | ⟨_, hc, e⟩
  · exact .inl ⟨_, congrArg _ e, rfl, rfl⟩
  · exact .inl ⟨_, congrArg _ e, rfl, rfl⟩
  · exact .inr ⟨hc, congrArg _ e⟩

/-- A property of the peripheral before a command that holds throughout its run holds after any number of its events,
whatever it answers. -/
theorem exec_keeps {P : Gpio → Prop} (i : Instr) (s : State) (hP : P s.gpio)
    (hrun : firstFault (commandChecks i s) = none → Throughout P s.accept (s.ran i)) :
    ∃ t, exec i s = .next t ∧ t.gpio = replay s.cfg s.gpio t.trace ∧ ∀ n, P (replay s.cfg s.gpio (t.trace.take n)) := by
  rcases exec_silent_or_runs i s with ⟨t, he, htrace, hgpio⟩ | ⟨hc, he⟩
  · refine ⟨t, he, by rw [htrace]; exact hgpio, fun n => ?_⟩
    rw [htrace, List.take_nil]
    exact hP
  · have hall := hrun hc
    exact ⟨_, he, hall.replay_eq rfl, hall.replay_take rfl⟩

/-- Settles O50: of the three commands MXTD only darkens, MXINIT claims pins whose latches are low, and MXSW goes through its
stages. -/
theorem neverTwoDigitsLit : Obligations.NeverTwoDigitsLit := by
  intro s ha _ hworking hdark i hi
  have hstart : AtMostOneEnabled s.cfg s.gpio := by
    cases hm : s.blk.mxLive with
    | false => exact (hdark hm).atMostOne
    | true =>
      obtain ⟨_, _, honly⟩ := hworking hm
      exact atMostOne_of_only s.blk.cursor honly
  refine exec_keeps i s hstart fun hc => ?_
  rcases hi with rfl | rfl | ⟨rfl, hp⟩
  · exact throughout_ran_mxinit s ha hstart
  · exact throughout_ran_mxtd s ha hstart
  · obtain ⟨hm, _⟩ := (mxswChecks_iff s).mp hc
    exact throughout_ran_mxsw s ⟨ha, hworking hm, hp⟩

end Sys2Proof.Machine
end

section
/-! The latch pulse in the dark (43_digit_mux.md R117, 70_reset_and_hazards.md R153) and the pattern on the display (R118). -/

namespace Sys2Proof.Machine

open Sys2Proof

/-! ### How many events -/

theorem setEvents_length (c : Config) (id : Nat) (hid : id ≤ 53) : (setEvents c id).length = 1 := by
  rw [setEvents, resolveLevel_valid id hid]
  rfl

/-- Set and clear of a slot that holds a valid pin have one event each (41_pin.md R90, R91, R93). -/
theorem slotTraces_length {c : Config} {b : Block} {i id : Nat} (hs : b.slot i = pinOf id) (hid : id ≤ 53) :
    (setTrace c b i).length = 1 ∧ (clearTrace c b i).length = 1 := by
  have hval := pinOf_val id hid
  rw [setTrace, clearTrace, hs]
  exact ⟨setEvents_length c _ (hval.le.trans hid), clearEvents_length c _ (hval.le.trans hid)⟩

theorem pulseTrace_length {c : Config} {b : Block} {i id : Nat} (hs : b.slot i = pinOf id) (hid : id ≤ 53) :
    (pulseTrace c b i).length = 2 := by
  obtain ⟨hset, hclear⟩ := slotTraces_length (c := c) hs hid
  rw [pulseTrace, List.length_append, hset, hclear]

/-- `ShiftOut` through slots that hold valid pins has three events for each of the eight bits (42_shift_register.md R103). -/
theorem shiftTrace_length {c : Config} {b : Block} {ser srclk : Nat} (v : Byte) (h0 : b.slot slotSer = pinOf ser)
    (hv0 : ser ≤ 53) (h1 : b.slot slotSrclk = pinOf srclk) (hv1 : srclk ≤ 53) : (shiftTrace c b v).length = 24 := by
  obtain ⟨hset, hclear⟩ := slotTraces_length (c := c) h0 hv0
  have hbit : ∀ i, ((if v.getLsbD i then setTrace c b slotSer else clearTrace c b slotSer) ++
      pulseTrace c b slotSrclk).length = 3 := fun i => by
    rw [List.length_append, pulseTrace_length h1 hv1]
    split
    · rw [hset]
    · rw [hclear]
  simp only [shiftTrace, List.length_flatMap, hbit]
  rfl

/-! ### The latch pulse -/

/-- Settles O51: the 28 events are those of the stages, and from the clear of the old digit to the end of the latch pulse the
display is dark. -/
theorem latchHappensInTheDark : Obligations.LatchHappensInTheDark := by
  intro s ha hr hl _ hmux hp
  have h : Switchable s := ⟨ha, hmux, hp⟩
  obtain ⟨hm, hpins, _⟩ := hmux
  obtain ⟨hser, hsrclk, hrclk, _⟩ := hp
  obtain ⟨v0, v1, v2, hv, _⟩ := wiring s.cfg ha.1
  obtain ⟨_, hclear⟩ := slotTraces_length (c := s.cfg) (hpins s.blk.cursor).1 (hv _)
  obtain ⟨hset, _⟩ := slotTraces_length (c := s.cfg) (hpins (s.blk.cursor + 1)).1 (hv _)
  have hshift := shiftTrace_length (c := s.cfg) (hostPattern (s.blk.cursor + 1) s) hser v0 hsrclk v1
  have hpulse := pulseTrace_length (c := s.cfg) hrclk v2
  have htrace := ran_mxsw_trace s ha.1
  have hstart : (shiftTrace s.cfg s.blk (hostPattern (s.blk.cursor + 1) s) ++
      clearTrace s.cfg s.blk (slotDig s.blk.cursor)).length = 25 := by rw [List.length_append, hshift, hclear]
  have hdark : ∀ m, m ≤ 2 → AllDark s.cfg (replay s.cfg s.gpio ((s.ran .mxsw).trace.take (25 + m))) := by
    intro m hm2
    have hlatch := h.accept.throughout_latched.replay_take (latch_trace s.accept.mxDarkened (by simpa using ha.1)) m
    rw [State.mxDarkened_cfg, State.mxDarkened_blk, mxDarkened_replay s.accept h.accept.alone, ← replay_append] at hlatch
    rw [htrace, List.append_assoc, ← hstart, List.take_length_add_append,
      List.take_append_of_le_length (by rw [hpulse]; exact hm2)]
    exact hlatch
  refine ⟨s.ran .mxsw, exec_mxsw s hr hm hl, ?_, hdark 0 (by decide), hdark 1 (by decide), hdark 2 (by decide),
    h.enabled_ran⟩
  rw [htrace, List.length_append, List.length_append, hstart, hpulse, hset]

/-! ### The display -/

/-- Settles O52: the output latch holds the host's pattern, and the cursor's digit alone is enabled. -/
theorem switchShowsThePattern : Obligations.SwitchShowsThePattern := by
  intro s ha hr hl _ hmux hp hc
  have h : Switchable s := ⟨ha, hmux, hp⟩
  have hquiet := (quiet_of_clocksLow s ha hp hc).accept
  obtain ⟨hm, hpins, _⟩ := hmux
  obtain ⟨_, _, hext, _⟩ := mxsw_body_quiet s.accept hquiet hpins
  obtain ⟨_, _, _, _, hblk⟩ := ran_mxsw s
  have hlat : (s.ran .mxsw).ext.lat = hostPattern (s.ran .mxsw).blk.cursor s := by
    rw [hblk, State.ran, State.respond_ext, commandBody, hext]
    rfl
  refine ⟨s.ran .mxsw, exec_mxsw s hr hm hl, hlat, fun k j => ?_⟩
  rw [lit, segmentOut, hlat, h.enabled_ran k]

end Sys2Proof.Machine
end

section
/-! The digits in turn (43_digit_mux.md R116): MXINIT leaves a dark display with the cursor on the last digit, and every MXSW
lights the next digit alone. -/

namespace Sys2Proof.Machine

open Sys2Proof

/-- The display after `n` switches: it can be switched again, and digit `(n - 1) mod 4` is lit alone, none for `n = 0`
(43_digit_mux.md R116). -/
structure AfterSwitches (n : Nat) (s : State) : Prop where
  switchable : Switchable s
  ready : Ready s
  srLive : s.blk.srLive = true
  ok : s.blk.rspStatus = .ok
  cursor : s.blk.cursor.val = (n + 3) % 4
  lit : ∀ k : Fin 4, enabled s.cfg s.gpio k = decide (1 ≤ n ∧ k.val = (n - 1) % 4)

/-- MXSW keeps what it needs for its digits. -/
theorem Switchable.ran {s : State} (h : Switchable s) : Switchable (s.ran .mxsw) := by
  have hlit := h.enabled_ran
  obtain ⟨ha, ⟨hm, hpins, _⟩, hser, hsrclk, hrclk, fser, fsrclk, frclk⟩ := h
  obtain ⟨hgpio, _, _, hcfg, hblk⟩ := ran_mxsw s
  have hfun : ∀ id, (s.ran .mxsw).gpio.function id = s.gpio.function id :=
    function_fsel (by rw [hgpio]; exact mxSwitched_fsel s.accept ha)
  have hslot : ∀ j, (s.ran .mxsw).blk.slot j = s.blk.slot j := fun j => by rw [hblk]; rfl
  refine ⟨by rw [Alone, hcfg]; exact ha, ⟨by rw [hblk]; exact hm, fun k => ?_, fun k hk => ?_⟩, ?_⟩
  · rw [hslot, hcfg, hfun]
    exact hpins k
  · rw [hlit k, decide_eq_false hk]
  · simp only [ShiftPinsReady, hslot, hcfg, hfun]
    exact ⟨hser, hsrclk, hrclk, fser, fsrclk, frclk⟩

/-- One more switch lights the next digit. -/
theorem AfterSwitches.next {n : Nat} {s : State} (h : AfterSwitches n s) :
    exec .mxsw s = .next (s.ran .mxsw) ∧ AfterSwitches (n + 1) (s.ran .mxsw) := by
  obtain ⟨_, _, hhost, _, hblk⟩ := ran_mxsw s
  have hcursor : (s.ran .mxsw).blk.cursor.val = n % 4 := by
    rw [hblk]
    show (s.blk.cursor + 1).val = n % 4
    rw [Fin.val_add, h.cursor]
    show ((n + 3) % 4 + 1) % 4 = n % 4
    omega
  have hmapped : (s.ran .mxsw).host.mapped = true := by rw [hhost, patternAnswered_host]; exact h.ready.2
  refine ⟨exec_mxsw s h.ready h.switchable.mux.1 h.srLive, h.switchable.ran, ⟨by rw [hblk]; exact h.ready.1, hmapped⟩,
    by rw [hblk]; exact h.srLive, by rw [hblk]; rfl, by omega, fun k => ?_⟩
  rw [h.switchable.enabled_ran k]
  simp only [Fin.ext_iff, hcursor, Nat.le_add_left, true_and, Nat.add_sub_cancel]

/-- Any number of further switches. -/
theorem AfterSwitches.more {n : Nat} (m : Nat) {s t : State} (h : AfterSwitches n s)
    (he : execAll (List.replicate m .mxsw) s = .next t) : AfterSwitches (n + m) t := by
  induction m generalizing n s with
  | zero =>
    injection he with he
    exact he ▸ h
  | succ m ih =>
    obtain ⟨hstep, hnext⟩ := h.next
    rw [List.replicate_succ, execAll, hstep] at he
    rw [← Nat.add_assoc, Nat.add_right_comm]
    exact ih hnext he

/-- The pins of the shift register are no digit pins (00_scope.md R7). -/
theorem shiftId_not_mem_digIds (c : Config) (hw : configWf c = true) :
    c.serId ∉ digIds c ∧ c.srclkId ∉ digIds c ∧ c.rclkId ∉ digIds c := by
  obtain ⟨_, _, _, _, _, _, _, hne, _⟩ := wiring c hw
  simp only [mem_digIds_iff, not_exists]
  exact ⟨fun k => (hne k).1.symm, fun k => (hne k).2.1.symm, fun k => (hne k).2.2.symm⟩

/-- MXINIT leaves the four digits dark and the cursor on the last one (43_digit_mux.md R113, R116). -/
theorem afterSwitches_ran_mxinit (s : State) (ha : Alone s) (hr : Ready s) (hl : s.blk.srLive = true)
    (hp : ShiftPinsReady s) : AfterSwitches 0 (s.ran .mxinit) := by
  obtain ⟨_, _, hhost, hcfg⟩ := ran_mxinit s
  have hblk := ran_mxinit_blk s
  have hgpio := ran_mxinit_gpio s ha
  obtain ⟨v0, v1, v2, hv, _⟩ := wiring s.cfg ha.1
  obtain ⟨n0, n1, n2⟩ := shiftId_not_mem_digIds s.cfg ha.1
  have hdark : AllDark s.cfg (s.ran .mxinit).gpio := allDark_of_low fun k => by
    rw [(hgpio _ (hv k)).2, decide_eq_true (mem_digIds s.cfg k), Bool.not_true, Bool.and_false]
  have hpins : DigitPinsReady (s.ran .mxinit) := fun k => by
    rw [hcfg, (hgpio _ (hv k)).1, if_pos (mem_digIds s.cfg k), ran_mxinit_slot, fill_digitSlots_slotDig]
    exact ⟨rfl, rfl⟩
  have hother : ∀ j, j < 3 → (s.ran .mxinit).blk.slot j = s.blk.slot j := fun j hj => by
    rw [ran_mxinit_slot, fill_digitSlots_ne s.cfg s.blk j fun k => by simp only [slotDig]; omega]
  have hshift : ShiftPinsReady (s.ran .mxinit) := by
    simp only [ShiftPinsReady, slotSer, slotSrclk, slotRclk, hother _ (by decide : 0 < 3), hother _ (by decide : 1 < 3),
      hother _ (by decide : 2 < 3), hcfg, (hgpio _ v0).1, (hgpio _ v1).1, (hgpio _ v2).1, if_neg n0, if_neg n1, if_neg n2]
    exact hp
  refine ⟨⟨by rw [Alone, hcfg]; exact ha, ⟨by rw [hblk], hpins, fun k _ => by rw [hcfg]; exact hdark k⟩, hshift⟩,
    ⟨by rw [hblk]; exact hr.1, by rw [hhost]; exact hr.2⟩, by rw [hblk]; exact hl, by rw [hblk]; rfl, by rw [hblk]; rfl,
    fun k => ?_⟩
  rw [hcfg, hdark k]
  simp

/-- Settles O49: MXINIT leaves the display as after no switch, and every MXSW is one switch more. -/
theorem switchesLightTheDigitsInTurn : Obligations.SwitchesLightTheDigitsInTurn := by
  intro n s s' t ha hr hl _ hp hinit hok hswitches
  obtain rfl := ran_of_ok .mxinit s s' hinit hok
  have h := (afterSwitches_ran_mxinit s ha hr hl hp).more n hswitches
  rw [Nat.zero_add] at h
  exact ⟨h.ok, h.cursor, h.lit⟩

end Sys2Proof.Machine
end

section
/-! The packed time and the segment lookup (44_host_side.md R120, R122, R125 to R127): the nibbles of a packed time are its
decimal digits, and the point clears the point bit of a pattern and no other. -/

namespace Sys2Proof.Machine

open Sys2Proof

/-! ### The packed time -/

/-- The two nibbles of a number's byte: its tens, cut to a nibble, and its units (44_host_side.md R120). -/
theorem bcd_eq_append (x : Nat) : bcd x = BitVec.ofNat 4 (x / 10) ++ BitVec.ofNat 4 (x % 10) := by
  have hunits : x % 10 % 2 ^ 4 < 2 ^ 4 := Nat.mod_lt _ (by decide)
  apply BitVec.eq_of_toNat_eq
  rw [bcd, BitVec.toNat_append, BitVec.toNat_ofNat, BitVec.toNat_ofNat, BitVec.toNat_ofNat,
    ← Nat.shiftLeft_add_eq_or_of_lt (by omega : x % 10 < 2 ^ 4), ← Nat.shiftLeft_add_eq_or_of_lt hunits,
    Nat.shiftLeft_eq, Nat.shiftLeft_eq]
  omega

/-- The nibbles are numbered from the high end (44_host_side.md R122). -/
theorem nibble_append (a b c d : BitVec 4) :
    nibble ((a ++ b) ++ (c ++ d)) 0 = a ∧ nibble ((a ++ b) ++ (c ++ d)) 1 = b ∧
    nibble ((a ++ b) ++ (c ++ d)) 2 = c ∧ nibble ((a ++ b) ++ (c ++ d)) 3 = d := by
  simp only [nibble]
  refine ⟨?_, ?_, ?_, ?_⟩
  · exact (BitVec.extractLsb'_append_eq_of_le (by decide)).trans BitVec.extractLsb'_append_eq_left
  · exact (BitVec.extractLsb'_append_eq_of_le (by decide)).trans BitVec.extractLsb'_append_eq_right
  · exact (BitVec.extractLsb'_append_eq_of_add_le (by decide)).trans BitVec.extractLsb'_append_eq_left
  · exact (BitVec.extractLsb'_append_eq_of_add_le (by decide)).trans BitVec.extractLsb'_append_eq_right

/-- Settles O56: the packed value is the four digits side by side, and each of them fits its nibble. -/
theorem nibblesAreTheTimesDigits : Obligations.NibblesAreTheTimesDigits := by
  intro h m hh hm
  obtain ⟨n0, n1, n2, n3⟩ := nibble_append (.ofNat 4 (h / 10)) (.ofNat 4 (h % 10)) (.ofNat 4 (m / 10)) (.ofNat 4 (m % 10))
  rw [packTime, bcd_eq_append, bcd_eq_append, n0, n1, n2, n3]
  simp only [BitVec.toNat_ofNat]
  omega

/-! ### The segment lookup -/

/-- Outside 0 to 15 the lookup is all segments off (44_host_side.md R125). -/
theorem seg_outside (c : Config) (v : Int) (h : v < 0 ∨ 15 < v) : seg c v = blankPattern := by
  rw [seg, if_neg (by omega)]

/-- Inside 0 to 15 the lookup is an entry of the table (44_host_side.md R125). -/
theorem seg_mem_segTable (c : Config) (v : Int) (h : 0 ≤ v ∧ v ≤ 15) : seg c v ∈ c.segTable.toList := by
  have hlt : v.toNat < 16 := by omega
  rw [seg, if_pos h, Vector.getElem?_eq_getElem hlt, Option.getD_some, Vector.mem_toList_iff]
  exact Vector.getElem_mem hlt

/-- The point bit is 1 in every entry of the table of a well-formed configuration (44_host_side.md R127). -/
theorem configWf_pointBit (c : Config) (hw : configWf c = true) :
    ∀ b ∈ c.segTable.toList, b.getLsbD c.pointBit.val = true := by
  simp only [configWf, Bool.and_eq_true, List.all_eq_true] at hw
  obtain ⟨_, hpoint⟩ := hw
  exact hpoint

/-- The point is off in every pattern of the lookup: it is in the table, and the pattern outside it is all segments off. -/
theorem seg_pointBit (c : Config) (v : Int) (hw : configWf c = true) : (seg c v).getLsbD c.pointBit.val = true := by
  by_cases hv : 0 ≤ v ∧ v ≤ 15
  · exact configWf_pointBit c hw _ (seg_mem_segTable c v hv)
  · rw [seg_outside c v (by omega)]
    have hblank : ∀ i : Fin 8, blankPattern.getLsbD i.val = true := by decide
    exact hblank c.pointBit

/-- The mask of the point at bit `p` has that bit when the point is asked for, and no other (44_host_side.md R126). -/
theorem pointMask_getLsbD (pt : Bool) (p i : Nat) (hi : i < 8) :
    ((BitVec.ofBool pt).setWidth 8 <<< p).getLsbD i = (pt && decide (i = p)) := by
  obtain hlt | rfl | hgt := Nat.lt_trichotomy i p
  · simp [hlt, hlt.ne]
  · simp [hi]
  · simp [hgt.ne', Nat.sub_ne_zero_of_lt hgt]

/-- The bits of a pattern with or without the point (44_host_side.md R126). -/
theorem segp_getLsbD (c : Config) (v : Int) (pt : Bool) (i : Nat) (hi : i < 8) :
    (segp c v pt).getLsbD i = ((seg c v).getLsbD i && !(pt && decide (i = c.pointBit.val))) := by
  rw [segp, BitVec.getLsbD_and, BitVec.getLsbD_not, pointMask_getLsbD pt _ i hi, decide_eq_true hi, Bool.true_and]

/-- Settles O57: the point bit is set in every pattern of the lookup, and the point clears it and no other. -/
theorem pointClearsExactlyOneBit : Obligations.PointClearsExactlyOneBit := by
  intro c v hw
  refine ⟨?_, fun i hi => ?_, seg_outside c v⟩
  · rw [segp_getLsbD c v false _ c.pointBit.isLt, seg_pointBit c v hw]
    rfl
  · simp [segp_getLsbD c v _ i hi]

end Sys2Proof.Machine
end

section
/-! The refresh loop (44_host_side.md R123, R130): its answer on the pattern port, and the MXSW that shifts it out. -/

namespace Sys2Proof.Machine

open Sys2Proof

/-- With no other answer queued, the refresh loop answers from the Display Value (44_host_side.md R130). -/
theorem hostPattern_refresh (next : Fin 4) (s : State) (hp : s.host.phase = .refresh) (ha : s.host.answers = []) :
    hostPattern next s = refreshAnswer s.cfg s.host.display next := by
  simp [hostPattern, hp, ha]

/-- A host with no answer queued is the same after its answer. -/
theorem patternAnswered_host_of_none (s : State) (ha : s.host.answers = []) : (patternAnswered s).host = s.host := by
  have hnone : s.host.answers.tail = s.host.answers := by rw [ha]; rfl
  rw [patternAnswered_host, hnone]

/-- Settles O58: the events of MXSW begin with the shift of the host's answer for the next digit, which the refresh loop
takes from the Display Value. -/
theorem refreshLoopShowsTheDisplayValue : Obligations.RefreshLoopShowsTheDisplayValue := by
  intro s hr hw hm hl hp ha
  obtain ⟨_, _, hhost, _, hblk⟩ := ran_mxsw s
  have hcursor : (s.ran .mxsw).blk.cursor = s.blk.cursor + 1 := by rw [hblk]; rfl
  refine ⟨s.ran .mxsw, exec_mxsw s hr hm hl, hhost.trans (patternAnswered_host_of_none s ha), ?_⟩
  rw [hcursor, ran_mxsw_trace s hw, hostPattern_refresh _ s hp ha, refreshAnswer, List.append_assoc, List.append_assoc]
  exact ⟨_, rfl⟩

end Sys2Proof.Machine
end

section
/-! The host program's commands, one after the other (44_host_side.md R133, 70_reset_and_hazards.md R151): a turn of the
program presents a command, the block takes it whatever it answers, and then the program has its next turn. -/

namespace Sys2Proof.Machine

open Sys2Proof

/-! ### Between two outside inputs -/

/-- A well-configured system whose block takes commands and whose host stands in phase `ph` with `words` presented and no
outside input pending. -/
structure HostAt (ph : HostPhase) (words : List Word) (s : State) : Prop where
  wf : configWf s.cfg = true
  idle : s.blk.busy = false
  inputs : s.host.inputs = []
  port : s.host.port = words
  phase : s.host.phase = ph

/-- With nothing presented and no outside input, a step is a turn of the host program (60_exceptions.md R135). -/
theorem HostAt.step_turn {ph : HostPhase} {s : State} (h : HostAt ph [] s) :
    step s = .next ((otherActs s).onHost (HostSide.turn s.blk)) := by
  have hd : decode s.host.port = .incomplete := by rw [h.port]; rfl
  rw [step_of_wellFormed s h.wf, systemStep_of_incomplete s h.idle hd]
  simp [hostTurn, programTurn, h.inputs, h.port]

/-- A turn that issues a command presents its words (60_exceptions.md R135). -/
theorem HostAt.issues {ph ph' : HostPhase} {s : State} {i : Instr} (h : HostAt ph [] s)
    (hturn : s.host.turn s.blk = s.host.issue i ph') : ∃ t, step s = .next t ∧ HostAt ph' (encode i) t := by
  have hhost : ((otherActs s).onHost (HostSide.turn s.blk)).host = s.host.issue i ph' := by
    rw [State.onHost_host, otherActs_host, hturn]
  refine ⟨_, h.step_turn, ⟨by simpa using h.wf, by simpa using h.idle, ?_, ?_, ?_⟩⟩
  · rw [hhost]; exact h.inputs
  · rw [hhost, HostSide.issue, HostSide.present, h.port, List.nil_append]
  · rw [hhost]; rfl

/-- The block takes the presented command, and whatever it answers the host stands where it stood (60_exceptions.md R136,
R139; log 36). -/
theorem HostAt.taken {ph : HostPhase} {s : State} {i : Instr} (h : HostAt ph (encode i) s) (hi : i.wf = true) :
    ∃ t, step s = .next t ∧ HostAt ph [] t := by
  have hd : decode s.host.port = .command i [] := (decode_eq_command_iff _ _ _).mpr ⟨hi, by rw [h.port, List.append_nil]⟩
  obtain ⟨t, ht⟩ := exec_next i ((otherActs s).withPort [])
  obtain ⟨hcfg, hbusy, _, hport, hinputs, hphase, _⟩ := exec_untouched i _ t ht
  refine ⟨t, ?_, ⟨?_, hbusy, ?_, hport, ?_⟩⟩
  · rw [step_of_wellFormed s h.wf, systemStep_of_command s i [] h.idle hd, ht]
  · rw [hcfg]; simpa using h.wf
  · rw [hinputs]; simpa using h.inputs
  · rw [hphase]; simpa using h.phase

/-- After its last command the process exits with its code (44_host_side.md R134). -/
theorem HostAt.exits {code : Nat} {s : State} (h : HostAt (.leaving code) [] s) :
    ∃ t, step s = .next t ∧ HostAt (.exited code) [] t := by
  have hhost : ((otherActs s).onHost (HostSide.turn s.blk)).host = { s.host with phase := .exited code } := by
    rw [State.onHost_host, otherActs_host, HostSide.turn, h.phase]
  refine ⟨_, h.step_turn, ⟨by simpa using h.wf, by simpa using h.idle, ?_, ?_, by rw [hhost]⟩⟩
  · rw [hhost]; exact h.inputs
  · rw [hhost]; exact h.port

/-! ### The stop -/

/-- With the stop flag set the refresh loop's turn issues MXTD (44_host_side.md R133). -/
theorem turn_refresh_stop (b : Block) (h : HostSide) (hp : h.phase = .refresh) (hs : h.stop = true) :
    h.turn b = h.issue .mxtd .shutdown := by
  rw [HostSide.turn, hp]
  exact if_pos hs

/-- After MXTD the program issues SRTD (70_reset_and_hazards.md R151). -/
theorem turn_shutdown (b : Block) (h : HostSide) (hp : h.phase = .shutdown) : h.turn b = h.issue .srtd (.leaving 0) := by
  rw [HostSide.turn, hp]

/-- A run goes on from the state after its first step. -/
theorem run_succ_of_step (M : Host.Core) (n : Nat) (s t : M.State) (h : M.step s = .next t) :
    M.run (n + 1) s = M.run n t := by rw [Host.Core.run, h]

/-- Settles O60: MXTD and SRTD are each presented in one step and taken in the next, and then the process exits. -/
theorem stopLeadsToTeardown : Obligations.StopLeadsToTeardown := by
  intro s hw hb hport hinputs hp hs
  have h : HostAt .refresh [] s := ⟨hw, hb, hinputs, hport, hp⟩
  obtain ⟨t1, s1, h1⟩ := h.issues (turn_refresh_stop _ _ hp hs)
  obtain ⟨t2, s2, h2⟩ := h1.taken rfl
  obtain ⟨t3, s3, h3⟩ := h2.issues (turn_shutdown _ _ h2.phase)
  obtain ⟨t4, s4, h4⟩ := h3.taken rfl
  obtain ⟨t5, s5, h5⟩ := h4.exits
  have r1 (n : Nat) : Sys2Proof.core.run (n + 1) s = Sys2Proof.core.run n t1 := run_succ_of_step Sys2Proof.core n s t1 s1
  have r3 (n : Nat) : Sys2Proof.core.run (n + 3) s = Sys2Proof.core.run n t3 := by
    rw [r1 (n + 2), run_succ_of_step Sys2Proof.core (n + 1) t1 t2 s2, run_succ_of_step Sys2Proof.core n t2 t3 s3]
  have r5 (n : Nat) : Sys2Proof.core.run (n + 5) s = Sys2Proof.core.run n t5 := by
    rw [r3 (n + 2), run_succ_of_step Sys2Proof.core (n + 1) t3 t4 s4, run_succ_of_step Sys2Proof.core n t4 t5 s5]
  exact ⟨t1, t3, t5, r1 0, r3 0, r5 0, h1.port, h3.port, h5.phase, h5.port⟩

end Sys2Proof.Machine
end

section
/-! The outcomes of a command and of a step, and what they do to the fault code (60_exceptions.md R135 to R142): a faulted
block turns away all but the teardowns, a fault is precise, and the first fault code stands until reset. -/

namespace Sys2Proof.Machine

open Sys2Proof

/-! ### The step of a block that waits, and of one that takes a command -/

/-- Settles O6: on a well-formed configuration the step is the system's, which takes the command at the front of the port;
`Other` has no step when it does not exist. -/
theorem stepRunsTheDecodedCommand : Obligations.StepRunsTheDecodedCommand :=
  fun s i rest hw hb hd =>
    ⟨(step_of_wellFormed s hw).trans (systemStep_of_command s i rest hb hd), otherActs_alone s⟩

/-- Settles O8: while the block is busy only `Other` acts, and it touches neither the block nor the host. -/
theorem busyBlockLetsCommandsWait : Obligations.BusyBlockLetsCommandsWait :=
  fun s hw hb =>
    ⟨otherActs s, (step_of_wellFormed s hw).trans (systemStep_of_busy s hb), otherActs_host s, otherActs_blk s⟩

/-! ### The outcomes of a command -/

/-- A faulted block turns away a command that it does not admit (60_exceptions.md R140). -/
theorem exec_turnedAway (i : Instr) (s : State) (hf : s.blk.fault ≠ 0) (hi : admittedWhileFaulted i = false) :
    exec i s = .next (s.turnedAway (encodeWord0 i)) := by
  rw [exec_eq_frame, frame_refused i s _ _ hf hi]

/-- An admitted command faults with its own word or runs (60_exceptions.md R136, R139). -/
theorem exec_of_admitted (i : Instr) (s : State) (ha : s.blk.fault = 0 ∨ admittedWhileFaulted i = true) :
    (∃ c, exec i s = .next (s.faulted c (encodeWord0 i))) ∨ exec i s = .next (s.ran i) := by
  rw [exec_eq_frame]
  rcases frame_cases i s (commandChecks i s) (commandBody i) with ⟨hf, hi, _⟩ | ⟨c, e⟩ | ⟨_, _, e⟩
  · rcases ha with h0 | hi'
    · exact absurd h0 hf
    · rw [hi] at hi'
      cases hi'
  · exact .inl ⟨c, by rw [e]⟩
  · exact .inr (by rw [e, State.ran])

/-- The commands that a faulted block executes (60_exceptions.md R140). -/
theorem admittedWhileFaulted_iff (i : Instr) :
    admittedWhileFaulted i = true ↔ (∃ k, i = .prel k) ∨ i = .srtd ∨ i = .mxtd := by
  cases i <;> simp [admittedWhileFaulted]

/-- Settles O10: only a command that neither was turned away nor ran answers FAULT, and a fault writes what R139 lists. -/
theorem faultsArePrecise : Obligations.FaultsArePrecise := by
  refine ⟨fun i s => ?_, fun s w0 => accept_raise s .illegalCmd w0⟩
  by_cases ha : s.blk.fault = 0 ∨ admittedWhileFaulted i = true
  · rcases exec_of_admitted i s ha with ⟨c, hfault⟩ | hran
    · exact ⟨_, hfault, fun _ => ⟨c, rfl⟩⟩
    · exact ⟨_, hran, fun hstatus => by cases hstatus⟩
  · obtain ⟨hf, hi⟩ := not_or.mp ha
    exact ⟨_, exec_turnedAway i s hf (Bool.eq_false_of_not_eq_true hi), fun hstatus => by cases hstatus⟩

/-- Settles O13: a window that is not mapped is looked at right after admission, before the command's own checks. -/
theorem unmappedWindowFaultsEveryCommand : Obligations.UnmappedWindowFaultsEveryCommand := by
  intro i s hm ha
  rw [exec_eq_frame, frame_unmapped i s _ _ ha hm]

/-! ### The faulted block -/

/-- A fault keeps a fault code that is set (60_exceptions.md R141). -/
theorem faulted_fault_of_ne (s : State) (c : FaultCode) (w : Word) (hf : s.blk.fault ≠ 0) :
    (s.faulted c w).blk.fault = s.blk.fault := if_neg hf

/-- A fault sets its code where none is set (60_exceptions.md R139). -/
theorem faulted_fault_of_eq (s : State) (c : FaultCode) (w : Word) (hf : s.blk.fault = 0) :
    (s.faulted c w).blk.fault = c.code := if_pos hf

/-- An illegal word answers FAULT and keeps a fault code that is set (60_exceptions.md R140, R141). -/
theorem illegalCommand_keeps_fault (s : State) (w0 : Word) (hf : s.blk.fault ≠ 0) :
    (illegalCommand w0 s).blk.fault = s.blk.fault ∧ (illegalCommand w0 s).blk.rspStatus = .fault := by
  rw [illegalCommand, accept_raise]
  exact ⟨faulted_fault_of_ne s .illegalCmd w0 hf, rfl⟩

/-- Settles O11: admission depends on the command alone, an admitted command faults or runs, and an illegal word comes before
admission. -/
theorem faultedBlockRefusesAllButTeardown : Obligations.FaultedBlockRefusesAllButTeardown := by
  intro s hf
  refine ⟨fun i hprel hsrtd hmxtd => ?_, fun i hi => ?_, fun w0 => (illegalCommand_keeps_fault s w0 hf).symm⟩
  · have hnot : admittedWhileFaulted i = false := by
      rw [← Bool.not_eq_true, admittedWhileFaulted_iff]
      rintro (⟨k, hk⟩ | h | h)
      · exact hprel k hk
      · exact hsrtd h
      · exact hmxtd h
    exact exec_turnedAway i s hf hnot
  · rcases exec_of_admitted i s (.inr ((admittedWhileFaulted_iff i).mpr hi)) with ⟨c, hfault⟩ | hran
    · exact ⟨_, hfault, .inr rfl⟩
    · exact ⟨_, hran, .inl rfl⟩

/-! ### The fault code -/

/-- A command changes the fault code only from 0 to a code of the table, and then answers FAULT (60_exceptions.md R139,
R141). -/
theorem exec_fault_cases (i : Instr) (s t : State) (h : exec i s = .next t) :
    t.blk.fault = s.blk.fault ∨ s.blk.fault = 0 ∧ t.blk.rspStatus = .fault ∧ ∃ c : FaultCode, t.blk.fault = c.code := by
  obtain ⟨_, _, _, _, _, _, _, hfault⟩ := exec_untouched i s t h
  exact hfault

/-- A teardown that finds its component missing, while the block is faulted, answers FAULT and keeps the code
(60_exceptions.md R141). -/
theorem exec_missing_keeps_fault (i : Instr) (s : State) (hi : admittedWhileFaulted i = true) (hf : s.blk.fault ≠ 0)
    (hc : firstFault (commandChecks i s) = some .notInit) :
    ∃ t, exec i s = .next t ∧ t.blk.rspStatus = .fault ∧ t.blk.fault = s.blk.fault := by
  by_cases hm : s.host.mapped = true
  · exact ⟨_, exec_faults i s .notInit ⟨.inr hi, hm⟩ hc, rfl, faulted_fault_of_ne s _ _ hf⟩
  · exact ⟨_, unmappedWindowFaultsEveryCommand i s (Bool.eq_false_of_not_eq_true hm) (.inr hi), rfl,
      faulted_fault_of_ne s _ _ hf⟩

/-- The step takes the reset input: no command is under way or presented whole, and reset is the host's next input
(70_reset_and_hazards.md R148; logs 10 and 29). -/
def TakesReset (s : State) : Prop :=
  s.blk.busy = false ∧ decode s.host.port = .incomplete ∧ ∃ rest, s.host.inputs = .reset :: rest

/-- Everything a step can do to the fault code: keep it, set it to a code of the table from 0, or clear it when it takes the
reset input (60_exceptions.md R141, 70_reset_and_hazards.md R148). -/
theorem step_fault_cases (s t : State) (h : step s = .next t) :
    t.blk.fault = s.blk.fault ∨ (s.blk.fault = 0 ∧ ∃ c : FaultCode, t.blk.fault = c.code) ∨
      (TakesReset s ∧ t.blk.fault = 0) := by
  obtain ⟨hw, _⟩ := step_cases s t h
  rw [step_of_wellFormed s hw] at h
  cases hb : s.blk.busy with
  | true =>
    rw [systemStep_of_busy s hb] at h
    obtain rfl := Host.Outcome.next.inj h
    exact .inl (by rw [otherActs_blk])
  | false =>
    cases hd : decode s.host.port with
    | command i rest =>
      rw [systemStep_of_command s i rest hb hd] at h
      rcases exec_fault_cases i _ t h with hkept | ⟨hzero, _, hset⟩
      · exact .inl (by simpa using hkept)
      · exact .inr (.inl ⟨by simpa using hzero, hset⟩)
    | illegal why w0 rest =>
      rw [systemStep_of_illegal s why w0 rest hb hd] at h
      obtain rfl := Host.Outcome.next.inj h
      have hblk : ((otherActs s).withPort rest).blk = s.blk := otherActs_blk s
      by_cases hf : s.blk.fault = 0
      · exact .inr (.inl ⟨hf, .illegalCmd, faulted_fault_of_eq _ _ w0 (by rwa [hblk])⟩)
      · exact .inl (by rw [faulted_fault_of_ne _ _ w0 (by rwa [hblk]), hblk])
    | incomplete =>
      rw [systemStep_of_incomplete s hb hd] at h
      obtain rfl := Host.Outcome.next.inj h
      obtain ⟨_, hkept | ⟨⟨rest, hreset⟩, hblk⟩, _⟩ := hostTurn_cases (otherActs s)
      · exact .inl (by rw [hkept, otherActs_blk])
      · exact .inr (.inr ⟨⟨hb, hd, rest, by rwa [otherActs_host] at hreset⟩, by rw [hblk]; rfl⟩)

/-- Settles O12: a command sets a code only where none is set, and of a step's other cases only the reset input writes it. -/
theorem firstFaultIsKeptUntilReset : Obligations.FirstFaultIsKeptUntilReset := by
  refine ⟨fun i s t h hf => ?_, fun i s t h hne => ?_, illegalCommand_keeps_fault,
    fun s hf => ⟨fun hl => ?_, fun hl => ?_⟩, fun s t hf h => ?_, fun _ => rfl⟩
  · exact (exec_fault_cases i s t h).resolve_right fun ⟨hzero, _⟩ => hf hzero
  · obtain ⟨hzero, hstatus, _⟩ := (exec_fault_cases i s t h).resolve_left hne
    exact ⟨hzero, hstatus⟩
  · exact exec_missing_keeps_fault .srtd s rfl hf (srLiveCheck_gone s hl)
  · exact exec_missing_keeps_fault .mxtd s rfl hf (mxtdChecks_gone s hl)
  · rcases step_fault_cases s t h with hkept | ⟨hzero, _⟩ | ⟨⟨hb, hd, hreset⟩, hcleared⟩
    · exact .inl hkept
    · exact absurd hzero hf
    · exact .inr ⟨hb, hd, hreset, hcleared⟩

/-- Settles O14: a step keeps the code, writes one of the table's, or clears it. -/
theorem reservedFaultCodesAreNeverWritten : Obligations.ReservedFaultCodesAreNeverWritten := by
  intro s t hlegal h
  unfold LegalFault at hlegal ⊢
  rcases step_fault_cases s t h with hkept | ⟨_, c, hcode⟩ | ⟨_, hcleared⟩
  · rwa [hkept]
  · rw [hcode]
    exact code_le c
  · rw [hcleared]
    decide

end Sys2Proof.Machine
end

section
/-! Reset (70_reset_and_hazards.md R148, R149), and how many bus accesses each command makes, with how many reads among them
(R164). -/

namespace Sys2Proof.Machine

open Sys2Proof

/-! ### Reset -/

/-- Settles O18: reset writes the block and the trace alone, and every slot of the reset block is `Empty`. -/
theorem resetSetsTheBlockOnly : Obligations.ResetSetsTheBlockOnly :=
  fun _ => ⟨Block.reset_slot, rfl, rfl, rfl, rfl, rfl, rfl, rfl, rfl, rfl, rfl, rfl⟩

/-! ### Accesses and reads of a list of events -/

/-- The events are `accesses` in number, and `reads` of them are reads. -/
def Counts (events : List BusEvent) (accesses reads : Nat) : Prop :=
  events.length = accesses ∧ (readsOf events).length = reads

theorem counts_nil : Counts [] 0 0 := ⟨rfl, rfl⟩

theorem readsOf_append (l l' : List BusEvent) : readsOf (l ++ l') = readsOf l ++ readsOf l' :=
  List.filter_append l l'

theorem Counts.append {l l' : List BusEvent} {a r a' r' : Nat} (h : Counts l a r) (h' : Counts l' a' r') :
    Counts (l ++ l') (a + a') (r + r') := by
  obtain ⟨hlen, hreads⟩ := h
  obtain ⟨hlen', hreads'⟩ := h'
  exact ⟨by rw [List.length_append, hlen, hlen'], by rw [readsOf_append, List.length_append, hreads, hreads']⟩

/-- Runs of events that count alike add up. -/
theorem Counts.flatMap {α : Type} (l : List α) (f : α → List BusEvent) (a r : Nat) (h : ∀ x ∈ l, Counts (f x) a r) :
    Counts (l.flatMap f) (l.length * a) (l.length * r) := by
  induction l with
  | nil => simpa using counts_nil
  | cons x l ih =>
    obtain ⟨hx, hl⟩ := List.forall_mem_cons.mp h
    rw [List.flatMap_cons, List.length_cons, Nat.succ_mul, Nat.succ_mul, Nat.add_comm _ a, Nat.add_comm _ r]
    exact hx.append (ih hl)

/-! ### The pin procedures -/

/-- `SetIO` and `ClearIO` of a valid pin are one write each (41_pin.md R90, R91). -/
theorem levelEvents_counts (c : Config) (id : Nat) (hid : id ≤ 53) :
    Counts (setEvents c id) 1 0 ∧ Counts (clearEvents c id) 1 0 := by
  simp only [setEvents, clearEvents, resolveLevel_valid id hid]
  exact ⟨⟨rfl, rfl⟩, ⟨rfl, rfl⟩⟩

/-- Programming the function of a valid pin is one read and one write (41_pin.md R88, R89). -/
theorem programFunction_counts (id : Nat) (fn : BitVec 3) (s : State) (hw : configWf s.cfg = true) (hid : id ≤ 53)
    (ht : s.trace = []) : Counts (programFunction id fn s).trace 2 1 := by
  obtain ⟨r, htrace, _⟩ := programFunction_trace id fn s hw hid
  rw [htrace, ht]
  exact ⟨rfl, rfl⟩

/-- An effective slot holds a valid pin (10_state.md R16). -/
theorem Slot.pin_of_effective {v : Slot} (h : v.effective = true) : ∃ id : Fin 64, v = .pin id ∧ id.val ≤ 53 := by
  cases v with
  | empty => cases h
  | pin id => exact ⟨id, rfl, of_decide_eq_true h⟩

section
variable {c : Config} {b : Block} {i : Nat}

/-- Set and clear of an effective slot are one write each (41_pin.md R93). -/
theorem slotTraces_counts (h : (b.slot i).effective = true) :
    Counts (setTrace c b i) 1 0 ∧ Counts (clearTrace c b i) 1 0 := by
  obtain ⟨id, hslot, hid⟩ := Slot.pin_of_effective h
  rw [setTrace, clearTrace, hslot]
  exact levelEvents_counts c id.val hid

/-- The pulse of an effective slot is two writes (41_pin.md R92, R93). -/
theorem pulseTrace_counts (h : (b.slot i).effective = true) : Counts (pulseTrace c b i) 2 0 := by
  obtain ⟨hset, hclear⟩ := slotTraces_counts (c := c) h
  exact hset.append hclear

/-- `ShiftOut` through effective slots is three writes for each of the eight bits (42_shift_register.md R103). -/
theorem shiftTrace_counts (v : Byte) (hser : (b.slot slotSer).effective = true)
    (hsrclk : (b.slot slotSrclk).effective = true) : Counts (shiftTrace c b v) 24 0 := by
  obtain ⟨hset, hclear⟩ := slotTraces_counts (c := c) hser
  have hpulse := pulseTrace_counts (c := c) hsrclk
  refine Counts.flatMap (List.range 8) _ 3 0 fun k _ => ?_
  cases v.getLsbD k with
  | true => exact hset.append hpulse
  | false => exact hclear.append hpulse

/-- The release of an effective slot is one read and one write (41_pin.md R89, R93). -/
theorem releaseEvents_counts_effective {events : List BusEvent} (h : (b.slot i).effective = true)
    (he : ReleaseEvents c (b.slot i) events) : Counts events 2 1 := by
  obtain ⟨hlen, hreads⟩ := releaseEvents_counts he
  rw [h] at hlen hreads
  exact ⟨hlen, hreads⟩

end

/-- The construction of `n` valid pins is `n` clears and `n` claims (42_shift_register.md R105, 43_digit_mux.md R113). -/
theorem construct_counts (ids : List Nat) (s : State) (hw : configWf s.cfg = true) (hv : ∀ id ∈ ids, id ≤ 53)
    (ht : s.trace = []) : Counts (construct ids s).trace (3 * ids.length) ids.length := by
  obtain ⟨hcfg, _⟩ := clearAll_keeps ids s
  obtain ⟨claims, hclaims, hlen, hreads⟩ := programAll_trace fnOutput ids (clearAll ids s) (by rw [hcfg]; exact hw) hv
  have hclears : Counts (ids.flatMap (clearEvents s.cfg)) (ids.length * 1) (ids.length * 0) :=
    Counts.flatMap ids _ 1 0 fun id hid => (levelEvents_counts s.cfg id (hv id hid)).2
  obtain ⟨hlen', hreads'⟩ := hclears.append ⟨hlen, hreads⟩
  rw [construct, hclaims, clearAll_trace ids s hw, ht, List.nil_append]
  exact ⟨hlen'.trans (by omega), hreads'.trans (by omega)⟩

/-! ### The commands that run -/

theorem ran_wrf_counts {s : State} (off w p : Nat) (v : Word) (hoff : off < s.cfg.blockWords) :
    Counts (s.ran (.wrf off w p v)).trace 2 1 := by
  have htrace : (s.ran (.wrf off w p v)).trace = _ := maskedWrite_trace off w p v s.accept hoff
  rw [htrace]
  exact ⟨rfl, rfl⟩

theorem ran_rdf_counts {s : State} (off w p : Nat) (hoff : off < s.cfg.blockWords) :
    Counts (s.ran (.rdf off w p)).trace 1 1 := by
  have hbody : rdfBody off w p s.accept =
      (memRead off s.accept).2.setRspData (extract (memRead off s.accept).1 w p) := if_pos hoff
  rw [State.ran, commandBody, hbody, State.respond_trace, State.setRspData_trace, memRead_trace]
  exact ⟨rfl, rfl⟩

theorem ran_pmov_counts {s : State} (dst src : Nat) : Counts (s.ran (.pmov dst src)).trace 0 0 := by
  have htrace : (s.ran (.pmov dst src)).trace = [] := by
    rw [State.ran, commandBody, pmovBody, State.respond_trace]
    split <;> rfl
  rw [htrace]
  exact counts_nil

section
variable {s : State} (hw : configWf s.cfg = true)
include hw

theorem ran_pclm_counts (slot id : Nat) (hid : id ≤ 53) : Counts (s.ran (.pclm slot id)).trace 2 1 :=
  programFunction_counts id fnOutput (s.accept.setSlot slot (pinOf id)) hw hid rfl

theorem ran_prel_counts (slot : Nat) (he : (s.blk.slot slot).effective = true) :
    Counts (s.ran (.prel slot)).trace 2 1 := by
  obtain ⟨id, hslot, hid⟩ := Slot.pin_of_effective he
  rw [State.ran, commandBody, prelBody_pin slot s.accept id hslot]
  exact programFunction_counts id.val fnInput s.accept hw hid rfl

/-- PSET and PCLR make one write each, PPLS two (41_pin.md R96 to R98). -/
theorem ran_level_counts (slot : Nat) (he : (s.blk.slot slot).effective = true) :
    Counts (s.ran (.pset slot)).trace 1 0 ∧ Counts (s.ran (.pclr slot)).trace 1 0 ∧
    Counts (s.ran (.ppls slot)).trace 2 0 := by
  have hset : (s.ran (.pset slot)).trace = setTrace s.cfg s.blk slot := slotSet_trace slot s.accept hw
  have hclear : (s.ran (.pclr slot)).trace = clearTrace s.cfg s.blk slot := slotClear_trace slot s.accept hw
  have hpulse : (s.ran (.ppls slot)).trace = pulseTrace s.cfg s.blk slot := slotPulse_trace slot s.accept hw
  rw [hset, hclear, hpulse]
  obtain ⟨hs, hc⟩ := slotTraces_counts (c := s.cfg) he
  exact ⟨hs, hc, pulseTrace_counts he⟩

theorem ran_srinit_counts : Counts (s.ran .srinit).trace 9 3 := by
  obtain ⟨_, htrace, _⟩ := ran_srinit s
  rw [htrace]
  exact construct_counts (shiftIds s.cfg) s.accept.srFilled hw (shiftIds_valid s.cfg hw) rfl

theorem ran_mxinit_counts : Counts (s.ran .mxinit).trace 12 4 := by
  obtain ⟨_, htrace, _⟩ := ran_mxinit s
  rw [htrace]
  exact construct_counts (digIds s.cfg) s.accept.mxFilled (by simpa using hw) (digIds_valid s.cfg hw) (by simp)

theorem ran_srwr_counts (byte : Nat) (hser : (s.blk.slot slotSer).effective = true)
    (hsrclk : (s.blk.slot slotSrclk).effective = true) : Counts (s.ran (.srwr byte)).trace 24 0 := by
  have htrace : (s.ran (.srwr byte)).trace = shiftTrace s.cfg s.blk (BitVec.ofNat 8 byte) :=
    shiftOut_trace (BitVec.ofNat 8 byte) s.accept hw
  rw [htrace]
  exact shiftTrace_counts _ hser hsrclk

theorem ran_srfl_counts (hrclk : (s.blk.slot slotRclk).effective = true) : Counts (s.ran .srfl).trace 2 0 := by
  have htrace : (s.ran .srfl).trace = pulseTrace s.cfg s.blk slotRclk := latch_trace s.accept hw
  rw [htrace]
  exact pulseTrace_counts hrclk

theorem ran_srtd_counts (hser : (s.blk.slot slotSer).effective = true) (hsrclk : (s.blk.slot slotSrclk).effective = true)
    (hrclk : (s.blk.slot slotRclk).effective = true) : Counts (s.ran .srtd).trace 30 3 := by
  obtain ⟨e2, e1, e0, h2, h1, h0, htrace⟩ := ran_srtd_trace s hw
  rw [htrace]
  exact (((shiftTrace_counts 0xFF hser hsrclk).append (releaseEvents_counts_effective hrclk h2)).append
    (releaseEvents_counts_effective hsrclk h1)).append (releaseEvents_counts_effective hser h0)

theorem ran_mxsw_counts (hser : (s.blk.slot slotSer).effective = true) (hsrclk : (s.blk.slot slotSrclk).effective = true)
    (hrclk : (s.blk.slot slotRclk).effective = true) (hold : (s.blk.slot (slotDig s.blk.cursor)).effective = true)
    (hnext : (s.blk.slot (slotDig (s.blk.cursor + 1))).effective = true) : Counts (s.ran .mxsw).trace 28 0 := by
  rw [ran_mxsw_trace s hw]
  exact (((shiftTrace_counts _ hser hsrclk).append (slotTraces_counts hold).2).append (pulseTrace_counts hrclk)).append
    (slotTraces_counts hnext).1

theorem ran_mxtd_counts (he : ∀ k : Fin 4, (s.blk.slot (slotDig k)).effective = true) :
    Counts (s.ran .mxtd).trace 12 4 := by
  obtain ⟨e3, e2, e1, e0, h3, h2, h1, h0, htrace⟩ := ran_mxtd_trace s hw
  have hclear : ∀ k : Fin 4, Counts (clearTrace s.cfg s.blk (slotDig k)) 1 0 := fun k => (slotTraces_counts (he k)).2
  rw [htrace]
  exact (((((((hclear 0).append (hclear 1)).append (hclear 2)).append (hclear 3)).append
    (releaseEvents_counts_effective (he 3) h3)).append (releaseEvents_counts_effective (he 2) h2)).append
    (releaseEvents_counts_effective (he 1) h1)).append (releaseEvents_counts_effective (he 0) h0)

end

/-! ### The list of the spec -/

/-- A command that does not answer `OK` makes no bus access (70_reset_and_hazards.md R164). -/
theorem trace_of_not_ok (i : Instr) (s t : State) (h : exec i s = .next t) (hne : t.blk.rspStatus ≠ .ok) :
    t.trace = [] := by
  rcases exec_cases i s t h with ⟨w, rfl⟩ | ⟨c, w, rfl⟩ | rfl
  · rfl
  · rfl
  · exact absurd rfl hne

/-- Settles O54: a command that answers `OK` ran, and each command's run has the events of its procedures; every other answer
leaves the trace empty. -/
theorem busAccessCounts : Obligations.BusAccessCounts := by
  intro i s t hw he effective counts
  refine ⟨fun hne => ?_, fun hok => ?_⟩
  · have hcounts : Counts t.trace 0 0 := by
      rw [trace_of_not_ok i s t he hne]
      exact counts_nil
    exact hcounts
  · obtain rfl := ran_of_ok i s t he hok
    refine ⟨?wrf, ?rdf, ?pclm, fun slot hs => ?slot, ?pmov, ?srinit, ?mxinit, ?srwr, ?srfl, ?srtd,
      ?mxsw, ?mxtd⟩
    case wrf => rintro off w p v rfl hoff; exact ran_wrf_counts off w p v hoff
    case rdf => rintro off w p rfl hoff; exact ran_rdf_counts off w p hoff
    case pclm => rintro slot id rfl hid; exact ran_pclm_counts hw slot id hid
    case slot =>
      obtain ⟨hset, hclear, hpulse⟩ := ran_level_counts hw slot hs
      refine ⟨?_, ?_, ?_, ?_⟩
      · rintro rfl; exact ran_prel_counts hw slot hs
      · rintro rfl; exact hset
      · rintro rfl; exact hclear
      · rintro rfl; exact hpulse
    case pmov => rintro dst src rfl; exact ran_pmov_counts dst src
    case srinit => rintro rfl; exact ran_srinit_counts hw
    case mxinit => rintro rfl; exact ran_mxinit_counts hw
    case srwr =>
      rintro byte rfl heff
      exact ran_srwr_counts hw byte (heff _ (by simp)) (heff _ (by simp))
    case srfl => rintro rfl heff; exact ran_srfl_counts hw (heff _ (by simp))
    case srtd => rintro rfl heff; exact ran_srtd_counts hw (heff _ (by simp)) (heff _ (by simp)) (heff _ (by simp))
    case mxsw =>
      rintro rfl heff
      exact ran_mxsw_counts hw (heff _ (by simp)) (heff _ (by simp)) (heff _ (by simp)) (heff _ (by simp))
        (heff _ (by simp))
    case mxtd =>
      rintro rfl heff
      refine ran_mxtd_counts hw fun k => heff _ ?_
      fin_cases k <;> simp

end Sys2Proof.Machine
end

section
/-! The host's boot (70_reset_and_hazards.md R150): SRINIT on the reset block, MXINIT on the block with the Shift Register
Handle alone, and the refresh loop's first turn. -/

namespace Sys2Proof.Machine

open Sys2Proof

/-! ### Turns and commands without another master -/

/-- Without another master a turn that issues a command changes the host's side alone. -/
theorem HostAt.issues_alone {ph ph' : HostPhase} {s : State} {i : Instr} (h : HostAt ph [] s) (ha : Alone s)
    (hturn : s.host.turn s.blk = s.host.issue i ph') :
    step s = .next (s.onHost (HostSide.issue i ph')) ∧ HostAt ph' (encode i) (s.onHost (HostSide.issue i ph')) := by
  have hstep : step s = .next (s.onHost (HostSide.issue i ph')) := by
    rw [h.step_turn, otherActs_alone s ha.2, State.onHost, hturn]
    rfl
  obtain ⟨t, ht, hat⟩ := h.issues hturn
  obtain rfl := Host.Outcome.next.inj (ht.symm.trans hstep)
  exact ⟨hstep, hat⟩

/-- Without another master the step that takes the presented command is that command's execution. -/
theorem HostAt.takes_alone {ph : HostPhase} {s t : State} {i : Instr} (h : HostAt ph (encode i) s) (ha : Alone s)
    (hi : i.wf = true) (he : exec i (s.withPort []) = .next t) : step s = .next t ∧ HostAt ph [] t := by
  have hd : decode s.host.port = .command i [] := (decode_eq_command_iff _ _ _).mpr ⟨hi, by rw [h.port, List.append_nil]⟩
  obtain ⟨hstep, hother⟩ := stepRunsTheDecodedCommand s i [] ha.1 h.idle hd
  rw [hother ha.2, he] at hstep
  obtain ⟨t', ht, hat⟩ := h.taken hi
  obtain rfl := Host.Outcome.next.inj (ht.symm.trans hstep)
  exact ⟨hstep, hat⟩

/-- At boot the host of a mapped window issues SRINIT (70_reset_and_hazards.md R150). -/
theorem turn_boot (b : Block) (h : HostSide) (hp : h.phase = .boot) (hm : h.mapped = true) :
    h.turn b = h.issue .srinit .bootMux := by
  rw [HostSide.turn, hp]
  exact if_pos hm

/-- After SRINIT the host issues MXINIT and enters the refresh loop (70_reset_and_hazards.md R150). -/
theorem turn_bootMux (b : Block) (h : HostSide) (hp : h.phase = .bootMux) : h.turn b = h.issue .mxinit .refresh := by
  rw [HostSide.turn, hp]

/-- Without the stop flag the refresh loop's turn issues MXSW (44_host_side.md R130). -/
theorem turn_refresh_go (b : Block) (h : HostSide) (hp : h.phase = .refresh) (hs : h.stop = false) :
    h.turn b = h.issue .mxsw .refresh := by
  rw [HostSide.turn, hp]
  exact if_neg (by rw [hs]; decide)

/-! ### The two constructions -/

/-- The system between SRINIT and MXINIT of a boot: the Shift Register Handle exists with its pins, and nothing holds a digit
pin or a slot of the Digit Set (42_shift_register.md R105, 43_digit_mux.md R113). -/
structure ShiftBooted (s : State) : Prop where
  alone : Alone s
  ready : Ready s
  srLive : s.blk.srLive = true
  mxLive : s.blk.mxLive = false
  pins : ShiftPinsReady s
  empty : ∀ k : Fin 4, s.blk.slot (slotDig k) = .empty
  unheld : ∀ (j : Nat) (k : Fin 4), j < nSlots → s.blk.slot j ≠ pinOf s.cfg.digId[k]

/-- The slots of the Shift Register Handle are filled with its pins (42_shift_register.md R105). -/
theorem fill_shiftSlots (c : Config) (b : Block) :
    (b.fill (shiftSlots c)).slot slotSer = pinOf c.serId ∧ (b.fill (shiftSlots c)).slot slotSrclk = pinOf c.srclkId ∧
    (b.fill (shiftSlots c)).slot slotRclk = pinOf c.rclkId := by
  have hfilled : ∀ e ∈ shiftSlots c, e.1 < nSlots → (b.fill (shiftSlots c)).slot e.1 = pinOf e.2 :=
    Block.fill_slot_mem (shiftSlots c) b (show [slotSer, slotSrclk, slotRclk].Nodup by decide)
  simp only [shiftSlots, List.forall_mem_cons] at hfilled ⊢
  obtain ⟨hser, hsrclk, hrclk, _⟩ := hfilled
  exact ⟨hser (by decide), hsrclk (by decide), hrclk (by decide)⟩

/-- Filling the slots of the Shift Register Handle leaves every slot from 3 on alone. -/
theorem fill_shiftSlots_ne (c : Config) (b : Block) (j : Nat) (hj : 3 ≤ j) :
    (b.fill (shiftSlots c)).slot j = b.slot j := by
  refine Block.fill_slot_ne (shiftSlots c) b j ?_
  simp only [shiftSlots, slotSer, slotSrclk, slotRclk, List.forall_mem_cons]
  exact ⟨by omega, by omega, by omega, nofun⟩

/-- SRINIT constructs the handle on a reset block and leaves the slots from 3 on empty (42_shift_register.md R105). -/
theorem srinit_of_reset (s : State) (ha : Alone s) (hb : s.blk = Block.reset) (hm : s.host.mapped = true) :
    ∃ t, exec .srinit s = .next t ∧ t.host = s.host ∧ ShiftBooted t := by
  have hempty : ∀ j, s.blk.slot j = .empty := fun j => by rw [hb, Block.reset_slot]
  have hfree : ∀ j id, s.blk.slot j ≠ pinOf id := fun j id => by rw [hempty]; exact nofun
  have hr : Ready s := ⟨by rw [hb]; rfl, hm⟩
  obtain ⟨t, he, hhost, hcfg, hblk, _, _, hgpio⟩ := srinitConstructsTheHandle s hr ha.1 (by rw [hb]; rfl) (hempty 0)
    (hempty 1) (hempty 2) fun j _ => ⟨hfree j _, hfree j _, hfree j _⟩
  obtain ⟨hfun, _⟩ := hgpio ha.2
  obtain ⟨v0, v1, v2, _⟩ := wiring s.cfg ha.1
  have hslot : ∀ j, t.blk.slot j = (s.blk.fill (shiftSlots s.cfg)).slot j := fun j => by rw [hblk]; rfl
  have hrest : ∀ j, 3 ≤ j → t.blk.slot j = .empty := fun j hj => by
    rw [hslot, fill_shiftSlots_ne s.cfg s.blk j hj, hempty]
  have hpins : ShiftPinsReady t := by
    rw [ShiftPinsReady, hcfg, hfun _ v0, hfun _ v1, hfun _ v2]
    simp only [hslot]
    obtain ⟨hser, hsrclk, hrclk⟩ := fill_shiftSlots s.cfg s.blk
    exact ⟨hser, hsrclk, hrclk, by simp, by simp, by simp⟩
  obtain ⟨hser, hsrclk, hrclk⟩ := hpins.holdNoDigit (by rw [hcfg]; exact ha.1)
  refine ⟨t, he, hhost, ⟨by rw [Alone, hcfg]; exact ha, ⟨by rw [hblk]; exact hr.1, by rw [hhost]; exact hm⟩,
    by rw [hblk]; rfl, by rw [hblk, hb]; rfl, hpins, fun k => hrest _ (Nat.le_add_right 3 _), fun j k _ => ?_⟩⟩
  match j with
  | 0 => exact hser k
  | 1 => exact hsrclk k
  | 2 => exact hrclk k
  | j + 3 =>
    rw [hrest (j + 3) (Nat.le_add_left 3 j)]
    exact nofun

/-- MXINIT then constructs the Digit Set, with the display dark (43_digit_mux.md R113, R116). -/
theorem ShiftBooted.mxinit {s : State} (h : ShiftBooted s) :
    exec .mxinit s = .next (s.ran .mxinit) ∧ AfterSwitches 0 (s.ran .mxinit) := by
  obtain ⟨t, he, _, _, _, _, hblk, _⟩ :=
    mxinitConstructsTheDigitSet s h.ready h.alone.1 h.mxLive h.empty h.unheld
  obtain rfl := ran_of_ok .mxinit s t he (by rw [hblk]; rfl)
  exact ⟨he, afterSwitches_ran_mxinit s h.alone h.ready h.srLive h.pins⟩

/-! ### The boot -/

/-- Settles O59: SRINIT and MXINIT are each presented in one step and taken in the next, and the fifth step is the refresh
loop's first turn. -/
theorem hostBootsTheDisplay : Obligations.HostBootsTheDisplay := by
  intro s ha hb hm hport hinputs hphase hstop
  have h0 : HostAt .boot [] s := ⟨ha.1, by rw [hb]; rfl, hinputs, hport, hphase⟩
  obtain ⟨s1, h1⟩ := h0.issues_alone ha (turn_boot _ _ hphase hm)
  obtain ⟨t2, e2, hhost2, hboot⟩ :=
    srinit_of_reset ((s.onHost (HostSide.issue .srinit .bootMux)).withPort []) ha hb hm
  obtain ⟨s2, h2⟩ := h1.takes_alone ha rfl e2
  obtain ⟨s3, h3⟩ := h2.issues_alone hboot.alone (turn_bootMux _ _ h2.phase)
  have hboot3 : ShiftBooted ((t2.onHost (HostSide.issue .mxinit .refresh)).withPort []) :=
    ⟨hboot.alone, hboot.ready, hboot.srLive, hboot.mxLive, hboot.pins, hboot.empty, hboot.unheld⟩
  obtain ⟨e4, hlit⟩ := hboot3.mxinit
  obtain ⟨_, _, hhost4, _⟩ := ran_mxinit ((t2.onHost (HostSide.issue .mxinit .refresh)).withPort [])
  obtain ⟨s4, h4⟩ := h3.takes_alone hboot.alone rfl e4
  generalize ((t2.onHost (HostSide.issue .mxinit .refresh)).withPort []).ran .mxinit = t4 at hlit hhost4 s4 h4
  have hstop4 : t4.host.stop = false := by
    rw [hhost4]
    exact (congrArg HostSide.stop hhost2).trans hstop
  obtain ⟨s5, h5⟩ := h4.issues_alone hlit.switchable.alone (turn_refresh_go _ _ h4.phase hstop4)
  obtain ⟨hlive, hdigits, _⟩ := hlit.switchable.mux
  have hdark : AllDark t4.cfg t4.gpio := fun k => by
    rw [hlit.lit k]
    exact decide_eq_false fun hn => absurd hn.1 (by decide)
  refine ⟨t4.onHost (HostSide.issue .mxsw .refresh), ?_, hlit.srLive, hlive, hlit.ok, h5.phase, h5.port, hdark,
    hlit.switchable.shift, hdigits⟩
  rw [run_succ_of_step Sys2Proof.core 4 s _ s1, run_succ_of_step Sys2Proof.core 3 _ t2 s2,
    run_succ_of_step Sys2Proof.core 2 t2 _ s3, run_succ_of_step Sys2Proof.core 1 _ t4 s4,
    run_succ_of_step Sys2Proof.core 0 t4 _ s5]
  rfl

end Sys2Proof.Machine
end

section
/-! The shutdown of a working display (70_reset_and_hazards.md R151): MXTD goes by without a clock of the shift register, and
SRTD then shifts the blank pattern out and releases the three lines. -/

namespace Sys2Proof.Machine

open Sys2Proof

/-! ### What MXTD shows the device -/

/-- The clear of any slot leaves a quiet device quiet and its output latch as it was. -/
theorem slotClear_quiet (i : Nat) (s : State) (h : Quiet s) :
    Quiet (slotClear i s) ∧ (slotClear i s).ext.lat = s.ext.lat := by
  cases he : (s.blk.slot i).effective with
  | false =>
    have hsame : slotClear i s = s := onSlot_ineffective i clearIO s he fun id => clearIO_invalid id s
    rw [hsame]
    exact ⟨h, rfl⟩
  | true =>
    obtain ⟨id, hslot, hid⟩ := Slot.pin_of_effective he
    have hpin : slotClear i s = clearIO id.val s := onSlot_of_pin i clearIO s id hslot
    obtain ⟨hquiet, _, hext, _⟩ := clearIO_quiet id.val s hid h
    rw [hpin]
    exact ⟨hquiet, by rw [hext]⟩

theorem clearSlots_quiet (l : List Nat) (s : State) (h : Quiet s) :
    Quiet (clearSlots l s) ∧ (clearSlots l s).ext.lat = s.ext.lat := by
  induction l generalizing s with
  | nil => exact ⟨h, rfl⟩
  | cons i l ih =>
    obtain ⟨hquiet, hlat⟩ := slotClear_quiet i s h
    obtain ⟨hquiet', hlat'⟩ := ih (slotClear i s) hquiet
    exact ⟨hquiet', hlat'.trans hlat⟩

/-- Slot `i` is none of the Shift Register Handle's and holds none of its pins. -/
def OffShiftPins (i : Nat) (s : State) : Prop :=
  3 ≤ i ∧ ∀ id ∈ shiftIds s.cfg, s.blk.slot i ≠ pinOf id

/-- A slot from 3 on emptied leaves a quiet device quiet. -/
theorem Quiet.setSlot_empty {s : State} (h : Quiet s) {i : Nat} (hi : 3 ≤ i) : Quiet (s.setSlot i .empty) := by
  obtain ⟨ha, ⟨hser, hsrclk, hrclk, hfun⟩, hlow⟩ := h
  have hslot : ∀ j, j < 3 → (s.setSlot i .empty).blk.slot j = s.blk.slot j := fun j hj =>
    Block.setSlot_slot_ne s.blk i j .empty (by omega)
  exact ⟨ha, ⟨(hslot 0 (by decide)).trans hser, (hslot 1 (by decide)).trans hsrclk, (hslot 2 (by decide)).trans hrclk,
    hfun⟩, hlow⟩

/-- The release of a slot off the shift register's pins leaves a quiet device quiet and its output latch as it was. -/
theorem releaseSlot_quiet (i : Nat) (s : State) (h : Quiet s) (hi : OffShiftPins i s) :
    Quiet (releaseSlot i s) ∧ (releaseSlot i s).ext.lat = s.ext.lat := by
  obtain ⟨hge, hoff⟩ := hi
  cases he : (s.blk.slot i).effective with
  | false =>
    have hsame : slotRelease i s = s :=
      onSlot_ineffective i releaseIO s he fun id => programFunction_invalid id fnInput s
    rw [releaseSlot, hsame]
    exact ⟨h.setSlot_empty hge, rfl⟩
  | true =>
    obtain ⟨id, hslot, hid⟩ := Slot.pin_of_effective he
    have hpin : slotRelease i s = programFunction id.val fnInput s := onSlot_of_pin i releaseIO s id hslot
    have hne : ∀ x ∈ shiftIds s.cfg, id.val ≠ x := by
      rintro x hx rfl
      exact hoff id.val hx (hslot.trans (by simp [pinOf]))
    simp only [shiftIds, List.forall_mem_cons] at hne
    obtain ⟨n0, n1, n2, _⟩ := hne
    obtain ⟨hquiet, hext⟩ := programFunction_quiet id.val fnInput s hid h n0 n1 n2
    rw [releaseSlot, hpin]
    exact ⟨hquiet.setSlot_empty hge, by rw [State.setSlot_ext, hext]⟩

/-- A release keeps every slot off the shift register's pins. -/
theorem OffShiftPins.releaseSlot {i : Nat} {s : State} (h : OffShiftPins i s) (j : Nat) :
    OffShiftPins i (releaseSlot j s) := by
  obtain ⟨hge, hoff⟩ := h
  refine ⟨hge, fun id hid => ?_⟩
  rw [releaseSlot_cfg] at hid
  rw [releaseSlot_blk, Block.setSlot_empty_slot]
  split
  · exact nofun
  · exact hoff id hid

theorem releaseAll_quiet (l : List Nat) (s : State) (h : Quiet s) (hl : ∀ i ∈ l, OffShiftPins i s) :
    Quiet (releaseAll l s) ∧ (releaseAll l s).ext.lat = s.ext.lat := by
  induction l generalizing s with
  | nil => exact ⟨h, rfl⟩
  | cons i l ih =>
    obtain ⟨hi, hl'⟩ := List.forall_mem_cons.mp hl
    obtain ⟨hquiet, hlat⟩ := releaseSlot_quiet i s h hi
    obtain ⟨hquiet', hlat'⟩ := ih (releaseSlot i s) hquiet fun j hj => (hl' j hj).releaseSlot i
    exact ⟨hquiet', hlat'.trans hlat⟩

/-- The slots of a working Digit Set are off the shift register's pins (00_scope.md R7). -/
theorem DigitPinsReady.offShiftPins {s : State} (h : DigitPinsReady s) (hw : configWf s.cfg = true) (k : Fin 4) :
    OffShiftPins (slotDig k) s := by
  obtain ⟨_, _, _, hv, _, _, _, hne, _⟩ := wiring s.cfg hw
  refine ⟨Nat.le_add_right 3 _, fun id hid heq => ?_⟩
  have hid' := shiftIds_valid s.cfg hw id hid
  have hk := hv k
  have hsame : s.cfg.digId[k] = id := pinOf_injective (by omega) (by omega) ((h k).1.symm.trans heq)
  obtain ⟨n0, n1, n2⟩ := hne k
  rcases (mem_shiftIds s.cfg id).mp hid with rfl | rfl | rfl
  · exact n0 hsame
  · exact n1 hsame
  · exact n2 hsame

/-- MXTD of a working Digit Set leaves a quiet device quiet and its output latch as it was (43_digit_mux.md R115). -/
theorem ran_mxtd_quiet (s : State) (h : Quiet s) (hd : DigitPinsReady s) :
    Quiet (s.ran .mxtd) ∧ (s.ran .mxtd).ext.lat = s.ext.lat := by
  obtain ⟨hquiet, hlat⟩ := clearSlots_quiet mxtdClears s.accept h.accept
  have hoff : ∀ i ∈ mxtdReleases, OffShiftPins i (clearSlots mxtdClears s.accept) := fun i hi => by
    obtain ⟨k, rfl⟩ := (mem_mxtdReleases i).mp hi
    rw [OffShiftPins, clearSlots_cfg, clearSlots_blk]
    exact hd.offShiftPins h.1.1 k
  obtain ⟨hquiet', hlat'⟩ := releaseAll_quiet mxtdReleases _ hquiet hoff
  rw [State.ran, commandBody, mxtdBody_eq]
  generalize releaseAll mxtdReleases (clearSlots mxtdClears s.accept) = t at hquiet' hlat' ⊢
  exact ⟨hquiet'.congr rfl (fun _ => rfl) rfl, hlat'.trans hlat⟩

/-! ### The pins and the slots after MXTD -/

/-- After MXTD of a working Digit Set its pins are inputs with low latches (43_digit_mux.md R115). -/
theorem ran_mxtd_digits (s : State) (ha : Alone s) (hd : DigitPinsReady s) (k : Fin 4) :
    (s.ran .mxtd).gpio.function s.cfg.digId[k] = fnInput ∧ (s.ran .mxtd).gpio.out.getLsbD s.cfg.digId[k] = false := by
  obtain ⟨_, _, _, hv, _⟩ := wiring s.cfg ha.1
  have hval := pinOf_val s.cfg.digId[k] (hv k)
  have hslot : ∃ k' : Fin 4, s.blk.slot (slotDig k') = .pin (Fin.ofNat 64 s.cfg.digId[k]) := ⟨k, (hd k).1⟩
  have hpin := ran_mxtd_gpio s ha (Fin.ofNat 64 s.cfg.digId[k]) (hval.le.trans (hv k))
  rwa [hval, if_pos hslot, decide_eq_true hslot, Bool.not_true, Bool.and_false] at hpin

/-- The slots after MXTD: the four of the Digit Set are empty (43_digit_mux.md R115). -/
theorem ran_mxtd_slot (s : State) (j : Nat) :
    (s.ran .mxtd).blk.slot j = if j ∈ mxtdReleases then .empty else s.blk.slot j := by
  obtain ⟨_, _, _, _, hblk⟩ := ran_mxtd s
  rw [hblk]
  exact Block.vacate_slot mxtdReleases s.blk j

/-! ### The pins and the slots after SRTD -/

/-- SRTD makes the pins of the Shift Register Handle inputs and leaves every other input an input (42_shift_register.md
R108). -/
theorem ran_srtd_inputs (s : State) (ha : Alone s) (hp : ShiftPinsReady s) (id : Nat) (hid : id ≤ 53)
    (h : id ∈ shiftIds s.cfg ∨ s.gpio.function id = fnInput) : (s.ran .srtd).gpio.function id = fnInput := by
  obtain ⟨hser, hsrclk, hrclk, _⟩ := hp
  have hval := pinOf_val id hid
  have hfun := (ran_srtd_gpio s ha).2 (Fin.ofNat 64 id) (hval.le.trans hid)
  rw [hval] at hfun
  rcases h with hmem | hin
  · rw [hfun, if_pos]
    rcases (mem_shiftIds s.cfg id).mp hmem with rfl | rfl | rfl
    · exact .inl hser
    · exact .inr (.inl hsrclk)
    · exact .inr (.inr hrclk)
  · rw [hfun, hin, ite_self]

/-- The wired pins are those of the Shift Register Handle and those of the Digit Set (00_scope.md R7). -/
theorem mem_wiredIds (c : Config) (id : Nat) : id ∈ wiredIds c ↔ id ∈ shiftIds c ∨ ∃ k : Fin 4, id = c.digId[k] := by
  rw [wiredIds, List.mem_append, digId_toList, mem_digIds_iff]
  rfl

/-- When the digits are inputs with low latches, SRTD on a quiet device leaves every wired pin an input, serial-in's latch
high and the others low (42_shift_register.md R108). -/
theorem ran_srtd_wired (s : State) (h : Quiet s)
    (hd : ∀ k : Fin 4, s.gpio.function s.cfg.digId[k] = fnInput ∧ s.gpio.out.getLsbD s.cfg.digId[k] = false) :
    (∀ id ∈ wiredIds s.cfg, (s.ran .srtd).gpio.function id = fnInput) ∧
    (∀ k : Fin 4, (s.ran .srtd).gpio.out.getLsbD s.cfg.digId[k] = false) ∧
    (s.ran .srtd).gpio.out.getLsbD s.cfg.srclkId = false ∧ (s.ran .srtd).gpio.out.getLsbD s.cfg.rclkId = false ∧
    (s.ran .srtd).gpio.out.getLsbD s.cfg.serId = true := by
  obtain ⟨_, _, _, hshifted⟩ := shiftOut_quiet 0xFF s.accept h.accept
  obtain ⟨ha, hp, hsrclk, hrclk⟩ := h
  obtain ⟨v0, v1, v2, hv, n0, n1, _, hne, _⟩ := wiring s.cfg ha.1
  have hout : ∀ j, j ≤ 53 →
      (s.ran .srtd).gpio.out.getLsbD j = if j = s.cfg.serId then true else s.gpio.out.getLsbD j := fun j hj => by
    rw [(ran_srtd_gpio s ha).1]
    exact hshifted j hj
  refine ⟨fun id hid => ?_, fun k => ?_, ?_, ?_, ?_⟩
  · rcases (mem_wiredIds s.cfg id).mp hid with hmem | ⟨k, rfl⟩
    · exact ran_srtd_inputs s ha hp id (shiftIds_valid s.cfg ha.1 id hmem) (.inl hmem)
    · exact ran_srtd_inputs s ha hp _ (hv k) (.inr (hd k).1)
  · rw [hout _ (hv k), if_neg (hne k).1, (hd k).2]
  · rw [hout _ v1, if_neg n0.symm, hsrclk]
  · rw [hout _ v2, if_neg n1.symm, hrclk]
  · rw [hout _ v0, if_pos rfl]

/-- The slots after SRTD: the three of the Shift Register Handle are empty (42_shift_register.md R108). -/
theorem ran_srtd_slot (s : State) (j : Nat) :
    (s.ran .srtd).blk.slot j = if j ∈ srtdSlots then .empty else s.blk.slot j := by
  rw [ran_blk .srtd s (by simp)]
  exact Block.vacate_slot srtdSlots s.blk j

/-! ### The shutdown -/

/-- Settles O53: MXTD leaves the device quiet and the digits inputs with low latches, and SRTD, from a quiet device, ends as
`blank_releases_device` says. -/
theorem shutdownEndState : Obligations.ShutdownEndState := by
  intro s ha hr hl _ hmux hp hc
  obtain ⟨hm, hd, _⟩ := hmux
  have hrun := exec_runs .mxtd s (hr.admitted _) (mxtdChecks_live s hm)
  obtain ⟨hquiet, hlat⟩ := ran_mxtd_quiet s (quiet_of_clocksLow s ha hp hc) hd
  obtain ⟨_, _, hhost, hcfg, hblk⟩ := ran_mxtd s
  have hdigits := ran_mxtd_digits s ha hd
  have hslot := ran_mxtd_slot s
  have hready : Ready (s.ran .mxtd) := ⟨by rw [hblk]; exact hr.1, by rw [hhost]; exact hr.2⟩
  have hlive : (s.ran .mxtd).blk.srLive = true := by rw [hblk]; exact hl
  have hgone : (s.ran .mxtd).blk.mxLive = false := by rw [hblk]
  rw [← hcfg] at hdigits ⊢
  generalize s.ran .mxtd = t at *
  have hrun' := exec_shiftCommand .srtd t (hready.admitted _) rfl hlive
  obtain ⟨hinputs, hdark, hsrclk, hrclk, hser⟩ := ran_srtd_wired t hquiet hdigits
  obtain ⟨_, _, hext, _, hcfg'⟩ := ran_srtd t
  have hblk' := ran_blk .srtd t (by simp)
  obtain ⟨_, _, hshifted, _⟩ := shiftOut_quiet 0xFF t.accept hquiet.accept
  obtain ⟨_, hstor', hlat', hsaw, hheld⟩ := blank_releases_device t.accept hquiet.accept
  rw [releaseAll_srtdSlots] at hext
  simp only [← hext, State.accept_ext, hlat] at hshifted hstor' hlat' hsaw hheld
  refine ⟨t, t.ran .srtd, hrun, hrun', hlat, by rw [hshifted], by rw [hshifted], hstor', hlat', hsaw, hheld, hinputs, hdark,
    hsrclk, hrclk, hser, by rw [hblk']; rfl, by rw [hblk']; exact hgone, fun k hk => ?_,
    allDark_of_low fun k => (hdigits k).2, by rw [hcfg']; exact allDark_of_low hdark⟩
  rw [ran_srtd_slot, hslot]
  interval_cases k <;> rfl

end Sys2Proof.Machine
end
